-- ==== Sys2Proof/Word.lean ====
section
/-!
DEFINITION. The word types of EAR (`00_scope.md` R5, R9): 16-bit register values and addresses, 8-bit bytes, 4-bit register and port numbers.
-/
namespace Sys2Proof

/-- A register value or an address: 16 bits (R5 `XLEN`, `VA_BITS`). -/
abbrev Word := BitVec 16

/-- A byte of memory or of code: 8 bits (R5 `BYTE_BITS`). -/
abbrev Byte := BitVec 8

/-- A register number, `R0` to `R15` (R20). -/
abbrev Reg := BitVec 4

/-- A port number, an `Imm4` from 0 to 15 (R99, R180). -/
abbrev PortNum := BitVec 4

/-- `R11`, the default pointer register of `PSH` and `POP` (R22, R191). -/
abbrev Reg.sp : Reg := 11

/-- `R12`, "Return Address" (R22). -/
abbrev Reg.ra : Reg := 12

/-- `R13`, "Return Delta" (R22). -/
abbrev Reg.rd : Reg := 13

/-- `R14`, the program counter (R23, R25). -/
abbrev Reg.pc : Reg := 14

/-- `R15`, "Delta PC" (R23, R27). -/
abbrev Reg.dpc : Reg := 15

end Sys2Proof
end

