-- ==== Sys2Proof/Config.lean ====
section
/-!
DEFINITION. What an implementation of EAR fixes (`00_scope.md` R6) and the free values of the model. The twelve parameters of R6 are one record of plain data, so that a claim can name or quantify over them; the free values are opaque constants, so that nothing can prove which value they have.
-/
namespace Sys2Proof

/-- `BYTE_ORDER` (R6, D1): which byte of a 16-bit value lies at the lower address or is fetched first. -/
inductive ByteOrder where
  /-- The byte at the lower address is bits 7:0. The spec's decided value (D1). -/
  | little
  /-- The byte at the lower address is bits 15:8. The alternative D1 keeps. -/
  | big
deriving DecidableEq, Repr

/-- `DVS_ROUNDING` (R6, R136, D9): rounding of an inexact signed quotient. -/
inductive DvsRounding where
  /-- Toward zero; the remainder takes the dividend's sign. The spec's decided value (D9). -/
  | trunc
  /-- Toward minus infinity; the remainder takes the divisor's sign. The alternative D9 keeps. -/
  | floor
deriving DecidableEq, Repr

/-- `PHYS_CHECK` (R6, R58, D18): which accesses are checked against `PHYS_ALLOW`. -/
inductive PhysCheck where
  /-- Every fetch, load and store of the CPU. The spec's decided value (D18, C9). -/
  | always
  /-- Only those made while a fault handler runs. The alternative D18 keeps. -/
  | handlerOnly
deriving DecidableEq, Repr

/-- The reasons of a halt (R250). The last three names are the spec's own labels (D26). -/
inductive HaltReason where
  /-- `HALT_UNMAPPED`: a page fault on a page whose fault handler page number is 0x00. -/
  | unmapped
  /-- `HALT_DOUBLEFAULT`: a fetch, load or store reached an inaccessible physical page. -/
  | doubleFault
  /-- `HALT_INSTRUCTION`: `HLT` was executed. -/
  | instruction
  /-- `HALT_DECODE`: a reserved opcode or a reserved prefix was decoded. -/
  | decode
  /-- `HALT_ARITHMETIC`: a division by zero, or the one overflowing signed division. -/
  | arithmetic
deriving DecidableEq, Repr

/-- `EXC_STACK_SIZE` (R5, R256): the bytes of the exception thread's stack, 2.5 KiB. The hardware does not police it (U35). -/
def excStackSize : Nat := 0xA00

/-- What the port oracle answers to one access (R180): success, with a byte when it is a read, or failure. -/
structure PortAnswer where
  /-- The access succeeded. -/
  ok : Bool
  /-- The byte read; of no meaning for a write or a failed read. -/
  byte : Byte
deriving DecidableEq, Repr, Inhabited

/-- `HALT_CODES` (R6, R250, D26): a numeric value for each reason of a halt. -/
structure HaltCodes where
  unmapped : Nat
  doubleFault : Nat
  instruction : Nat
  decode : Nat
  arithmetic : Nat
deriving DecidableEq, Repr

/-- The implementation parameters of R6. No instruction reads or writes the record itself. -/
structure Config where
  /-- `BYTE_ORDER` (D1). -/
  byteOrder : ByteOrder
  /-- `RESET_PC`, the value of `PC` when execution starts (D21, open). -/
  resetPc : Word
  /-- `RESET_REGS`, the values of `R1` to `R13`, in this order, when execution starts (D21). -/
  resetRegs : Vector Word 13
  /-- `MMU_AT_START`, whether the normal thread starts with translation enabled (D21). -/
  mmuAtStart : Bool
  /-- `INITIAL_MEMORY`, the loader's image of physical memory, in the form of memory itself (D21, open). -/
  initialMemory : List Host.Cell
  /-- `EXC_STACK_TOP`, the initial `SP` of the exception thread (D19, open). -/
  excStackTop : Word
  /-- `EXC_SAVED_REGS`, the physical address of the 32-byte saved registers area (D19, open). -/
  excSavedRegs : Word
  /-- `EXC_RETURN_ADDR`, the address whose fetch ends a fault handler (D19, open). -/
  excReturnAddr : Word
  /-- `DVS_ROUNDING` (D9). -/
  dvsRounding : DvsRounding
  /-- `PHYS_CHECK` (D18). -/
  physCheck : PhysCheck
  /-- `PORTS`, the oracle (D22, open): the answers it gives, in access order; after them it answers as `Config.portAnswer` says (log 6). -/
  ports : List PortAnswer
  /-- `HALT_CODES` (D26, open); none where reasons are symbolic only (log 17). -/
  haltCodes : Option HaltCodes
deriving DecidableEq, Repr

/-- The parameters of the machine right after reset: the spec's decided values (D1, D9, D18, D21); for the open ones DESIGN CHOICE: `RESET_PC` = 0x1000 (unsafe, log 1) and the three addresses of the exception thread (unsafe, log 4) are those the spec's own examples use, no memory byte is listed (unsafe, log 3), no answer of the ports is chosen (log 6) and halt reasons are symbolic (log 17). -/
def Config.standard : Config where
  byteOrder := .little
  resetPc := 0x1000
  resetRegs := Vector.replicate 13 0
  mmuAtStart := true
  initialMemory := []
  excStackTop := 0xF000
  excSavedRegs := 0xF000
  excReturnAddr := 0xF0F0
  dvsRounding := .trunc
  physCheck := .always
  ports := []
  haltCodes := none

/-- The numeric value of a halt reason, where the implementation has one (R6, R250, D26). Nothing of the machine reads it. -/
def Config.haltCode (config : Config) (reason : HaltReason) : Option Nat :=
  config.haltCodes.map (fun codes =>
    match reason with
    | .unmapped => codes.unmapped
    | .doubleFault => codes.doubleFault
    | .instruction => codes.instruction
    | .decode => codes.decode
    | .arithmetic => codes.arithmetic)

/-- One port access with its answer; the list of them is the history on which the oracle may depend (R180). -/
inductive PortEvent where
  /-- `PortRead(p)` was answered `answer`. -/
  | read (p : PortNum) (answer : PortAnswer)
  /-- `PortWrite(p, b)` was answered `answer`. -/
  | write (p : PortNum) (b : Byte) (answer : PortAnswer)
deriving DecidableEq, Repr

/-- The answer of the port oracle (R180, U31, open), where `Config.ports` has no further one, to an access (`none` for a read, `some b` for a write of `b`) on port `p` after the history `log`, newest access first. A free value (log 6). -/
opaque Config.portAnswer (log : List PortEvent) (p : PortNum) (written : Option Byte) : PortAnswer

/-- What a failed `RDB` leaves in `Rd` (R181, D29, U10: any value), for draw number `n`. A free value (log 7). -/
opaque Config.failedReadWord (n : Nat) : Word

/-- What a failed `RDB` leaves in `ZF` (R181, D29, U10: any value), for draw number `n`. A free value (log 7). -/
opaque Config.failedReadZf (n : Nat) : Bool

/-- What a failed `RDB` leaves in `SF` (R181, D29, U10: any value), for draw number `n`. A free value (log 7). -/
opaque Config.failedReadSf (n : Nat) : Bool

/-- What a failed `RDB` leaves in `PF` (R181, D29, U10: any value), for draw number `n`. A free value (log 7). -/
opaque Config.failedReadPf (n : Nat) : Bool

end Sys2Proof
end

