-- ==== Sys2Proof/Syntax.lean ====
section
/-!
DEFINITION. The instructions of EAR: one constructor per row of the opcode table (`30_encoding.md` R106 to R108). A prefix byte is an instruction of its own here: it is one step of the model and leaves the decode state of R44 for the next (log 9). Conditions are whole: the condition code of R32 after an `XC` prefix has added 8.
-/
namespace Sys2Proof

/-- The condition codes of R32, but for `SP` = 6, which marks a prefix byte and is not a condition (R109). -/
inductive Cond where
  /-- 0: Equal (Zero). -/
  | eq
  /-- 1: Not Equal (Nonzero). -/
  | ne
  /-- 2: Unsigned Greater Than. -/
  | gt
  /-- 3: Unsigned Less Than or Equal. -/
  | le
  /-- 4: Unsigned Less Than (Carry Clear). -/
  | lt
  /-- 5: Unsigned Greater Than or Equal (Carry Set). -/
  | ge
  /-- 7: Unconditional (Always). -/
  | al
  /-- 8: Negative. -/
  | ng
  /-- 9: Positive or Zero. -/
  | ps
  /-- A: Signed Greater Than. -/
  | bg
  /-- B: Signed Less Than or Equal. -/
  | se
  /-- C: Signed Less Than. -/
  | sm
  /-- D: Signed Greater Than or Equal. -/
  | be
  /-- E: Odd. -/
  | od
  /-- F: Even. -/
  | ev
deriving DecidableEq, Repr

/-- The operand `Vy` (R95): a register other than `DPC`, or the `Imm16` that the number 15 selects. -/
inductive Vy where
  | reg (r : Reg)
  | imm (v : Word)
deriving DecidableEq, Repr

/-- The operand `V8` (R96): the low byte of a register other than `DPC`, or the `Imm8` that the number 15 selects. -/
inductive V8 where
  | reg (r : Reg)
  | imm (b : Byte)
deriving DecidableEq, Repr

/-- The instructions, in the order of the opcode table. -/
inductive Instr where
  /-- `ADD Rx, Vy` (R131). -/
  | add (cc : Cond) (rx : Reg) (vy : Vy)
  /-- `SUB Rx, Vy` (R132). -/
  | sub (cc : Cond) (rx : Reg) (vy : Vy)
  /-- `MLU Rx, Vy` (R133). -/
  | mlu (cc : Cond) (rx : Reg) (vy : Vy)
  /-- `MLS Rx, Vy` (R134). -/
  | mls (cc : Cond) (rx : Reg) (vy : Vy)
  /-- `DVU Rx, Vy` (R135). -/
  | dvu (cc : Cond) (rx : Reg) (vy : Vy)
  /-- `DVS Rx, Vy` (R136). -/
  | dvs (cc : Cond) (rx : Reg) (vy : Vy)
  /-- `XOR Rx, Vy` (R137). -/
  | xor (cc : Cond) (rx : Reg) (vy : Vy)
  /-- `AND Rx, Vy` (R138). -/
  | and (cc : Cond) (rx : Reg) (vy : Vy)
  /-- `ORR Rx, Vy` (R139). -/
  | orr (cc : Cond) (rx : Reg) (vy : Vy)
  /-- `SHL Rx, Vy` (R140). -/
  | shl (cc : Cond) (rx : Reg) (vy : Vy)
  /-- `SRU Rx, Vy` (R141). -/
  | sru (cc : Cond) (rx : Reg) (vy : Vy)
  /-- `SRS Rx, Vy` (R142). -/
  | srs (cc : Cond) (rx : Reg) (vy : Vy)
  /-- `MOV Rx, Vy` (R143). -/
  | mov (cc : Cond) (rx : Reg) (vy : Vy)
  /-- `CMP Rx, Vy` (R144). -/
  | cmp (cc : Cond) (rx : Reg) (vy : Vy)
  /-- `LDW Rx, [Vy]` (R161). -/
  | ldw (cc : Cond) (rx : Reg) (vy : Vy)
  /-- `STW [Rx], Vy` (R162). -/
  | stw (cc : Cond) (rx : Reg) (vy : Vy)
  /-- `LDB Rx, [Vy]` (R163). -/
  | ldb (cc : Cond) (rx : Reg) (vy : Vy)
  /-- `STB [Rx], V8` (R164). -/
  | stb (cc : Cond) (rx : Reg) (v8 : V8)
  /-- `BRA Rx, Vy` (R171). -/
  | bra (cc : Cond) (rx : Reg) (vy : Vy)
  /-- `BRR Imm16` (R172). -/
  | brr (cc : Cond) (imm : Word)
  /-- `FCA Rx, Vy` (R173). -/
  | fca (cc : Cond) (rx : Reg) (vy : Vy)
  /-- `FCR Imm16` (R174). -/
  | fcr (cc : Cond) (imm : Word)
  /-- `RDB Rx, (Imm4)` (R181). -/
  | rdb (cc : Cond) (rx : Reg) (port : PortNum)
  /-- `WRB (Imm4), V8` (R182). -/
  | wrb (cc : Cond) (port : PortNum) (v8 : V8)
  /-- `PSH {Regs16}` (R192); bit `i` of the set selects `Ri` (R100). -/
  | psh (cc : Cond) (regs : Word)
  /-- `POP {Regs16}` (R193). -/
  | pop (cc : Cond) (regs : Word)
  /-- `INC Rx, SImm4` (R201); the immediate is the decoded number, -8 to -1 or 1 to 8 (R98). -/
  | inc (cc : Cond) (rx : Reg) (simm : Int)
  /-- `BPT` (R202). -/
  | bpt (cc : Cond)
  /-- `HLT` (R203). -/
  | hlt (cc : Cond)
  /-- `NOP` (R204). -/
  | nop (cc : Cond)
  /-- Reserved opcode `0E` (R107). -/
  | reserved0E (cc : Cond)
  /-- Reserved opcode `0F` (R107). -/
  | reserved0F (cc : Cond)
  /-- Prefix `XC`, byte `C0` (R211). -/
  | xc
  /-- Prefix `TF`, byte `C1` (R212). -/
  | tf
  /-- Prefix `DR`, bytes `D0` to `DF` (R213). -/
  | dr (rd : Reg)
  /-- Reserved prefix `C2` (R108). -/
  | reservedPrefixC2
  /-- Reserved prefix `C3` (R108). -/
  | reservedPrefixC3
  /-- Reserved prefix `C4` (R108). -/
  | reservedPrefixC4
  /-- Reserved prefix `C5` (R108). -/
  | reservedPrefixC5
  /-- Reserved prefix `C6` (R108). -/
  | reservedPrefixC6
  /-- Reserved prefix `C7` (R108). -/
  | reservedPrefixC7
  /-- Reserved prefix `C8` (R108). -/
  | reservedPrefixC8
  /-- Reserved prefix `C9` (R108). -/
  | reservedPrefixC9
  /-- Reserved prefix `CA` (R108). -/
  | reservedPrefixCA
  /-- Reserved prefix `CB` (R108). -/
  | reservedPrefixCB
  /-- Reserved prefix `CC` (R108). -/
  | reservedPrefixCC
  /-- Reserved prefix `CD` (R108). -/
  | reservedPrefixCD
  /-- Reserved prefix `CE` (R108). -/
  | reservedPrefixCE
  /-- Reserved prefix `CF` (R108). -/
  | reservedPrefixCF
deriving DecidableEq, Repr

/-- The condition of an instruction; none for a prefix byte, which has no condition of its own (R210). -/
def Instr.cond? : Instr → Option Cond
  | .add cc _ _ | .sub cc _ _ | .mlu cc _ _ | .mls cc _ _ | .dvu cc _ _ | .dvs cc _ _
  | .xor cc _ _ | .and cc _ _ | .orr cc _ _ | .shl cc _ _ | .sru cc _ _ | .srs cc _ _
  | .mov cc _ _ | .cmp cc _ _ | .ldw cc _ _ | .stw cc _ _ | .ldb cc _ _ | .stb cc _ _
  | .bra cc _ _ | .brr cc _ | .fca cc _ _ | .fcr cc _ | .rdb cc _ _ | .wrb cc _ _
  | .psh cc _ | .pop cc _ | .inc cc _ _ | .bpt cc | .hlt cc | .nop cc
  | .reserved0E cc | .reserved0F cc => some cc
  | .xc | .tf | .dr _ | .reservedPrefixC2 | .reservedPrefixC3 | .reservedPrefixC4
  | .reservedPrefixC5 | .reservedPrefixC6 | .reservedPrefixC7 | .reservedPrefixC8
  | .reservedPrefixC9 | .reservedPrefixCA | .reservedPrefixCB | .reservedPrefixCC
  | .reservedPrefixCD | .reservedPrefixCE | .reservedPrefixCF => none

end Sys2Proof
end

