-- ==== Sys2Proof/WellFormed.lean ====
section
/-!
DEFINITION. Which instruction terms the encoding can express (`30_encoding.md` R95, R96, R98). Everything else of a term is a field that has no illegal value (R109).
-/
namespace Sys2Proof

/-- A `Vy` register is not `DPC`: the number 15 selects the immediate (R95, R23). -/
def Vy.wf : Vy → Bool
  | .reg r => r != Reg.dpc
  | .imm _ => true

/-- A `V8` register is not `DPC`: the number 15 selects the immediate (R96). -/
def V8.wf : V8 → Bool
  | .reg r => r != Reg.dpc
  | .imm _ => true

/-- An `SImm4` is -8 to -1 or 1 to 8; the value 0 has no encoding (R98, C7). -/
def simm4Wf (n : Int) : Bool :=
  decide (-8 ≤ n) && decide (n ≤ 8) && n != 0

/-- The terms that are instructions of the encoding. -/
def Instr.wf : Instr → Bool
  | .add _ _ vy | .sub _ _ vy | .mlu _ _ vy | .mls _ _ vy | .dvu _ _ vy | .dvs _ _ vy
  | .xor _ _ vy | .and _ _ vy | .orr _ _ vy | .shl _ _ vy | .sru _ _ vy | .srs _ _ vy
  | .mov _ _ vy | .cmp _ _ vy | .ldw _ _ vy | .stw _ _ vy | .ldb _ _ vy
  | .bra _ _ vy | .fca _ _ vy => vy.wf
  | .stb _ _ v8 | .wrb _ _ v8 => v8.wf
  | .inc _ _ simm => simm4Wf simm
  | .brr _ _ | .fcr _ _ | .rdb _ _ _ | .psh _ _ | .pop _ _
  | .bpt _ | .hlt _ | .nop _ | .reserved0E _ | .reserved0F _
  | .xc | .tf | .dr _ | .reservedPrefixC2 | .reservedPrefixC3 | .reservedPrefixC4
  | .reservedPrefixC5 | .reservedPrefixC6 | .reservedPrefixC7 | .reservedPrefixC8
  | .reservedPrefixC9 | .reservedPrefixCA | .reservedPrefixCB | .reservedPrefixCC
  | .reservedPrefixCD | .reservedPrefixCE | .reservedPrefixCF => true

end Sys2Proof
end

