-- ==== Sys2Proof/Decode.lean ====
section
/-!
DEFINITION. The decoder and the encoder (`30_encoding.md` R90 to R110). The decoder reads one instruction or one prefix byte from a list of code bytes, lowest first; it is total, and it says when it needs a further byte, because code bytes are fetched one at a time and each fetch can fault (R102, R253). Reserved encodings decode to constructors of their own (R107, R108).
-/
namespace Sys2Proof

/-- The 16-bit value of the byte at the lower address (or fetched first) and the one after it (R61, R97, D1). -/
def wordOfBytes (order : ByteOrder) (b0 b1 : Byte) : Word :=
  match order with
  | .little => b1 ++ b0
  | .big => b0 ++ b1

/-- The byte of a 16-bit value that lies at the lower address, or is fetched first (R61, R97, D1). -/
def firstByte (order : ByteOrder) (w : Word) : Byte :=
  match order with
  | .little => w.extractLsb' 0 8
  | .big => w.extractLsb' 8 8

/-- The byte of a 16-bit value that lies at the higher address, or is fetched second (R61, R97, D1). -/
def secondByte (order : ByteOrder) (w : Word) : Byte :=
  match order with
  | .little => w.extractLsb' 8 8
  | .big => w.extractLsb' 0 8

/-- The condition field of an opcode byte, bits 7:5 (R91). -/
def condField (b : Byte) : BitVec 3 :=
  b.extractLsb' 5 3

/-- The opcode of an opcode byte, bits 4:0 (R91). -/
def opField (b : Byte) : BitVec 5 :=
  b.extractLsb' 0 5

/-- The high nybble of a byte, which is `rx` of a regpair byte (R8, R94). -/
def highNybble (b : Byte) : BitVec 4 :=
  b.extractLsb' 4 4

/-- The low nybble of a byte, which is `ry` of a regpair byte (R8, R94). -/
def lowNybble (b : Byte) : BitVec 4 :=
  b.extractLsb' 0 4

/-- The condition that a condition field stands for, `xc` saying whether the byte before was `XC` (R32, R91, R93); none for the field 6 in prefix position, which marks a prefix byte (R92). -/
def condOfField (xc : Bool) (c3 : BitVec 3) : Option Cond :=
  match xc, c3.toNat with
  | false, 0 => some .eq
  | false, 1 => some .ne
  | false, 2 => some .gt
  | false, 3 => some .le
  | false, 4 => some .lt
  | false, 5 => some .ge
  | false, 6 => none
  | false, _ => some .al
  | true, 0 => some .ng
  | true, 1 => some .ps
  | true, 2 => some .bg
  | true, 3 => some .se
  | true, 4 => some .sm
  | true, 5 => some .be
  | true, 6 => some .od
  | true, _ => some .ev

/-- `SImm4` of a nybble: its signed reading, plus 1 when that is not negative (R98). -/
def simm4OfNybble (n : BitVec 4) : Int :=
  if 0 ≤ n.toInt then n.toInt + 1 else n.toInt

/-- The answer of the decoder: the bytes so far are too few, or they are an instruction. -/
inductive Decoded where
  | more
  | instr (i : Instr)
deriving DecidableEq, Repr

/-- The prefix byte with the opcode field `op` (R92, R108). -/
def decodePrefix (op : BitVec 5) : Instr :=
  match op.toNat with
  | 0x00 => .xc
  | 0x01 => .tf
  | 0x02 => .reservedPrefixC2
  | 0x03 => .reservedPrefixC3
  | 0x04 => .reservedPrefixC4
  | 0x05 => .reservedPrefixC5
  | 0x06 => .reservedPrefixC6
  | 0x07 => .reservedPrefixC7
  | 0x08 => .reservedPrefixC8
  | 0x09 => .reservedPrefixC9
  | 0x0A => .reservedPrefixCA
  | 0x0B => .reservedPrefixCB
  | 0x0C => .reservedPrefixCC
  | 0x0D => .reservedPrefixCD
  | 0x0E => .reservedPrefixCE
  | 0x0F => .reservedPrefixCF
  | _ => .dr (op.setWidth 4)

/-- Format `RV` (R101): the regpair byte, then an `Imm16` iff `ry` is 15 (R95). -/
def decodeRv (order : ByteOrder) (mk : Reg → Vy → Instr) (rest : List Byte) : Decoded :=
  match rest with
  | [] => .more
  | rp :: imm =>
    if lowNybble rp = Reg.dpc then
      match imm with
      | b0 :: b1 :: _ => .instr (mk (highNybble rp) (.imm (wordOfBytes order b0 b1)))
      | _ => .more
    else .instr (mk (highNybble rp) (.reg (lowNybble rp)))

/-- Format `R8` (R101): the regpair byte, then an `Imm8` iff `ry` is 15 (R96). -/
def decodeR8 (mk : BitVec 4 → V8 → Instr) (rest : List Byte) : Decoded :=
  match rest with
  | [] => .more
  | rp :: imm =>
    if lowNybble rp = Reg.dpc then
      match imm with
      | b0 :: _ => .instr (mk (highNybble rp) (.imm b0))
      | _ => .more
    else .instr (mk (highNybble rp) (.reg (lowNybble rp)))

/-- Format `RN` (R101): the regpair byte alone, its low nybble a number (R98, R99). -/
def decodeRn (mk : Reg → BitVec 4 → Instr) (rest : List Byte) : Decoded :=
  match rest with
  | [] => .more
  | rp :: _ => .instr (mk (highNybble rp) (lowNybble rp))

/-- Formats `I16` and `S16` (R101): two bytes after the opcode byte, no regpair byte (R97, R100). -/
def decodeWord (order : ByteOrder) (mk : Word → Instr) (rest : List Byte) : Decoded :=
  match rest with
  | b0 :: b1 :: _ => .instr (mk (wordOfBytes order b0 b1))
  | _ => .more

/-- The instruction with the opcode `op` and the condition `cc`, from the bytes after its opcode byte (R101, R106, R107). -/
def decodeOp (order : ByteOrder) (cc : Cond) (op : BitVec 5) (rest : List Byte) : Decoded :=
  match op.toNat with
  | 0x00 => decodeRv order (.add cc) rest
  | 0x01 => decodeRv order (.sub cc) rest
  | 0x02 => decodeRv order (.mlu cc) rest
  | 0x03 => decodeRv order (.mls cc) rest
  | 0x04 => decodeRv order (.dvu cc) rest
  | 0x05 => decodeRv order (.dvs cc) rest
  | 0x06 => decodeRv order (.xor cc) rest
  | 0x07 => decodeRv order (.and cc) rest
  | 0x08 => decodeRv order (.orr cc) rest
  | 0x09 => decodeRv order (.shl cc) rest
  | 0x0A => decodeRv order (.sru cc) rest
  | 0x0B => decodeRv order (.srs cc) rest
  | 0x0C => decodeRv order (.mov cc) rest
  | 0x0D => decodeRv order (.cmp cc) rest
  | 0x0E => .instr (.reserved0E cc)
  | 0x0F => .instr (.reserved0F cc)
  | 0x10 => decodeRv order (.ldw cc) rest
  | 0x11 => decodeRv order (.stw cc) rest
  | 0x12 => decodeRv order (.ldb cc) rest
  | 0x13 => decodeR8 (.stb cc) rest
  | 0x14 => decodeRv order (.bra cc) rest
  | 0x15 => decodeWord order (.brr cc) rest
  | 0x16 => decodeRv order (.fca cc) rest
  | 0x17 => decodeWord order (.fcr cc) rest
  | 0x18 => decodeRn (.rdb cc) rest
  | 0x19 => decodeR8 (.wrb cc) rest
  | 0x1A => decodeWord order (.psh cc) rest
  | 0x1B => decodeWord order (.pop cc) rest
  | 0x1C => decodeRn (fun rx n => .inc cc rx (simm4OfNybble n)) rest
  | 0x1D => .instr (.bpt cc)
  | 0x1E => .instr (.hlt cc)
  | _ => .instr (.nop cc)

/-- One instruction or prefix byte from the code bytes `bs`; `xc` says that an `XC` prefix has just been read, after which the next byte is always an opcode byte (R93, R102). -/
def decode (order : ByteOrder) (xc : Bool) (bs : List Byte) : Decoded :=
  match bs with
  | [] => .more
  | b :: rest =>
    match condOfField xc (condField b) with
    | none => .instr (decodePrefix (opField b))
    | some cc => decodeOp order cc (opField b) rest

/-- The longest encoding of one constructor in bytes: opcode byte, regpair byte, `Imm16` (R105). -/
def maxUnitBytes : Nat := 4

/-- Byte `k` of a number whose bit 0 is the least significant bit of the first byte. -/
def byteOfNat (w k : Nat) : Byte :=
  BitVec.ofNat 8 (w >>> (8 * k))

/-- The code bytes of an instruction whose `nbits` bits are `w`, every further bit being 0. -/
def tableBytes (nbits w : Nat) : List Byte :=
  (List.range maxUnitBytes).map (byteOfNat (w % 2 ^ nbits))

/-- The instruction that the decoder reads from an instruction of the opcode table whose bits are `w`, in the byte order of D1 and outside an `XC` prefix. -/
def decodeTableWord (nbits w : Nat) : Option Instr :=
  match decode .little false (tableBytes nbits w) with
  | .instr i => some i
  | .more => none

/-! ## The encoder -/

/-- The condition field of a condition: its code, less 8 when an `XC` prefix adds it (R32, R211). -/
def Cond.field : Cond → BitVec 3
  | .eq => 0
  | .ne => 1
  | .gt => 2
  | .le => 3
  | .lt => 4
  | .ge => 5
  | .al => 7
  | .ng => 0
  | .ps => 1
  | .bg => 2
  | .se => 3
  | .sm => 4
  | .be => 5
  | .od => 6
  | .ev => 7

/-- The conditions 8 to F, which need an `XC` prefix (R32, R211). -/
def Cond.extended : Cond → Bool
  | .eq | .ne | .gt | .le | .lt | .ge | .al => false
  | .ng | .ps | .bg | .se | .sm | .be | .od | .ev => true

/-- Whether the bytes of an instruction stand directly after an `XC` prefix; those of a prefix never do (R93). -/
def Instr.extended (i : Instr) : Bool :=
  match i.cond? with
  | some cc => cc.extended
  | none => false

/-- The opcode byte: condition field in bits 7:5, opcode in bits 4:0 (R91, R106). -/
def opByte (cc : Cond) (op : BitVec 5) : Byte :=
  cc.field ++ op

/-- The nybble of an `SImm4`: one less than a positive number; a negative one in two's complement (R98). -/
def nybbleOfSimm4 (n : Int) : BitVec 4 :=
  if 0 < n then BitVec.ofInt 4 (n - 1) else BitVec.ofInt 4 n

/-- Format `RV` (R101, R95). -/
def encodeRv (order : ByteOrder) (cc : Cond) (op : BitVec 5) (rx : Reg) (vy : Vy) : List Byte :=
  match vy with
  | .reg ry => [opByte cc op, rx ++ ry]
  | .imm v => [opByte cc op, rx ++ Reg.dpc, firstByte order v, secondByte order v]

/-- Format `R8` (R101, R96); the high nybble is `Rx`, or the port of `WRB` (R99). -/
def encodeR8 (cc : Cond) (op : BitVec 5) (high : BitVec 4) (v8 : V8) : List Byte :=
  match v8 with
  | .reg ry => [opByte cc op, high ++ ry]
  | .imm b => [opByte cc op, high ++ Reg.dpc, b]

/-- Formats `I16` and `S16` (R101). -/
def encodeWord (order : ByteOrder) (cc : Cond) (op : BitVec 5) (v : Word) : List Byte :=
  [opByte cc op, firstByte order v, secondByte order v]

/-- The code bytes of an instruction, less the `XC` prefix that `Instr.extended` asks for (R101, R106 to R108). -/
def encode (order : ByteOrder) : Instr → List Byte
  | .add cc rx vy => encodeRv order cc 0x00 rx vy
  | .sub cc rx vy => encodeRv order cc 0x01 rx vy
  | .mlu cc rx vy => encodeRv order cc 0x02 rx vy
  | .mls cc rx vy => encodeRv order cc 0x03 rx vy
  | .dvu cc rx vy => encodeRv order cc 0x04 rx vy
  | .dvs cc rx vy => encodeRv order cc 0x05 rx vy
  | .xor cc rx vy => encodeRv order cc 0x06 rx vy
  | .and cc rx vy => encodeRv order cc 0x07 rx vy
  | .orr cc rx vy => encodeRv order cc 0x08 rx vy
  | .shl cc rx vy => encodeRv order cc 0x09 rx vy
  | .sru cc rx vy => encodeRv order cc 0x0A rx vy
  | .srs cc rx vy => encodeRv order cc 0x0B rx vy
  | .mov cc rx vy => encodeRv order cc 0x0C rx vy
  | .cmp cc rx vy => encodeRv order cc 0x0D rx vy
  | .reserved0E cc => [opByte cc 0x0E]
  | .reserved0F cc => [opByte cc 0x0F]
  | .ldw cc rx vy => encodeRv order cc 0x10 rx vy
  | .stw cc rx vy => encodeRv order cc 0x11 rx vy
  | .ldb cc rx vy => encodeRv order cc 0x12 rx vy
  | .stb cc rx v8 => encodeR8 cc 0x13 rx v8
  | .bra cc rx vy => encodeRv order cc 0x14 rx vy
  | .brr cc imm => encodeWord order cc 0x15 imm
  | .fca cc rx vy => encodeRv order cc 0x16 rx vy
  | .fcr cc imm => encodeWord order cc 0x17 imm
  | .rdb cc rx port => [opByte cc 0x18, rx ++ port]
  | .wrb cc port v8 => encodeR8 cc 0x19 port v8
  | .psh cc regs => encodeWord order cc 0x1A regs
  | .pop cc regs => encodeWord order cc 0x1B regs
  | .inc cc rx simm => [opByte cc 0x1C, rx ++ nybbleOfSimm4 simm]
  | .bpt cc => [opByte cc 0x1D]
  | .hlt cc => [opByte cc 0x1E]
  | .nop cc => [opByte cc 0x1F]
  | .xc => [0xC0]
  | .tf => [0xC1]
  | .dr rd => [(0xD : BitVec 4) ++ rd]
  | .reservedPrefixC2 => [0xC2]
  | .reservedPrefixC3 => [0xC3]
  | .reservedPrefixC4 => [0xC4]
  | .reservedPrefixC5 => [0xC5]
  | .reservedPrefixC6 => [0xC6]
  | .reservedPrefixC7 => [0xC7]
  | .reservedPrefixC8 => [0xC8]
  | .reservedPrefixC9 => [0xC9]
  | .reservedPrefixCA => [0xCA]
  | .reservedPrefixCB => [0xCB]
  | .reservedPrefixCC => [0xCC]
  | .reservedPrefixCD => [0xCD]
  | .reservedPrefixCE => [0xCE]
  | .reservedPrefixCF => [0xCF]

end Sys2Proof
end

