-- ==== Sys2Proof/Machine/State.lean ====
section
/-!
DEFINITION. The state of the machine (`10_state.md` R20 to R48), the reasons a step can stop, and the state after reset (R47, R300). All of it is plain data.
-/
namespace Sys2Proof.Machine

/-- `FLAGS`: five one-bit flags without a bit layout (R29, D27). -/
structure Flags where
  /-- `ZF`, the zero flag. -/
  zf : Bool
  /-- `SF`, the sign flag. -/
  sf : Bool
  /-- `PF`, the parity flag, 1 for an odd number of bits. -/
  pf : Bool
  /-- `CF`, the carry flag. -/
  cf : Bool
  /-- `VF`, the overflow flag. -/
  vf : Bool
deriving DecidableEq, Repr

/-- A thread context: sixteen general purpose registers and the flags (R20, R40). Slot 0 stands for `R0` and is never read or written (R21), slot 14 is `PC`, slot 15 is `DPC` (R23). -/
structure Context where
  regs : Vector Word 16
  flags : Flags
deriving DecidableEq, Repr

/-- All five flags 0. -/
def Flags.clear : Flags where
  zf := false
  sf := false
  pf := false
  cf := false
  vf := false

/-- A context with every register and flag 0. -/
def Context.clean : Context where
  regs := Vector.replicate 16 0
  flags := Flags.clear

/-- The two thread contexts (R40, R270). -/
inductive Thread where
  /-- The thread the program runs on; the MMU is enabled. -/
  | normal
  /-- The thread a page fault handler runs on; the MMU is disabled. -/
  | exception
deriving DecidableEq, Repr

/-- The access type `prot` (R53, R55). -/
inductive Access where
  | read
  | write
  | execute
deriving DecidableEq, Repr

/-- The run state (R42). -/
inductive RunState where
  /-- The CPU executes instructions. -/
  | running
  /-- After `BPT`; only the host can resume (R202). -/
  | paused
  /-- The CPU executes nothing further (R250). -/
  | halted (reason : HaltReason)
deriving DecidableEq, Repr

/-- The decode state (R44, R102): what the prefix bytes read so far say of the instruction in progress. -/
structure DecodeState where
  /-- An `XC` prefix has been read (R211). -/
  xc : Bool
  /-- An odd number of `TF` prefixes has been read (R212). -/
  tf : Bool
  /-- `rd_override`, from the last `DR` prefix (R213). -/
  rd : Option Reg
  /-- `insn_pc`, the address of the first byte of the instruction in progress (R102, R43); none at an instruction boundary. -/
  insnPc : Option Word
deriving DecidableEq, Repr

/-- The decode state at an instruction boundary (R44). -/
def DecodeState.empty : DecodeState where
  xc := false
  tf := false
  rd := none
  insnPc := none

/-- One part of the data phase of an instruction: at most one byte access, its operands captured (R43, R61, R104). The latch is the bytes of the word in transfer. -/
inductive DataOp where
  /-- Read the byte at `va` and put it last in the latch (R60, R61). -/
  | loadByte (va : Word)
  /-- Write the byte `b` at `va` (R60, R61). -/
  | storeByte (va : Word) (b : Byte)
  /-- Read register `r` now and put its two bytes, in memory order, in the latch (R192). -/
  | latchReg (r : Reg)
  /-- Write the first byte of the latch at `va` and take it out of the latch (R192). -/
  | storeLatch (va : Word)
  /-- Write the word in the latch to register `r` and empty the latch (R193). -/
  | setReg (r : Reg)
  /-- Write the value in the latch to `rd`, and `ZSP` from it if `writeFlags` (R161, R163). -/
  | finishLoad (rd : Reg) (writeFlags : Bool)
  /-- Add `delta` to register `r` (R193). -/
  | addReg (r : Reg) (delta : Word)
deriving DecidableEq, Repr

/-- What a suspended instruction was doing when its byte access faulted (R43). -/
inductive Work where
  /-- Fetching; `got` is the bytes of the instruction read since its last prefix byte. -/
  | fetch (got : List Byte)
  /-- Performing the access of `op`; `rest` and `latch` are what remains of the data phase. -/
  | data (op : DataOp) (rest : List DataOp) (latch : List Byte)
deriving DecidableEq, Repr

/-- The in-flight instruction while a page fault handler runs (R43). -/
structure Suspended where
  /-- The address of the first byte of the instruction (R43 (e)). -/
  insnPc : Word
  /-- The faulting thread's live `PC`, passed to the handler as `next_pc` (R43 (d), R253). -/
  livePc : Word
  /-- The faulting virtual address (R43 (c)). -/
  va : Word
  /-- The access type of the faulting access (R43 (c)). -/
  access : Access
  /-- The prefix state of the instruction (R44, R253). -/
  decode : DecodeState
  /-- The access that faulted and the rest of the instruction (R43 (a), (b)). -/
  work : Work
deriving DecidableEq, Repr

/-- What can stop a byte access (R251, R263). -/
inductive Trap where
  /-- The page number for the access type is 0x00 (R55). -/
  | pageFault (va : Word) (access : Access)
  /-- The physical page is not accessible (R58). -/
  | denied
deriving DecidableEq, Repr

/-- The memory cells that are listed, in rising address order (R50). -/
abbrev Memory := List Host.Cell

/-- The state of the machine. -/
structure State where
  /-- The normal thread context (R40). -/
  normal : Context
  /-- The exception thread context (R40, R48, R256). -/
  exception : Context
  /-- The context that executes (R40, R270). -/
  active : Thread
  /-- `mmu_enabled` (R41). -/
  mmuEnabled : Bool
  /-- `run` (R42). -/
  run : RunState
  /-- The decode state of the active context (R44). -/
  decode : DecodeState
  /-- The in-flight instruction of the normal thread while a handler runs (R43). -/
  suspended : Option Suspended
  /-- Physical memory (R50). -/
  mem : Memory
  /-- The model's own: answers the port oracle will give, in access order (R180, log 6). -/
  portAnswers : List PortAnswer
  /-- The model's own: the port accesses so far, newest first (R180, log 6). -/
  portLog : List PortEvent
  /-- The model's own: how many failed port reads have drawn free values (R181, log 7). -/
  draws : Nat
  /-- The parameters of the implementation (R6, log 5). -/
  config : Config
deriving DecidableEq, Repr

/-- Why a step has no next state. No instruction raises one: both say that the machine had already stopped. -/
inductive Fault where
  /-- Raised by `step` when `run` is `halted reason`: "A halted CPU executes nothing further" (R42, R250). Safe. -/
  | halted (reason : HaltReason)
  /-- Raised by `step` when `run` is `paused`: only the host can resume (R202, U22). Safe. -/
  | paused
deriving DecidableEq, Repr

/-- Why the model gives an instruction no meaning. -/
inductive Refusal where
  /-- Raised by `exec` for an instruction the model has no meaning for. Safe. No arm raises it: every instruction has its meaning. -/
  | notModelled (mnemonic : String)
deriving DecidableEq, Repr

/-- The registers at the start of execution, slots 0 to 15: `RESET_REGS` in 1 to 13, `RESET_PC` in 14, 0 in `R0` and `DPC` (R47). -/
def startRegs (config : Config) : Vector Word 16 :=
  Vector.ofFn (fun i : Fin 16 =>
    if h : 1 ≤ i.val ∧ i.val ≤ 13 then config.resetRegs.get ⟨i.val - 1, by omega⟩
    else if i.val = 14 then config.resetPc
    else 0)

/-- The start of execution (R47, R300) with the implementation parameters `config`. -/
def State.start (config : Config) : State where
  normal := { Context.clean with regs := startRegs config }
  exception := Context.clean
  active := .normal
  mmuEnabled := config.mmuAtStart
  run := .running
  decode := DecodeState.empty
  suspended := none
  mem := config.initialMemory
  portAnswers := config.ports
  portLog := []
  draws := 0
  config := config

/-- The machine right after reset: the start of execution with the parameters of `Config.standard`. -/
def State.reset : State :=
  State.start Config.standard

end Sys2Proof.Machine
end

