-- ==== Sys2Proof/Machine/Flags.lean ====
section
/-!
DEFINITION. The conditions (`10_state.md` R32), when flags are written (R31), and every flag computation of the instructions (R29, R30).
-/
namespace Sys2Proof.Machine

/-- Whether the condition `cc` holds of the flags `f` (R32; `OF` of the source is `PF`, C1). -/
def condHolds (cc : Cond) (f : Flags) : Bool :=
  match cc with
  | .eq => f.zf
  | .ne => !f.zf
  | .gt => f.cf && !f.zf
  | .le => !f.cf || f.zf
  | .lt => !f.cf
  | .ge => f.cf
  | .al => true
  | .ng => f.sf
  | .ps => !f.sf
  | .bg => !f.zf && f.sf == f.vf
  | .se => f.zf || f.sf != f.vf
  | .sm => f.sf != f.vf
  | .be => f.sf == f.vf
  | .od => f.pf
  | .ev => !f.pf

/-- `write_flags` of an instruction with the condition `cc` in the decode state `d` (R31). -/
def writesFlags (cc : Cond) (d : DecodeState) : Bool :=
  (cc == .al) ^^ d.tf

/-- The exclusive-or of the 16 bits of a value (R10 `SetZSP`, R29). -/
def parity (r : Word) : Bool :=
  (List.range 16).foldl (fun p i => p ^^ r.getLsbD i) false

/-- `SetZSP(r)` (R10, R29). -/
def Flags.setZsp (f : Flags) (r : Word) : Flags :=
  { f with zf := r == 0, sf := r.msb, pf := parity r }

/-- `ZSPC` from a result and a carry (R141, R142, R181, R182). -/
def Flags.setZspc (f : Flags) (r : Word) (c : Bool) : Flags :=
  { f.setZsp r with cf := c }

/-- `CF` of `vx + vy`: bit 16 of the 17-bit sum (R30, R131). -/
def addCarry (vx vy : Word) : Bool :=
  (vx.toNat + vy.toNat).testBit 16

/-- `VF` of `vx + vy`: the operands have one sign and the result the other (R131). -/
def addOverflow (vx vy : Word) : Bool :=
  vx.msb == vy.msb && (vx + vy).msb != vx.msb

/-- `CF` of `vx - vy`: bit 16 of `u(vx) + u(~vy) + 1`, which says that there is no borrow (R30, R132, C6). -/
def subCarry (vx vy : Word) : Bool :=
  (vx.toNat + (~~~vy).toNat + 1).testBit 16

/-- `VF` of `vx - vy`: the operands differ in sign and the result has not the sign of `vx` (R132). -/
def subOverflow (vx vy : Word) : Bool :=
  vx.msb != vy.msb && (vx - vy).msb != vx.msb

/-- `ZSPCV` of the addition `vx + vy` (R131, R201). -/
def Flags.setAdd (f : Flags) (vx vy : Word) : Flags :=
  { f.setZsp (vx + vy) with cf := addCarry vx vy, vf := addOverflow vx vy }

/-- `ZSPCV` of the subtraction `vx - vy` (R132, R144). -/
def Flags.setSub (f : Flags) (vx vy : Word) : Flags :=
  { f.setZsp (vx - vy) with cf := subCarry vx vy, vf := subOverflow vx vy }

/-- `CF` of `SRU`: the last bit shifted out, 0 when nothing or only zeros beyond bit 15 went out (R141, D11). -/
def sruCarry (vx : Word) (n : Nat) : Bool :=
  n != 0 && vx.getLsbD (n - 1)

/-- `CF` of `SRS`: bit `min(n, 16) - 1` of the operand, 0 when nothing is shifted out (R142, D11). -/
def srsCarry (vx : Word) (n : Nat) : Bool :=
  n != 0 && vx.getLsbD (min n 16 - 1)

end Sys2Proof.Machine
end

