-- ==== Sys2Proof/Machine/Ops.lean ====
section
/-!
DEFINITION. The operations the meanings share: registers, flags, physical memory, translation and the accessibility check, byte accesses, the data phase of an instruction, halts, taking a page fault and returning from its handler (`10_state.md`, `20_memory.md`, `60_exceptions.md`).
-/
namespace Sys2Proof.Machine

/-! ## Contexts and registers -/

/-- The context that executes (R40). -/
def State.ctx (s : State) : Context :=
  match s.active with
  | .normal => s.normal
  | .exception => s.exception

/-- Replace the context that executes. -/
def State.setCtx (s : State) (c : Context) : State :=
  { s with
    normal := match s.active with
      | .normal => c
      | .exception => s.normal
    exception := match s.active with
      | .normal => s.exception
      | .exception => c }

/-- `x[r]`: register `r` of a context; `R0` is always 0 (R21). -/
def Context.reg (c : Context) (r : Reg) : Word :=
  if r = 0 then 0 else c.regs.get r.toFin

/-- `x[r] <- v`; a write to `R0` is ignored (R21). -/
def Context.setReg (c : Context) (r : Reg) (v : Word) : Context :=
  { c with regs := if r = 0 then c.regs else c.regs.set r.toNat v r.isLt }

/-- `x[r]` of the running thread (R10). -/
def State.reg (s : State) (r : Reg) : Word :=
  s.ctx.reg r

/-- `x[r] <- v` of the running thread (R10). -/
def State.setReg (s : State) (r : Reg) (v : Word) : State :=
  s.setCtx (s.ctx.setReg r v)

/-- `pc` (R23). -/
def State.pc (s : State) : Word :=
  s.reg Reg.pc

/-- `dpc` (R23). -/
def State.dpc (s : State) : Word :=
  s.reg Reg.dpc

/-- `FLAGS` of the running thread (R29, R40). -/
def State.flags (s : State) : Flags :=
  s.ctx.flags

/-- `FLAGS <- f`. -/
def State.setFlags (s : State) (f : Flags) : State :=
  s.setCtx { s.ctx with flags := f }

/-- `if write_flags: FLAGS <- f` (R31). -/
def State.setFlagsIf (s : State) (writeFlags : Bool) (f : Flags) : State :=
  s.setFlags (if writeFlags then f else s.flags)

/-- The advance of `PC` after a code byte: `PC := PC + 1 + DPC` modulo 2^16 (R26, R28). -/
def State.advancePc (s : State) : State :=
  s.setReg Reg.pc (s.pc + 1 + s.dpc)

/-! ## Instruction boundaries and halts -/

/-- The start of the decode of an instruction or of a further byte of one that has prefixes: `insn_pc` is the address of the first byte, prefixes included (R102, D31). -/
def State.beginInstr (s : State) : State :=
  { s with decode := { s.decode with insnPc := some (s.decode.insnPc.getD s.pc) } }

/-- The end of an instruction, completed, skipped or abandoned: the decode state is cleared (R44). -/
def State.finish (s : State) : State :=
  { s with decode := DecodeState.empty }

/-- `halt(reason)`: nothing but `run` changes (R250). -/
def State.halt (s : State) (reason : HaltReason) : State :=
  { s with run := .halted reason }

/-- The host lifts the pause of a `BPT`; execution continues at `PC` (R202, log 23). -/
def State.resume (s : State) : State :=
  { s with run := match s.run with
      | .paused => .running
      | r => r }

/-! ## Physical memory -/

/-- What a byte that no cell lists reads as. DESIGN CHOICE (unsafe): `INITIAL_MEMORY` is open (R47); the model takes 0x00 (log 3). -/
def unlistedByte : Byte := 0

/-- The byte at physical address `a` (R50). -/
def Memory.read (m : Memory) (a : Nat) : Byte :=
  match m with
  | [] => unlistedByte
  | (k, v) :: t =>
    if a < k then unlistedByte
    else if a = k then v
    else Memory.read t a

/-- Put the byte `b` at physical address `a`, keeping the canonical form: writing what an unlisted byte reads as takes the cell out. -/
def Memory.write (m : Memory) (a : Nat) (b : Byte) : Memory :=
  match m with
  | [] => if b = unlistedByte then [] else [(a, b)]
  | (k, v) :: t =>
    if a < k then (if b = unlistedByte then (k, v) :: t else (a, b) :: (k, v) :: t)
    else if a = k then
      (if b = unlistedByte then t.dropWhile (fun c => decide (c.1 ≤ a)) else (a, b) :: t)
    else (k, v) :: Memory.write t a b

/-- The canonical form from address `low` on: addresses strictly rising and below 2^16, no cell equal to what an unlisted byte reads as. -/
def Memory.wfFrom (low : Nat) (m : Memory) : Bool :=
  match m with
  | [] => true
  | (k, v) :: t => decide (low ≤ k) && decide (k < 2 ^ 16) && v != unlistedByte && Memory.wfFrom (k + 1) t

/-- The canonical form of memory. -/
def Memory.wf (m : Memory) : Bool :=
  Memory.wfFrom 0 m

/-- `TableRead8(pa)` and every other read that is not checked (R51, R255). -/
def State.rawRead (s : State) (pa : Word) : Byte :=
  s.mem.read pa.toNat

/-- A write of one byte that is not checked (R51, R255). -/
def State.rawWrite (s : State) (pa : Word) (b : Byte) : State :=
  { s with mem := s.mem.write pa.toNat b }

/-- The word at physical address `pa`, unchecked; the second byte is at `pa + 1` modulo 2^16 (R61, R255). -/
def State.rawReadWord (s : State) (pa : Word) : Word :=
  wordOfBytes s.config.byteOrder (s.rawRead pa) (s.rawRead (pa + 1))

/-- Write the word `w` at physical address `pa`, unchecked, the lower address first (R61, R255). -/
def State.rawWriteWord (s : State) (pa : Word) (w : Word) : State :=
  (s.rawWrite pa (firstByte s.config.byteOrder w)).rawWrite (pa + 1) (secondByte s.config.byteOrder w)

/-- Write the words `ws` from physical address `pa` upward, unchecked (R255). -/
def State.rawWriteWords (s : State) (pa : Word) (ws : List Word) : State :=
  match ws with
  | [] => s
  | w :: rest => (s.rawWriteWord pa w).rawWriteWords (pa + 2) rest

/-! ## Translation and the accessibility check -/

/-- The code of an access type: read 0, write 1, execute 2 (R53, R55). -/
def accessCode (a : Access) : Word :=
  match a with
  | .read => 0
  | .write => 1
  | .execute => 2

/-- The page number of an address, its top byte (R50, R52). -/
def pageOf (a : Word) : Byte :=
  a.extractLsb' 8 8

/-- `tte_paddr`: the physical address of the page table entry of the virtual address `va`, `0xFC00 + 4 * va[15:8]` (R53, R55). -/
def tteAddr (va : Word) : Word :=
  0xFC00 + 4 * (pageOf va).setWidth 16

/-- The page number byte of the page table entry of `va` for the access type `a` (R53). -/
def State.pageNumber (s : State) (va : Word) (a : Access) : Byte :=
  s.rawRead (tteAddr va + accessCode a)

/-- The fault handler page number of the page table entry of `va` (R53, R252). -/
def State.handlerPage (s : State) (va : Word) : Byte :=
  s.rawRead (tteAddr va + 3)

/-- `Translate(va, prot)`: the physical address, or none where a page fault is raised (R55, R56, R67). -/
def State.translate (s : State) (va : Word) (a : Access) : Option Word :=
  if s.mmuEnabled then
    if s.pageNumber va a = 0 then none
    else some (s.pageNumber va a ++ va.extractLsb' 0 8)
  else some va

/-- The byte of the physical allocation table for the page of `pa`, at `0x0100 + pa[15:8]` (R58). -/
def State.allocFlags (s : State) (pa : Word) : Byte :=
  s.rawRead (0x0100 + (pageOf pa).setWidth 16)

/-- Whether accesses are checked against `PHYS_ALLOW` at all now (`PHYS_CHECK`, R58, D18). -/
def State.physChecked (s : State) : Bool :=
  match s.config.physCheck with
  | .always => true
  | .handlerOnly => s.active == .exception

/-- `CheckPhys(pa)`: the physical page may be accessed, bit 2 of its allocation table byte (R58). -/
def State.accessible (s : State) (pa : Word) : Bool :=
  !s.physChecked || (s.allocFlags pa).getLsbD 2

/-- `PhysRead8(pa)` (R51). -/
def State.readAt (s : State) (pa : Word) : Except Trap Byte :=
  if s.accessible pa then .ok (s.rawRead pa) else .error .denied

/-- `PhysWrite8(pa, b)` (R51). -/
def State.writeAt (s : State) (pa : Word) (b : Byte) : Except Trap State :=
  if s.accessible pa then .ok (s.rawWrite pa b) else .error .denied

/-- One code byte at `pc`, access type execute, without the advance of `pc` (R62). -/
def State.fetchByte (s : State) : Except Trap Byte :=
  match s.translate s.pc .execute with
  | none => .error (.pageFault s.pc .execute)
  | some pa => s.readAt pa

/-! ## Taking a page fault -/

/-- The words of the saved registers area: the sixteen registers of the faulting thread, `PC` being the address of the first byte of the instruction (R255). -/
def State.savedWords (s : State) (insnPc : Word) : List Word :=
  (List.range 16).map (fun i => if i = 14 then insnPc else s.reg (BitVec.ofNat 4 i))

/-- The exception thread context at handler entry (R256, D19). -/
def handlerContext (config : Config) (handler : Byte) (va : Word) (a : Access) (nextPc : Word) : Context where
  regs := #v[0, 0, tteAddr va, va, accessCode a, config.excSavedRegs, nextPc, 0,
    0, 0, 0, config.excStackTop, config.excReturnAddr, 0, handler ++ (0 : Byte), 0]
  flags := Flags.clear

/-- Entry of the page fault handler on the physical page `handler`: the registers are saved, the CPU switches to a clean exception context with the MMU disabled, and the instruction is suspended in the middle of `work` (R252, R254, R255, R256). -/
def State.enterHandler (s : State) (handler : Byte) (va : Word) (a : Access) (work : Work) : State :=
  let insnPc := s.decode.insnPc.getD s.pc
  { s.rawWriteWords s.config.excSavedRegs (s.savedWords insnPc) with
    exception := handlerContext s.config handler va a s.pc
    active := .exception
    mmuEnabled := false
    decode := DecodeState.empty
    suspended := some
      { insnPc := insnPc
        livePc := s.pc
        va := va
        access := a
        decode := { s.decode with insnPc := some insnPc }
        work := work } }

/-- `raise PageFault(va, prot)`: a halt when the page has no handler, else the entry of the handler (R252). -/
def State.pageFault (s : State) (va : Word) (a : Access) (work : Work) : State :=
  if s.handlerPage va = 0 then s.halt .unmapped
  else s.enterHandler (s.handlerPage va) va a work

/-- What happens when a byte access is stopped in the middle of `work` (R58, R250, R252). -/
def State.takeTrap (s : State) (t : Trap) (work : Work) : State :=
  match t with
  | .pageFault va a => s.pageFault va a work
  | .denied => s.halt .doubleFault

/-! ## The data phase -/

/-- The word, or the zero-extended byte, that the latch holds (R61, R163). -/
def latchValue (order : ByteOrder) (latch : List Byte) : Word :=
  match latch with
  | [] => 0
  | [b] => b.setWidth 16
  | b0 :: b1 :: _ => wordOfBytes order b0 b1

/-- The byte access of a part of the data phase, if it makes one (R60, R61). -/
def DataOp.access? (op : DataOp) : Option (Word × Access) :=
  match op with
  | .loadByte va => some (va, .read)
  | .storeByte va _ => some (va, .write)
  | .storeLatch va => some (va, .write)
  | .latchReg _ => none
  | .setReg _ => none
  | .finishLoad _ _ => none
  | .addReg _ _ => none

/-- Perform one part of the data phase, its access (if any) at the physical address `pa`: the latch and the state after it, or the failed accessibility check (R51, R58, R60, R161 to R164, R192, R193). -/
def DataOp.performAt (op : DataOp) (pa : Word) (latch : List Byte) (s : State) : Except Trap (List Byte × State) :=
  match op with
  | .loadByte _ => (s.readAt pa).map (fun b => (latch ++ [b], s))
  | .storeByte _ b => (s.writeAt pa b).map (fun t => (latch, t))
  | .storeLatch _ => (s.writeAt pa (latch.headD 0)).map (fun t => (latch.tail, t))
  | .latchReg r => .ok ([firstByte s.config.byteOrder (s.reg r), secondByte s.config.byteOrder (s.reg r)], s)
  | .setReg r => .ok ([], s.setReg r (latchValue s.config.byteOrder latch))
  | .finishLoad rd wf =>
    .ok ([], (s.setReg rd (latchValue s.config.byteOrder latch)).setFlagsIf wf
      (s.flags.setZsp (latchValue s.config.byteOrder latch)))
  | .addReg r delta => .ok (latch, s.setReg r (s.reg r + delta))

/-- Perform one part of the data phase: its access is translated first, and may page-fault (R55, R60, R263). -/
def DataOp.perform (op : DataOp) (latch : List Byte) (s : State) : Except Trap (List Byte × State) :=
  match op.access? with
  | none => op.performAt 0 latch s
  | some (va, a) =>
    match s.translate va a with
    | none => .error (.pageFault va a)
    | some pa => op.performAt pa latch s

/-- Run the data phase `ops` to its end, or to the first access that is stopped; earlier effects stand (R250, R261, R263, R264). -/
def State.runData (ops : List DataOp) (latch : List Byte) (s : State) : State :=
  match ops with
  | [] => s.finish
  | op :: rest =>
    match op.perform latch s with
    | .error t => s.takeTrap t (.data op rest latch)
    | .ok (latch', s') => State.runData rest latch' s'

/-- The bytes of a word access, the lower address first, `f` being the access to one of them (R61). -/
def wordOps (f : Word → DataOp) (va : Word) : List DataOp :=
  [f va, f (va + 1)]

/-! ## Return from the handler -/

/-- The register `i` in the saved registers area (R255, R258). -/
def State.savedReg (s : State) (i : Reg) : Word :=
  s.rawReadWord (s.config.excSavedRegs + 2 * i.setWidth 16)

/-- `completed`: the handler has marked the instruction complete (R258). -/
def State.handlerCompleted (s : State) (u : Suspended) : Bool :=
  s.savedReg 0 != 0 || s.savedReg Reg.pc != u.insnPc

/-- The registers of the faulting thread after the handler: 1 to 13 and 15 from the saved area; `PC` from it if it was modified, else the live `PC`; `R0` stays 0 (R258, D20). -/
def State.restoredRegs (s : State) (u : Suspended) : Vector Word 16 :=
  Vector.ofFn (fun i : Fin 16 =>
    if i.val = 0 then 0
    else if i.val = 14 then (if s.savedReg Reg.pc = u.insnPc then u.livePc else s.savedReg Reg.pc)
    else s.savedReg (BitVec.ofNat 4 i.val))

/-- `ReturnFromHandler`: back to the normal thread with the MMU enabled, the registers written back and the flags it had; the exception context is discarded (R258). The prefix state of the instruction is taken up again. -/
def State.returnFromHandler (s : State) (u : Suspended) : State :=
  { s with
    normal := { s.normal with regs := s.restoredRegs u }
    exception := Context.clean
    active := .normal
    mmuEnabled := true
    decode := u.decode
    suspended := none }

/-- Continue a data phase whose first access is to be made at the physical address `pa` that the handler returned, for this one byte only (R259, R261). -/
def State.continueData (s : State) (pa : Word) (op : DataOp) (rest : List DataOp) (latch : List Byte) : State :=
  match op.performAt pa latch s with
  | .error t => s.takeTrap t (.data op rest latch)
  | .ok (latch', s') => State.runData rest latch' s'

end Sys2Proof.Machine
end

