-- ==== Sys2Proof/Machine/Operands.lean ====
section
/-!
DEFINITION. The operand forms (`30_encoding.md` R95, R96, R98, R100), the destination register (R213), and the frame every instruction shares: the condition test (R102, R103) and the write of a result.
-/
namespace Sys2Proof.Machine

/-- The value of `Vy`: the register's value, or the `Imm16` (R95, R104). -/
def State.vy (s : State) (vy : Vy) : Word :=
  match vy with
  | .reg r => s.reg r
  | .imm v => v

/-- The value of `V8`: the low byte of the register, or the `Imm8` (R96, D4). -/
def State.v8 (s : State) (v8 : V8) : Byte :=
  match v8 with
  | .reg r => (s.reg r).setWidth 8
  | .imm b => b

/-- `rd`: the register of the last `DR` prefix, or the default of the instruction (R102, R213). -/
def State.dest (s : State) (default : Reg) : Reg :=
  s.decode.rd.getD default

/-- `write_flags` of an instruction with the condition `cc` (R31). -/
def State.writesFlags (s : State) (cc : Cond) : Bool :=
  Machine.writesFlags cc s.decode

/-- The 16-bit value of an `SImm4` (R201). -/
def simm4Word (simm : Int) : Word :=
  BitVec.ofInt 16 simm

/-- The registers of a `Regs16` set, in ascending number (R100, R190, D12). -/
def regList (regs : Word) : List Reg :=
  ((List.range 16).filter (fun i => regs.getLsbD i)).map (BitVec.ofNat 4)

/-- The number of 1 bits of a value (R10 `popcnt`, R190). -/
def popcnt (v : Word) : Nat :=
  ((List.range 16).filter (fun i => v.getLsbD i)).length

/-- Every instruction is conditional: when its condition is false it has been decoded and does nothing else (R102, R103, D16). -/
def State.conditional (s : State) (cc : Cond) (operation : State) : Host.Outcome State Fault Refusal :=
  .next (if condHolds cc s.flags then operation else s.finish)

/-- `x[rd] <- r`, then the flags `f` if `write_flags`, then the end of the instruction (R130). -/
def State.complete (s : State) (cc : Cond) (rd : Reg) (r : Word) (f : Flags) : State :=
  ((s.setReg rd r).setFlagsIf (s.writesFlags cc) f).finish

/-- As `State.complete`, for an instruction with a second result for `Rd^1`, the register whose number is that of `Rd` with bit 0 inverted (R133, R146). -/
def State.completePair (s : State) (cc : Cond) (rd : Reg) (r r' : Word) (f : Flags) : State :=
  (((s.setReg rd r).setReg (rd ^^^ 1) r').setFlagsIf (s.writesFlags cc) f).finish

/-- The end of an instruction that writes flags and no register (R144, R182). -/
def State.completeFlags (s : State) (cc : Cond) (f : Flags) : State :=
  (s.setFlagsIf (s.writesFlags cc) f).finish

end Sys2Proof.Machine
end

