-- ==== Sys2Proof/Machine/Alu.lean ====
section
/-!
DEFINITION. The arithmetic, logic, shift, move and compare instructions, opcodes 00 to 0D (`40_alu.md` R130 to R147).
-/
namespace Sys2Proof.Machine

/-- The 32-bit unsigned product of two registers' values (R133). -/
def mulUnsigned (vx vy : Word) : BitVec 32 :=
  BitVec.ofNat 32 (vx.toNat * vy.toNat)

/-- The 32-bit signed product of two registers' values (R134). -/
def mulSigned (vx vy : Word) : BitVec 32 :=
  BitVec.ofInt 32 (vx.toInt * vy.toInt)

/-- The signed quotient, rounded as `DVS_ROUNDING` says (R136, D9). -/
def divSigned (rounding : DvsRounding) (vx vy : Word) : Int :=
  match rounding with
  | .trunc => vx.toInt.tdiv vy.toInt
  | .floor => vx.toInt.fdiv vy.toInt

/-- The signed remainder, `s(vx) - q * s(vy)` (R136). -/
def remSigned (rounding : DvsRounding) (vx vy : Word) : Int :=
  vx.toInt - divSigned rounding vx vy * vy.toInt

/-- The end of `MLU` and `MLS`: the low half of the product to `Rd`, the high half to `Rd^1`, `ZSP` from the low half (R133, R134, D7). -/
def State.completeProduct (s : State) (cc : Cond) (rx : Reg) (p : BitVec 32) : State :=
  s.completePair cc (s.dest rx) (p.extractLsb' 0 16) (p.extractLsb' 16 16) (s.flags.setZsp (p.extractLsb' 0 16))

/-- The end of `DVU` and `DVS`: the quotient to `Rd`, the remainder to `Rd^1`, `ZSP` from the quotient (R135, R136, D7). -/
def State.completeQuotient (s : State) (cc : Cond) (rx : Reg) (q m : Word) : State :=
  s.completePair cc (s.dest rx) q m (s.flags.setZsp q)

/-- `ADD Rx, Vy`: `Rd := Rx + Vy`, flags `ZSPCV` (R131). -/
def execAdd (cc : Cond) (rx : Reg) (vy : Vy) (s : State) : Host.Outcome State Fault Refusal :=
  s.conditional cc (s.complete cc (s.dest rx) (s.reg rx + s.vy vy) (s.flags.setAdd (s.reg rx) (s.vy vy)))

/-- `SUB Rx, Vy`: `Rd := Rx - Vy`, flags `ZSPCV` (R132). -/
def execSub (cc : Cond) (rx : Reg) (vy : Vy) (s : State) : Host.Outcome State Fault Refusal :=
  s.conditional cc (s.complete cc (s.dest rx) (s.reg rx - s.vy vy) (s.flags.setSub (s.reg rx) (s.vy vy)))

/-- `MLU Rx, Vy`: `Rd^1:Rd := Rx * Vy`, unsigned, flags `ZSP` (R133). -/
def execMlu (cc : Cond) (rx : Reg) (vy : Vy) (s : State) : Host.Outcome State Fault Refusal :=
  s.conditional cc (s.completeProduct cc rx (mulUnsigned (s.reg rx) (s.vy vy)))

/-- `MLS Rx, Vy`: `Rd^1:Rd := Rx * Vy`, signed, flags `ZSP` (R134). -/
def execMls (cc : Cond) (rx : Reg) (vy : Vy) (s : State) : Host.Outcome State Fault Refusal :=
  s.conditional cc (s.completeProduct cc rx (mulSigned (s.reg rx) (s.vy vy)))

/-- `DVU Rx, Vy`: `Rd, Rd^1 := Rx // Vy, Rx % Vy`, unsigned, flags `ZSP`; a zero divisor halts with nothing written (R135, D8). -/
def execDvu (cc : Cond) (rx : Reg) (vy : Vy) (s : State) : Host.Outcome State Fault Refusal :=
  s.conditional cc
    (if s.vy vy = 0 then s.halt .arithmetic
     else s.completeQuotient cc rx (s.reg rx / s.vy vy) (s.reg rx % s.vy vy))

/-- `DVS Rx, Vy`: `Rd, Rd^1 := Rx // Vy, Rx % Vy`, signed, flags `ZSP`; a zero divisor and -32768 / -1 halt with nothing written (R136, D8). -/
def execDvs (cc : Cond) (rx : Reg) (vy : Vy) (s : State) : Host.Outcome State Fault Refusal :=
  s.conditional cc
    (if s.vy vy = 0 then s.halt .arithmetic
     else if s.reg rx = 0x8000 ∧ s.vy vy = 0xFFFF then s.halt .arithmetic
     else s.completeQuotient cc rx
       (BitVec.ofInt 16 (divSigned s.config.dvsRounding (s.reg rx) (s.vy vy)))
       (BitVec.ofInt 16 (remSigned s.config.dvsRounding (s.reg rx) (s.vy vy))))

/-- `XOR Rx, Vy`: `Rd := Rx ^ Vy`, flags `ZSP` (R137). -/
def execXor (cc : Cond) (rx : Reg) (vy : Vy) (s : State) : Host.Outcome State Fault Refusal :=
  s.conditional cc (s.complete cc (s.dest rx) (s.reg rx ^^^ s.vy vy) (s.flags.setZsp (s.reg rx ^^^ s.vy vy)))

/-- `AND Rx, Vy`: `Rd := Rx & Vy`, flags `ZSP` (R138). -/
def execAnd (cc : Cond) (rx : Reg) (vy : Vy) (s : State) : Host.Outcome State Fault Refusal :=
  s.conditional cc (s.complete cc (s.dest rx) (s.reg rx &&& s.vy vy) (s.flags.setZsp (s.reg rx &&& s.vy vy)))

/-- `ORR Rx, Vy`: `Rd := Rx | Vy`, flags `ZSP` (R139). -/
def execOrr (cc : Cond) (rx : Reg) (vy : Vy) (s : State) : Host.Outcome State Fault Refusal :=
  s.conditional cc (s.complete cc (s.dest rx) (s.reg rx ||| s.vy vy) (s.flags.setZsp (s.reg rx ||| s.vy vy)))

/-- `SHL Rx, Vy`: `Rd := Rx << Vy`, the whole `Vy` being the count, flags `ZSP` (R140, D10). -/
def execShl (cc : Cond) (rx : Reg) (vy : Vy) (s : State) : Host.Outcome State Fault Refusal :=
  s.conditional cc (s.complete cc (s.dest rx) (s.reg rx <<< (s.vy vy).toNat) (s.flags.setZsp (s.reg rx <<< (s.vy vy).toNat)))

/-- `SRU Rx, Vy`: `Rd := Rx >> Vy`, unsigned, flags `ZSPC` (R141, D10, D11). -/
def execSru (cc : Cond) (rx : Reg) (vy : Vy) (s : State) : Host.Outcome State Fault Refusal :=
  s.conditional cc (s.complete cc (s.dest rx) (s.reg rx >>> (s.vy vy).toNat) (s.flags.setZspc (s.reg rx >>> (s.vy vy).toNat) (sruCarry (s.reg rx) (s.vy vy).toNat)))

/-- `SRS Rx, Vy`: `Rd := Rx >> Vy`, `Rx` signed, the count unsigned, flags `ZSPC` (R142, D10, D11). -/
def execSrs (cc : Cond) (rx : Reg) (vy : Vy) (s : State) : Host.Outcome State Fault Refusal :=
  s.conditional cc (s.complete cc (s.dest rx) ((s.reg rx).sshiftRight (s.vy vy).toNat) (s.flags.setZspc ((s.reg rx).sshiftRight (s.vy vy).toNat) (srsCarry (s.reg rx) (s.vy vy).toNat)))

/-- `MOV Rx, Vy`: `Rd := Vy`, flags `ZSP` (R143, C8). -/
def execMov (cc : Cond) (rx : Reg) (vy : Vy) (s : State) : Host.Outcome State Fault Refusal :=
  s.conditional cc (s.complete cc (s.dest rx) (s.vy vy) (s.flags.setZsp (s.vy vy)))

/-- `CMP Rx, Vy`: the flags of `Rx - Vy`, no register written (R144). -/
def execCmp (cc : Cond) (rx : Reg) (vy : Vy) (s : State) : Host.Outcome State Fault Refusal :=
  s.conditional cc (s.completeFlags cc (s.flags.setSub (s.reg rx) (s.vy vy)))

end Sys2Proof.Machine
end

