-- ==== Sys2Proof/Machine/Control.lean ====
section
/-!
DEFINITION. The control transfer instructions, opcodes 14 to 17 (`42_control_transfer.md` R170 to R178).
-/
namespace Sys2Proof.Machine

/-- `DPC <- delta`, then `PC <- target` (R171). -/
def State.branch (s : State) (delta target : Word) : State :=
  (s.setReg Reg.dpc delta).setReg Reg.pc target

/-- `RD <- DPC`, then `RA <-` the address of the next instruction (R173, R174). -/
def State.link (s : State) : State :=
  (s.setReg Reg.rd s.dpc).setReg Reg.ra s.pc

/-- `BRA Rx, Vy`: `DPC <- Rx`, then `PC <- Vy`, both operands read first (R171). -/
def execBra (cc : Cond) (rx : Reg) (vy : Vy) (s : State) : Host.Outcome State Fault Refusal :=
  s.conditional cc (s.branch (s.reg rx) (s.vy vy)).finish

/-- `BRR Imm16`: `PC <- PC + Imm16`, `PC` being the address of the next instruction (R172). -/
def execBrr (cc : Cond) (imm : Word) (s : State) : Host.Outcome State Fault Refusal :=
  s.conditional cc (s.setReg Reg.pc (s.pc + imm)).finish

/-- `FCA Rx, Vy`: `RD <- DPC`, `RA <-` next `PC`, then as `BRA`, all operands read first (R173, D17). -/
def execFca (cc : Cond) (rx : Reg) (vy : Vy) (s : State) : Host.Outcome State Fault Refusal :=
  s.conditional cc (s.link.branch (s.reg rx) (s.vy vy)).finish

/-- `FCR Imm16`: `RD <- DPC`, `RA <-` next `PC`, then as `BRR` (R174). -/
def execFcr (cc : Cond) (imm : Word) (s : State) : Host.Outcome State Fault Refusal :=
  s.conditional cc (s.link.setReg Reg.pc (s.pc + imm)).finish

end Sys2Proof.Machine
end

