-- ==== Sys2Proof/Machine/LoadStore.lean ====
section
/-!
DEFINITION. The load and store instructions, opcodes 10 to 13 (`41_load_store.md` R160 to R166).
-/
namespace Sys2Proof.Machine

/-- `LDW Rx, [Vy]`: the word at `Vy` to `Rd`, flags `ZSP` (R161, C8). -/
def execLdw (cc : Cond) (rx : Reg) (vy : Vy) (s : State) : Host.Outcome State Fault Refusal :=
  s.conditional cc
    (State.runData (wordOps .loadByte (s.vy vy) ++ [.finishLoad (s.dest rx) (s.writesFlags cc)]) [] s)

/-- `STW [Rx], Vy`: the word `Vy` to the address `Rx`, no register and no flag (R162). -/
def execStw (cc : Cond) (rx : Reg) (vy : Vy) (s : State) : Host.Outcome State Fault Refusal :=
  s.conditional cc
    (State.runData
      [.storeByte (s.reg rx) (firstByte s.config.byteOrder (s.vy vy)),
       .storeByte (s.reg rx + 1) (secondByte s.config.byteOrder (s.vy vy))] [] s)

/-- `LDB Rx, [Vy]`: the byte at `Vy`, zero-extended, to `Rd`, flags `ZSP` (R163, D3, C8). -/
def execLdb (cc : Cond) (rx : Reg) (vy : Vy) (s : State) : Host.Outcome State Fault Refusal :=
  s.conditional cc
    (State.runData [.loadByte (s.vy vy), .finishLoad (s.dest rx) (s.writesFlags cc)] [] s)

/-- `STB [Rx], V8`: the byte `V8` to the address `Rx`, no register and no flag (R164). -/
def execStb (cc : Cond) (rx : Reg) (v8 : V8) (s : State) : Host.Outcome State Fault Refusal :=
  s.conditional cc (State.runData [.storeByte (s.reg rx) (s.v8 v8)] [] s)

end Sys2Proof.Machine
end

