-- ==== Sys2Proof/Machine/Misc.lean ====
section
/-!
DEFINITION. Increment, breakpoint, halt and no-op, opcodes 1C to 1F (`45_inc_misc.md` R200 to R206).
-/
namespace Sys2Proof.Machine

/-- `INC Rx, SImm4`: `Rd := Rx + SImm4`, flags `ZSPCV` as those of `ADD` (R201). -/
def execInc (cc : Cond) (rx : Reg) (simm : Int) (s : State) : Host.Outcome State Fault Refusal :=
  s.conditional cc
    (s.complete cc (s.dest rx) (s.reg rx + simm4Word simm) (s.flags.setAdd (s.reg rx) (simm4Word simm)))

/-- `BPT`: `run <- paused` (R202). -/
def execBpt (cc : Cond) (s : State) : Host.Outcome State Fault Refusal :=
  s.conditional cc { s.finish with run := .paused }

/-- `HLT`: `run <- halted(HALT_INSTRUCTION)` (R203). -/
def execHlt (cc : Cond) (s : State) : Host.Outcome State Fault Refusal :=
  s.conditional cc (s.finish.halt .instruction)

/-- `NOP`: nothing (R204). -/
def execNop (cc : Cond) (s : State) : Host.Outcome State Fault Refusal :=
  s.conditional cc s.finish

end Sys2Proof.Machine
end

