-- ==== Sys2Proof/Machine/Port.lean ====
section
/-!
DEFINITION. The port instructions, opcodes 18 and 19 (`43_port_io.md` R180 to R184).
-/
namespace Sys2Proof.Machine

/-- The answer of the port oracle to the next access: the first of `portAnswers`, or the open oracle's own (R180, D22, log 6). -/
def State.portAnswer (s : State) (p : PortNum) (written : Option Byte) : PortAnswer :=
  s.portAnswers.headD (Config.portAnswer s.portLog p written)

/-- Record a port access; the answer it took is used up (R180, log 6). -/
def State.recordPort (s : State) (e : PortEvent) : State :=
  { s with portAnswers := s.portAnswers.tail, portLog := e :: s.portLog }

/-- What `RDB` writes to `Rd`: the byte read, zero-extended; after a failure a free value (R181, D3, D29). -/
def State.readWord (s : State) (answer : PortAnswer) : Word :=
  if answer.ok then answer.byte.setWidth 16 else Config.failedReadWord s.draws

/-- The flags `RDB` computes: `ZSP` from the byte read and `CF` 0; after a failure `CF` 1 and free values for the three others (R181, D29). -/
def State.readFlags (s : State) (answer : PortAnswer) : Flags where
  zf := if answer.ok then (answer.byte.setWidth 16 : Word) == 0 else Config.failedReadZf s.draws
  sf := if answer.ok then (answer.byte.setWidth 16 : Word).msb else Config.failedReadSf s.draws
  pf := if answer.ok then parity (answer.byte.setWidth 16) else Config.failedReadPf s.draws
  cf := !answer.ok
  vf := s.flags.vf

/-- The counter of free values goes on by one when a port read has failed (log 7). -/
def State.countDraw (s : State) (answer : PortAnswer) : State :=
  { s with draws := if answer.ok then s.draws else s.draws + 1 }

/-- The end of an `RDB` that was answered `answer` (R181). -/
def State.completeRead (s : State) (cc : Cond) (rx : Reg) (port : PortNum) (answer : PortAnswer) : State :=
  ((s.recordPort (.read port answer)).countDraw answer).complete cc (s.dest rx) (s.readWord answer) (s.readFlags answer)

/-- The end of a `WRB` of the byte `b` that was answered `answer`: `ZSP` from the byte, `CF` 1 on failure (R182, D29). -/
def State.completeWrite (s : State) (cc : Cond) (port : PortNum) (b : Byte) (answer : PortAnswer) : State :=
  (s.recordPort (.write port b answer)).completeFlags cc (s.flags.setZspc (b.setWidth 16) (!answer.ok))

/-- `RDB Rx, (Imm4)`: a byte from the port to `Rd`, `CF` 1 on read failure, flags `ZSPC` (R181, C8). -/
def execRdb (cc : Cond) (rx : Reg) (port : PortNum) (s : State) : Host.Outcome State Fault Refusal :=
  s.conditional cc (s.completeRead cc rx port (s.portAnswer port none))

/-- `WRB (Imm4), V8`: the byte `V8` to the port, `CF` 1 on write failure, flags `ZSPC`, no register (R182). -/
def execWrb (cc : Cond) (port : PortNum) (v8 : V8) (s : State) : Host.Outcome State Fault Refusal :=
  s.conditional cc (s.completeWrite cc port (s.v8 v8) (s.portAnswer port (some (s.v8 v8))))

end Sys2Proof.Machine
end

