-- ==== Sys2Proof/Machine/Prefix.lean ====
section
/-!
DEFINITION. The prefixes `XC`, `TF`, `DR` (`46_prefixes.md` R210 to R216) and the reserved encodings (`30_encoding.md` R107, R108).
-/
namespace Sys2Proof.Machine

/-- Prefix `XC`: the next byte is the opcode byte and its condition is its field plus 8 (R211, R93). -/
def execXc (s : State) : Host.Outcome State Fault Refusal :=
  .next { s with decode := { s.decode with xc := true } }

/-- Prefix `TF`: toggles whether the instruction writes `FLAGS` (R212). -/
def execTf (s : State) : Host.Outcome State Fault Refusal :=
  .next { s with decode := { s.decode with tf := !s.decode.tf } }

/-- Prefix `DR`: the number of `Rd`; the last one counts (R213, D14). -/
def execDr (rd : Reg) (s : State) : Host.Outcome State Fault Refusal :=
  .next { s with decode := { s.decode with rd := some rd } }

/-- A reserved encoding halts at decode; nothing but `run` changes after the advance of `PC` (R107, R108, R250, D15). -/
def State.haltDecode (s : State) : Host.Outcome State Fault Refusal :=
  .next (s.halt .decode)

/-- Reserved opcode `0E`: halts before the condition is tested (R107, R263). -/
def execReserved0E (_cc : Cond) (s : State) : Host.Outcome State Fault Refusal :=
  s.haltDecode

/-- Reserved opcode `0F`: halts before the condition is tested (R107, R263). -/
def execReserved0F (_cc : Cond) (s : State) : Host.Outcome State Fault Refusal :=
  s.haltDecode

/-- Reserved prefix `C2` (R108). -/
def execReservedPrefixC2 (s : State) : Host.Outcome State Fault Refusal :=
  s.haltDecode

/-- Reserved prefix `C3` (R108). -/
def execReservedPrefixC3 (s : State) : Host.Outcome State Fault Refusal :=
  s.haltDecode

/-- Reserved prefix `C4` (R108). -/
def execReservedPrefixC4 (s : State) : Host.Outcome State Fault Refusal :=
  s.haltDecode

/-- Reserved prefix `C5` (R108). -/
def execReservedPrefixC5 (s : State) : Host.Outcome State Fault Refusal :=
  s.haltDecode

/-- Reserved prefix `C6` (R108). -/
def execReservedPrefixC6 (s : State) : Host.Outcome State Fault Refusal :=
  s.haltDecode

/-- Reserved prefix `C7` (R108). -/
def execReservedPrefixC7 (s : State) : Host.Outcome State Fault Refusal :=
  s.haltDecode

/-- Reserved prefix `C8` (R108). -/
def execReservedPrefixC8 (s : State) : Host.Outcome State Fault Refusal :=
  s.haltDecode

/-- Reserved prefix `C9` (R108). -/
def execReservedPrefixC9 (s : State) : Host.Outcome State Fault Refusal :=
  s.haltDecode

/-- Reserved prefix `CA` (R108). -/
def execReservedPrefixCA (s : State) : Host.Outcome State Fault Refusal :=
  s.haltDecode

/-- Reserved prefix `CB` (R108). -/
def execReservedPrefixCB (s : State) : Host.Outcome State Fault Refusal :=
  s.haltDecode

/-- Reserved prefix `CC` (R108). -/
def execReservedPrefixCC (s : State) : Host.Outcome State Fault Refusal :=
  s.haltDecode

/-- Reserved prefix `CD` (R108). -/
def execReservedPrefixCD (s : State) : Host.Outcome State Fault Refusal :=
  s.haltDecode

/-- Reserved prefix `CE` (R108). -/
def execReservedPrefixCE (s : State) : Host.Outcome State Fault Refusal :=
  s.haltDecode

/-- Reserved prefix `CF` (R108). -/
def execReservedPrefixCF (s : State) : Host.Outcome State Fault Refusal :=
  s.haltDecode

end Sys2Proof.Machine
end

