-- ==== Sys2Proof/Machine/Stack.lean ====
section
/-!
DEFINITION. Push and pop of register sets, opcodes 1A and 1B (`44_stack.md` R190 to R197).
-/
namespace Sys2Proof.Machine

/-- The bytes that a register set takes in memory, as a register value: `2 * popcnt(Regs16)` (R190, C3). -/
def setBytes (regs : Word) : Word :=
  BitVec.ofNat 16 (2 * popcnt regs)

/-- The stores of `PSH` from address `a` upward: each register is read when its word is reached (R192, D12, D13). -/
def pushOps (a : Word) (rs : List Reg) : List DataOp :=
  match rs with
  | [] => []
  | r :: rest => .latchReg r :: wordOps .storeLatch a ++ pushOps (a + 2) rest

/-- The loads of `POP` from address `a` upward: each register is written when its word has been read (R193, D12, D13). -/
def popOps (a : Word) (rs : List Reg) : List DataOp :=
  match rs with
  | [] => []
  | r :: rest => wordOps .loadByte a ++ .setReg r :: popOps (a + 2) rest

/-- `PSH` after its condition test: the pointer first, then the stores at the updated pointer (R192). -/
def State.push (s : State) (rd : Reg) (regs : Word) : State :=
  let t := s.setReg rd (s.reg rd - setBytes regs)
  State.runData (pushOps (t.reg rd) (regList regs)) [] t

/-- `POP` after its condition test: the loads at the pointer, then the pointer (R193). -/
def State.pull (s : State) (rd : Reg) (regs : Word) : State :=
  State.runData (popOps (s.reg rd) (regList regs) ++ [.addReg rd (setBytes regs)]) [] s

/-- `PSH {Regs16}`: push the set at `Rd` (default `SP`), no flags (R191, R192). -/
def execPsh (cc : Cond) (regs : Word) (s : State) : Host.Outcome State Fault Refusal :=
  s.conditional cc (s.push (s.dest Reg.sp) regs)

/-- `POP {Regs16}`: pop the set from `Rd` (default `SP`), no flags (R191, R193). -/
def execPop (cc : Cond) (regs : Word) (s : State) : Host.Outcome State Fault Refusal :=
  s.conditional cc (s.pull (s.dest Reg.sp) regs)

end Sys2Proof.Machine
end

