-- ==== Sys2Proof/Machine/Fetch.lean ====
section
/-!
DEFINITION. Instruction fetch and decode, the recognition of the return of a fault handler and what follows it (`30_encoding.md` R102, `60_exceptions.md` R253, R257 to R261), and the placing of a code byte for the loader (R302).
-/
namespace Sys2Proof.Machine

/-- What a step has before it can run an instruction. -/
inductive Ready where
  /-- The instruction `i` has been decoded and is to be run at `s`. -/
  | run (i : Instr) (s : State)
  /-- The step ends at `s`: a fetch was stopped, or a suspended instruction has gone on or has been abandoned. -/
  | done (s : State)
deriving DecidableEq, Repr

/-- Fetch code bytes until the bytes `got` so far and those that follow are an instruction, or a fetch is stopped (R26, R62, R102, R253); at most `fuel` further bytes. -/
def State.fetchFrom (fuel : Nat) (got : List Byte) (s : State) : Ready :=
  match Sys2Proof.decode s.config.byteOrder s.decode.xc got with
  | .instr i => .run i s
  | .more =>
    match fuel with
    | 0 => .done s
    | n + 1 =>
      match s.fetchByte with
      | .error t => .done (s.takeTrap t (.fetch got))
      | .ok b => State.fetchFrom n (got ++ [b]) s.advancePc

/-- Continue a fetch whose next byte is to be read at the physical address `pa` that the handler returned; then `pc` advances and decode goes on (R253, R259). -/
def State.continueFetch (s : State) (pa : Word) (got : List Byte) : Ready :=
  match s.readAt pa with
  | .error t => .done (s.takeTrap t (.fetch got))
  | .ok b => State.fetchFrom maxUnitBytes (got ++ [b]) s.advancePc

/-- The CPU recognises the return of the handler: the exception context is active and `pc` is `EXC_RETURN_ADDR` at an instruction boundary (R257). -/
def State.atHandlerReturn (s : State) : Bool :=
  s.active == .exception && s.pc == s.config.excReturnAddr && s.decode.insnPc.isNone

/-- The return of the handler of the suspended instruction `u`: it is abandoned if the handler marked it complete, and goes on at the returned physical address otherwise (R258 to R261). -/
def State.endHandler (s : State) (u : Suspended) : Ready :=
  if s.handlerCompleted u then .done (s.returnFromHandler u).finish
  else
    match u.work with
    | .fetch got => (s.returnFromHandler u).continueFetch (s.exception.reg 2) got
    | .data op rest latch => .done ((s.returnFromHandler u).continueData (s.exception.reg 2) op rest latch)

/-- The instruction that a running machine runs next: after the return of a handler what the suspended instruction needs, else the decode of the bytes at `pc` (R102, R257). -/
def State.ready (s : State) : Ready :=
  match s.atHandlerReturn, s.suspended with
  | true, some u => s.endHandler u
  | _, _ => State.fetchFrom maxUnitBytes [] s.beginInstr

/-- Make the page of the code address `va` executable: its page table entry names a page for execute, and the allocation table allows that page (R302). -/
def State.mapCode (s : State) (va : Word) : State :=
  let entry := tteAddr va + accessCode .execute
  let s := if s.mmuEnabled && s.rawRead entry == 0 then
      s.rawWrite entry (if pageOf va = 0 then 2 else pageOf va)
    else s
  match s.translate va .execute with
  | none => s
  | some pa => s.rawWrite (0x0100 + (pageOf pa).setWidth 16) (s.allocFlags pa ||| 4)

/-- Store the byte `b` where the code byte at `va` is fetched, its page being mapped. -/
def State.placeCode (s : State) (va : Word) (b : Byte) : State :=
  match (s.mapCode va).translate va .execute with
  | none => s
  | some pa => (s.mapCode va).rawWrite pa b

/-- Store code bytes at the addresses from which successive code bytes are fetched (R27). -/
def State.placeCodes (s : State) (va : Word) (bs : List Byte) : State :=
  match bs with
  | [] => s
  | b :: rest => (s.placeCode va b).placeCodes (va + 1 + s.dpc) rest

end Sys2Proof.Machine
end

