-- ==== Sys2Proof/Machine/Step.lean ====
section
/-!
DEFINITION. One step of the machine (`00_scope.md` R11, `30_encoding.md` R102), and the placing of one instruction where the next step fetches it.
-/
namespace Sys2Proof.Machine

/-- One step: a machine that is not running has no next state (R42, R202); a running one decodes and runs one instruction or prefix byte, or ends a fault handler (R102, R257). -/
def step (s : State) : Host.Outcome State Fault Refusal :=
  match s.run with
  | .halted reason => .fault (.halted reason)
  | .paused => .fault .paused
  | .running =>
    match s.ready with
    | .run i t => exec i t
    | .done t => .next t

/-- `s` with the instruction whose `nbits` bits are `w` (every further bit 0) where the next step fetches: the machine runs and is at an instruction boundary of its thread, the pages of the code bytes are mapped and allowed, and the bytes stand at `pc`, `1 + dpc` apart (R27, R302, log 14). -/
def State.withFetchWord (s : State) (nbits w : Nat) : State :=
  let t : State := { s with run := .running, decode := DecodeState.empty }
  t.placeCodes t.pc (tableBytes nbits w)

end Sys2Proof.Machine
end

