-- ==== Sys2Proof/Safety.lean ====
section
/-!
DEFINITION. The terms claims are stated in: what an instruction leaves unchanged, what flags say of a result, the bytes an instruction reads, writes and fetches, what a fault handler finds, and the invariant of the machine.
-/
namespace Sys2Proof

/-! ## Classes of instructions -/

/-- The reserved encodings: opcodes `0E` and `0F` and prefix bytes `C2` to `CF` (R107, R108). -/
def Instr.isReserved : Instr → Bool
  | .reserved0E _ | .reserved0F _ | .reservedPrefixC2 | .reservedPrefixC3 | .reservedPrefixC4
  | .reservedPrefixC5 | .reservedPrefixC6 | .reservedPrefixC7 | .reservedPrefixC8 | .reservedPrefixC9
  | .reservedPrefixCA | .reservedPrefixCB | .reservedPrefixCC | .reservedPrefixCD | .reservedPrefixCE
  | .reservedPrefixCF => true
  | .add _ _ _ | .sub _ _ _ | .mlu _ _ _ | .mls _ _ _ | .dvu _ _ _ | .dvs _ _ _
  | .xor _ _ _ | .and _ _ _ | .orr _ _ _ | .shl _ _ _ | .sru _ _ _ | .srs _ _ _
  | .mov _ _ _ | .cmp _ _ _ | .ldw _ _ _ | .stw _ _ _ | .ldb _ _ _ | .stb _ _ _
  | .bra _ _ _ | .brr _ _ | .fca _ _ _ | .fcr _ _ | .rdb _ _ _ | .wrb _ _ _
  | .psh _ _ | .pop _ _ | .inc _ _ _ | .bpt _ | .hlt _ | .nop _ | .xc | .tf | .dr _ => false

/-- The instructions that store to memory (R64). -/
def Instr.stores : Instr → Bool
  | .stw _ _ _ | .stb _ _ _ | .psh _ _ => true
  | .add _ _ _ | .sub _ _ _ | .mlu _ _ _ | .mls _ _ _ | .dvu _ _ _ | .dvs _ _ _
  | .xor _ _ _ | .and _ _ _ | .orr _ _ _ | .shl _ _ _ | .sru _ _ _ | .srs _ _ _
  | .mov _ _ _ | .cmp _ _ _ | .ldw _ _ _ | .ldb _ _ _
  | .bra _ _ _ | .brr _ _ | .fca _ _ _ | .fcr _ _ | .rdb _ _ _ | .wrb _ _ _
  | .pop _ _ | .inc _ _ _ | .bpt _ | .hlt _ | .nop _ | .xc | .tf | .dr _
  | .reserved0E _ | .reserved0F _ | .reservedPrefixC2 | .reservedPrefixC3 | .reservedPrefixC4
  | .reservedPrefixC5 | .reservedPrefixC6 | .reservedPrefixC7 | .reservedPrefixC8 | .reservedPrefixC9
  | .reservedPrefixCA | .reservedPrefixCB | .reservedPrefixCC | .reservedPrefixCD | .reservedPrefixCE
  | .reservedPrefixCF => false

end Sys2Proof

namespace Sys2Proof.Machine

/-! ## Frames -/

/-- The context that does not execute (R40). -/
def State.idle (s : State) : Context :=
  match s.active with
  | .normal => s.exception
  | .exception => s.normal

/-- From `s` to `t` an instruction has completed, and changed no register but those of `written`, no byte of memory but those at the physical addresses `stored`, and none of the rest of the machine but flags and ports. -/
structure CoreFrame (s t : State) (written : List Reg) (stored : List Word) : Prop where
  regs : ∀ r : Reg, r ∉ written → t.reg r = s.reg r
  mem : ∀ a : Nat, (∀ p ∈ stored, a ≠ p.toNat) → t.mem.read a = s.mem.read a
  idle : t.idle = s.idle
  active : t.active = s.active
  mmuEnabled : t.mmuEnabled = s.mmuEnabled
  run : t.run = s.run
  suspended : t.suspended = s.suspended
  config : t.config = s.config
  decode : t.decode = DecodeState.empty

/-- As `CoreFrame`, and the ports are untouched and no free value is drawn. -/
structure Frame (s t : State) (written : List Reg) (stored : List Word) : Prop
    extends CoreFrame s t written stored where
  portAnswers : t.portAnswers = s.portAnswers
  portLog : t.portLog = s.portLog
  draws : t.draws = s.draws

/-- Register `rd` holds the value written to it; `R0` holds 0 whatever was written (R21). -/
def Holds (t : State) (rd : Reg) (v : Word) : Prop :=
  t.reg rd = if rd = 0 then 0 else v

/-! ## Flags -/

/-- What `ZF`, `SF` and `PF` say of a result: it is zero, its high bit is set, an odd number of its bits is set (R29). -/
def ZspSay (f : Flags) (r : Word) : Prop :=
  (f.zf = true ↔ r = 0) ∧ (f.sf = true ↔ r.getLsbD 15 = true) ∧ (f.pf = true ↔ popcnt r % 2 = 1)

/-- A number lies outside -32768 to 32767, so that a signed computation that gives it has overflowed (R29). -/
def OutOfRange (n : Int) : Prop :=
  n < -32768 ∨ 32767 < n

/-- The flags an instruction with the condition `cc` leaves: as `P` says when it writes flags, that is when exactly one of "unconditional" and "toggled by `TF`" holds (R31); as before otherwise. -/
def FlagsAfter (s t : State) (cc : Cond) (P : Flags → Prop) : Prop :=
  if (cc = .al ↔ s.decode.tf = false) then P t.flags else t.flags = s.flags

/-! ## The bytes an instruction reads, writes and fetches -/

/-- The `n` data bytes from `va` upward, or none where one of them cannot be read (R55, R58, R60, R61). -/
def State.loadBytes (s : State) (va : Word) (n : Nat) : Option (List Byte) :=
  match n with
  | 0 => some []
  | k + 1 =>
    match s.translate va .read with
    | none => none
    | some pa => if s.accessible pa then (s.loadBytes (va + 1) k).map (fun bs => s.rawRead pa :: bs) else none

/-- The state after the data bytes `bs` have been written from `va` upward, one after the other, or none where one of them cannot be written (R55, R58, R60, R61). -/
def State.storeBytes (s : State) (va : Word) (bs : List Byte) : Option State :=
  match bs with
  | [] => some s
  | b :: rest =>
    match s.translate va .write with
    | none => none
    | some pa => if s.accessible pa then (s.rawWrite pa b).storeBytes (va + 1) rest else none

/-- The physical addresses that `State.storeBytes` writes, in order. -/
def State.storeTargets (s : State) (va : Word) (bs : List Byte) : List Word :=
  match bs with
  | [] => []
  | b :: rest =>
    match s.translate va .write with
    | none => []
    | some pa => pa :: (s.rawWrite pa b).storeTargets (va + 1) rest

/-- The next `n` code bytes and the state after their fetch, or none where one of them cannot be fetched (R26, R62). -/
def State.fetchBytes (s : State) (n : Nat) : Option (List Byte × State) :=
  match n with
  | 0 => some ([], s)
  | k + 1 =>
    match s.fetchByte with
    | .error _ => none
    | .ok b => (s.advancePc.fetchBytes k).map (fun p => (b :: p.1, p.2))

/-- The two bytes of a word in memory order (R61, D1). -/
def wordBytes (order : ByteOrder) (w : Word) : List Byte :=
  [firstByte order w, secondByte order w]

/-- The bytes of the registers `rs` in memory order, each as it is in `s` (R190, R192). -/
def State.regBytes (s : State) (rs : List Reg) : List Byte :=
  rs.flatMap (fun r => wordBytes s.config.byteOrder (s.reg r))

/-- The words of a list of bytes, two bytes each (R61, R193). -/
def bytesToWords (order : ByteOrder) (bs : List Byte) : List Word :=
  match bs with
  | b0 :: b1 :: rest => wordOfBytes order b0 b1 :: bytesToWords order rest
  | _ => []

/-- The registers `rs` are set to the words `ws`, one after the other (R193). -/
def State.setRegs (s : State) (rs : List Reg) (ws : List Word) : State :=
  (rs.zip ws).foldl (fun t p => t.setReg p.1 p.2) s

/-- `DataAccess i s w va a`: when `i` runs at `s`, one of its data accesses is to the byte at `va` for the access type `a`, and `w` is the machine as the accesses before it leave it: bytes stored, registers popped, the pointer of `PSH` moved (R60, R61, R161 to R164, R192, R193). -/
inductive DataAccess : Instr → State → State → Word → Access → Prop where
  /-- Byte `k` of the word that `LDW` loads. -/
  | ldw {cc : Cond} {rx : Reg} {vy : Vy} {s : State} (k : Nat) (bs : List Byte) :
    k < 2 → s.loadBytes (s.vy vy) k = some bs →
    DataAccess (.ldw cc rx vy) s s (s.vy vy + BitVec.ofNat 16 k) .read
  /-- The byte that `LDB` loads. -/
  | ldb {cc : Cond} {rx : Reg} {vy : Vy} {s : State} : DataAccess (.ldb cc rx vy) s s (s.vy vy) .read
  /-- Byte `k` of the word that `STW` stores. -/
  | stw {cc : Cond} {rx : Reg} {vy : Vy} {s w : State} (k : Nat) :
    k < 2 → s.storeBytes (s.reg rx) ((wordBytes s.config.byteOrder (s.vy vy)).take k) = some w →
    DataAccess (.stw cc rx vy) s w (s.reg rx + BitVec.ofNat 16 k) .write
  /-- The byte that `STB` stores. -/
  | stb {cc : Cond} {rx : Reg} {v8 : V8} {s : State} : DataAccess (.stb cc rx v8) s s (s.reg rx) .write
  /-- Byte `k` of the words that `PSH` stores; `s1` is the machine with the pointer moved. -/
  | psh {cc : Cond} {regs : Word} {s s1 w : State} (k : Nat) :
    s1 = s.setReg (s.dest Reg.sp) (s.reg (s.dest Reg.sp) - BitVec.ofNat 16 (2 * popcnt regs)) →
    k < 2 * popcnt regs →
    s1.storeBytes (s1.reg (s.dest Reg.sp)) ((s1.regBytes (regList regs)).take k) = some w →
    DataAccess (.psh cc regs) s w (s1.reg (s.dest Reg.sp) + BitVec.ofNat 16 k) .write
  /-- Byte `k` of the words that `POP` loads; the registers whose words are complete have been written. -/
  | pop {cc : Cond} {regs : Word} {s : State} (k : Nat) (bs : List Byte) :
    k < 2 * popcnt regs → s.loadBytes (s.reg (s.dest Reg.sp)) k = some bs →
    DataAccess (.pop cc regs) s (s.setRegs (regList regs) (bytesToWords s.config.byteOrder bs))
      (s.reg (s.dest Reg.sp) + BitVec.ofNat 16 k) .read

/-! ## Page faults -/

/-- The address of the first byte of the instruction in progress, prefixes included (R102, R253). -/
def State.instrStart (s : State) : Word :=
  s.decode.insnPc.getD s.pc

/-- A running machine `s`, not at the return of a handler, has fetched the bytes `got` of an instruction, of which no proper beginning is an instruction, and is at `u` (R102). -/
structure Fetched (s u : State) (got : List Byte) : Prop where
  run : s.run = .running
  notReturn : ¬ (s.active = .exception ∧ s.pc = s.config.excReturnAddr ∧ s.decode.insnPc = none)
  bytes : s.beginInstr.fetchBytes got.length = some (got, u)
  beginnings : ∀ m, m < got.length → Sys2Proof.decode s.config.byteOrder s.decode.xc (got.take m) = .more

/-- The machine `s` is about to end the handler of the suspended instruction `u` (R257). -/
structure AtReturn (s : State) (u : Suspended) : Prop where
  run : s.run = .running
  active : s.active = .exception
  pc : s.pc = s.config.excReturnAddr
  boundary : s.decode.insnPc = none
  suspended : s.suspended = some u

/-- The handler of `u` has not marked its instruction complete (R258). -/
def NotCompleted (s : State) (u : Suspended) : Prop :=
  s.savedReg 0 = 0 ∧ s.savedReg Reg.pc = u.insnPc

/-- `a` is an address of the 32-byte saved registers area (R255). -/
def InSavedArea (config : Config) (a : Nat) : Prop :=
  ∃ k : Nat, k < 32 ∧ a = (config.excSavedRegs + BitVec.ofNat 16 k).toNat

/-- `a` is an address of the exception thread's stack, the 0xA00 bytes below `EXC_STACK_TOP` (R5, R256); nothing keeps a handler inside it (U35). -/
def InExcStack (config : Config) (a : Nat) : Prop :=
  ∃ k : Nat, 1 ≤ k ∧ k ≤ excStackSize ∧ a = (config.excStackTop - BitVec.ofNat 16 k).toNat

/-- From `s` to `t` the CPU has entered the handler of a page fault on `va` for the access type `a` (R254, R255, R256). -/
structure HandlerEntered (s t : State) (va : Word) (a : Access) : Prop where
  active : t.active = .exception
  mmuEnabled : t.mmuEnabled = false
  run : t.run = s.run
  normal : t.normal = s.normal
  decode : t.decode = DecodeState.empty
  tte : t.reg 2 = 0xFC00 + 4 * (va.extractLsb' 8 8).setWidth 16
  faultAddress : t.reg 3 = va
  accessType : t.reg 4 = accessCode a
  savedRegs : t.reg 5 = s.config.excSavedRegs
  nextPc : t.reg 6 = s.pc
  stack : t.reg Reg.sp = s.config.excStackTop
  returnAddress : t.reg Reg.ra = s.config.excReturnAddr
  entryPoint : t.pc = (s.handlerPage va).setWidth 16 <<< 8
  rest : ∀ r ∈ ([1, 7, 8, 9, 10, Reg.rd, Reg.dpc] : List Reg), t.reg r = 0
  flags : t.flags = Flags.clear
  saved : ∀ r : Reg, t.savedReg r = if r = Reg.pc then s.instrStart else s.reg r
  mem : ∀ b : Nat, ¬ InSavedArea s.config b → t.mem.read b = s.mem.read b
  suspended : ∃ u, t.suspended = some u ∧ u.insnPc = s.instrStart ∧ u.livePc = s.pc ∧ u.va = va ∧ u.access = a
  config : t.config = s.config
  portAnswers : t.portAnswers = s.portAnswers
  portLog : t.portLog = s.portLog
  draws : t.draws = s.draws

/-- `o` is what happens at `w` if the byte at `va` is to be accessed for `a` and cannot be: the entry of the handler of its page, or a halt with nothing but the run state changed (R58, R250, R252). Nothing is said of an access that can be made. -/
structure StopsAt (w : State) (va : Word) (a : Access) (o : Host.Outcome State Fault Refusal) : Prop where
  handler : w.translate va a = none → w.handlerPage va ≠ 0 → ∃ t, o = .next t ∧ HandlerEntered w t va a
  unmapped : w.translate va a = none → w.handlerPage va = 0 → o = .next { w with run := .halted .unmapped }
  denied : ∀ pa, w.translate va a = some pa → w.accessible pa = false → o = .next { w with run := .halted .doubleFault }

/-- From `s` to `t` the CPU has returned from the handler of the suspended instruction `u` to the normal thread (R258). -/
structure HandlerLeft (s t : State) (u : Suspended) : Prop where
  active : t.active = .normal
  mmuEnabled : t.mmuEnabled = true
  suspended : t.suspended = none
  zero : t.reg 0 = 0
  regs : ∀ r : Reg, r ≠ 0 → r ≠ Reg.pc → t.reg r = s.savedReg r
  pc : t.pc = if s.savedReg Reg.pc = u.insnPc then u.livePc else s.savedReg Reg.pc
  flags : t.flags = s.normal.flags
  run : t.run = s.run
  mem : t.mem = s.mem
  config : t.config = s.config
  portAnswers : t.portAnswers = s.portAnswers
  portLog : t.portLog = s.portLog
  draws : t.draws = s.draws

/-- The load that was interrupted in the handler's thread of `s` ends: from `v`, where the handler has returned to, the outcome `o` is a next state with the word `r` in `rd`, `ZSP` from it if the load writes flags, and nothing else changed (R161, R163, R259). -/
def LoadEnds (s v : State) (o : Host.Outcome State Fault Refusal) (rd : Reg) (writeFlags : Bool) (r : Word) : Prop :=
  ∃ t, o = .next t ∧ Frame v t [rd] [] ∧ Holds t rd r ∧
    (if writeFlags = true then ZspSay t.flags r ∧ t.flags.cf = s.normal.flags.cf ∧ t.flags.vf = s.normal.flags.vf
      else t.flags = s.normal.flags)

/-! ## The invariant of the machine -/

/-- What holds of every state the machine reaches: memory is canonical, slot 0 of each register file is 0, no instruction is suspended exactly when the normal thread runs, the MMU is enabled exactly then if it was at the start and never if it was not (no page fault can then be raised), prefixes are remembered only inside an instruction, a suspended instruction is one in progress whose live `PC` is that of its thread, and the exception context is clean while it is not used. -/
structure State.Inv (s : State) : Prop where
  mem : s.mem.wf = true
  normalZero : s.normal.regs.get 0 = 0
  exceptionZero : s.exception.regs.get 0 = 0
  mmu : s.mmuEnabled = true ↔ s.active = .normal ∧ s.config.mmuAtStart = true
  handled : s.active = .exception → s.config.mmuAtStart = true
  suspendedIff : s.suspended = none ↔ s.active = .normal
  boundary : s.decode.insnPc = none → s.decode = DecodeState.empty
  inFlight : ∀ u, s.suspended = some u → u.decode.insnPc = some u.insnPc ∧ u.livePc = s.normal.reg Reg.pc
  discarded : s.active = .normal → s.exception = Context.clean

/-- The machine has stopped because of an error: an unmapped page, an inaccessible page, a reserved encoding or a division error (R250). -/
def State.failed (s : State) : Prop :=
  s.run = .halted .unmapped ∨ s.run = .halted .doubleFault ∨ s.run = .halted .decode ∨ s.run = .halted .arithmetic

end Sys2Proof.Machine
end

