-- ==== Sys2Proof/Certificates/Slice0/Obligations.lean ====
section
/-!
DEFINITION. The statements for the provers, from the numbered rules of spec/. `Frame`, `Holds`, `ZspSay`, `FlagsAfter`, `HandlerEntered` and the other terms are in Sys2Proof/Safety.lean.
-/
section Slice0

open Sys2Proof Sys2Proof.Machine

/-! ## Encoding -/

/-- Decoding an encoded well-formed instruction gives it back, whatever bytes follow (R91 to R101, R106 to R108). -/
def Obligations.DecodeOfEncode : Prop :=
  ∀ (order : ByteOrder) (i : Instr) (rest : List Byte), i.wf = true →
    decode order i.extended (encode order i ++ rest) = .instr i

/-- Whatever the decoder reads is a well-formed instruction of the condition group its prefix state asks for, and the bytes it read are exactly the encoding of it: no bit of a code byte is without meaning (R91 to R101, R109). -/
def Obligations.EncodeOfDecode : Prop :=
  ∀ (order : ByteOrder) (xc : Bool) (bs : List Byte) (i : Instr), decode order xc bs = .instr i →
    i.wf = true ∧ i.extended = xc ∧ ∃ rest, bs = encode order i ++ rest

/-- The decoder is total: after four bytes it always has an instruction (R102, R105, R109). -/
def Obligations.DecoderTotal : Prop :=
  ∀ (order : ByteOrder) (xc : Bool) (bs : List Byte), 4 ≤ bs.length → ∃ i, decode order xc bs = .instr i

/-- The reserved encodings are exactly the prefix bytes `C2` to `CF`, and the opcode bytes, those after `XC` included, whose opcode is `0E` or `0F`; one byte decides (R107, R108, R109). -/
def Obligations.ReservedEncodings : Prop :=
  ∀ (order : ByteOrder) (xc : Bool) (b : Byte) (rest : List Byte),
    (∃ i, decode order xc (b :: rest) = .instr i ∧ i.isReserved = true) ↔
      if xc = false ∧ b.toNat / 32 = 6 then 0xC2 ≤ b.toNat ∧ b.toNat ≤ 0xCF
      else b.toNat % 32 = 0x0E ∨ b.toNat % 32 = 0x0F

/-- Words written out from the encoding tables of the spec decode to the instructions they stand for, one for each format and prefix (the examples of R131, R143, R161, R164, R172, R181, R182, R192, R201, R203, R211, R212, R213 and R93). -/
def Obligations.SampleWords : Prop :=
  decode .little false [0xE0, 0x23] = .instr (.add .al 2 (.reg 3)) ∧
  decode .little false [0xEC, 0x2F, 0x34, 0x12] = .instr (.mov .al 2 (.imm 0x1234)) ∧
  decode .little false [0xF0, 0x23] = .instr (.ldw .al 2 (.reg 3)) ∧
  decode .little false [0xF3, 0x2F, 0x41] = .instr (.stb .al 2 (.imm 0x41)) ∧
  decode .little false [0x35, 0xF9, 0xFF] = .instr (.brr .ne 0xFFF9) ∧
  decode .little false [0xF8, 0x20] = .instr (.rdb .al 2 0) ∧
  decode .little false [0xF9, 0x3F, 0x00] = .instr (.wrb .al 3 (.imm 0)) ∧
  decode .little false [0xFA, 0x0C, 0x00] = .instr (.psh .al 0x000C) ∧
  decode .little false [0xFC, 0x3F] = .instr (.inc .al 3 (-1)) ∧
  decode .little false [0xFC, 0x27] = .instr (.inc .al 2 8) ∧
  decode .little false [0xFE] = .instr (.hlt .al) ∧
  decode .little false [0xC0] = .instr .xc ∧
  decode .little false [0xC1] = .instr .tf ∧
  decode .little false [0xD4] = .instr (.dr 4) ∧
  decode .little true [0xC0, 0x23] = .instr (.add .od 2 (.reg 3))

/-! ## Conditions and flags -/

/-- The table of conditions (R32). -/
def Obligations.ConditionTable : Prop :=
  ∀ f : Flags,
    (condHolds .eq f = true ↔ f.zf = true) ∧
    (condHolds .ne f = true ↔ f.zf = false) ∧
    (condHolds .gt f = true ↔ f.cf = true ∧ f.zf = false) ∧
    (condHolds .le f = true ↔ f.cf = false ∨ f.zf = true) ∧
    (condHolds .lt f = true ↔ f.cf = false) ∧
    (condHolds .ge f = true ↔ f.cf = true) ∧
    condHolds .al f = true ∧
    (condHolds .ng f = true ↔ f.sf = true) ∧
    (condHolds .ps f = true ↔ f.sf = false) ∧
    (condHolds .bg f = true ↔ f.zf = false ∧ f.sf = f.vf) ∧
    (condHolds .se f = true ↔ f.zf = true ∨ f.sf ≠ f.vf) ∧
    (condHolds .sm f = true ↔ f.sf ≠ f.vf) ∧
    (condHolds .be f = true ↔ f.sf = f.vf) ∧
    (condHolds .od f = true ↔ f.pf = true) ∧
    (condHolds .ev f = true ↔ f.pf = false)

/-- An instruction whose `write_flags` is false, that is a conditional one without an effective `TF` or an unconditional one with it, leaves all five flags of the running thread as they were, unless it leaves that thread for a fault handler (R31). -/
def Obligations.FlagsKept : Prop :=
  ∀ (i : Instr) (cc : Cond) (s t : State), s.Inv → i.cond? = some cc → (cc = .al ↔ s.decode.tf = true) →
    exec i s = .next t → t.active = s.active → t.flags = s.flags

/-- An instruction whose condition is false changes nothing: every register, flag, byte, port and the run state stay, and the prefixes are forgotten (R103). The reserved opcodes halt before the condition is tested (R107) and are not among these. -/
def Obligations.FalseCondition : Prop :=
  ∀ (i : Instr) (cc : Cond) (s : State), i.cond? = some cc → i.isReserved = false →
    condHolds cc s.flags = false → exec i s = .next { s with decode := DecodeState.empty }

/-! ## Arithmetic, logic, shifts, moves -/

/-- `ADD` (R131): the sum modulo 2^16 to `Rd`; `CF` the carry out of bit 15, `VF` signed overflow; nothing else changes. -/
def Obligations.AddResult : Prop :=
  ∀ (cc : Cond) (rx : Reg) (vy : Vy) (s : State), condHolds cc s.flags = true →
    ∃ t, exec (.add cc rx vy) s = .next t ∧ Frame s t [s.dest rx] [] ∧
      Holds t (s.dest rx) (s.reg rx + s.vy vy) ∧
      FlagsAfter s t cc (fun f => ZspSay f (s.reg rx + s.vy vy) ∧
        (f.cf = true ↔ 65536 ≤ (s.reg rx).toNat + (s.vy vy).toNat) ∧
        (f.vf = true ↔ OutOfRange ((s.reg rx).toInt + (s.vy vy).toInt)))

/-- `SUB` (R132): the difference modulo 2^16 to `Rd`; `CF` says that there is no borrow, `VF` signed overflow; nothing else changes. -/
def Obligations.SubResult : Prop :=
  ∀ (cc : Cond) (rx : Reg) (vy : Vy) (s : State), condHolds cc s.flags = true →
    ∃ t, exec (.sub cc rx vy) s = .next t ∧ Frame s t [s.dest rx] [] ∧
      Holds t (s.dest rx) (s.reg rx - s.vy vy) ∧
      FlagsAfter s t cc (fun f => ZspSay f (s.reg rx - s.vy vy) ∧
        (f.cf = true ↔ (s.vy vy).toNat ≤ (s.reg rx).toNat) ∧
        (f.vf = true ↔ OutOfRange ((s.reg rx).toInt - (s.vy vy).toInt)))

/-- `INC` (R201): `Rx` plus the small number to `Rd`; the flags are those of the addition: for a positive number `CF` is the carry, for a negative one it says that there is no borrow; nothing else changes. -/
def Obligations.IncResult : Prop :=
  ∀ (cc : Cond) (rx : Reg) (simm : Int) (s : State), simm4Wf simm = true → condHolds cc s.flags = true →
    ∃ t, exec (.inc cc rx simm) s = .next t ∧ Frame s t [s.dest rx] [] ∧
      Holds t (s.dest rx) (BitVec.ofInt 16 ((s.reg rx).toInt + simm)) ∧
      FlagsAfter s t cc (fun f => ZspSay f (BitVec.ofInt 16 ((s.reg rx).toInt + simm)) ∧
        (f.cf = true ↔ if 0 < simm then 65536 ≤ ((s.reg rx).toNat : Int) + simm
          else -simm ≤ ((s.reg rx).toNat : Int)) ∧
        (f.vf = true ↔ OutOfRange ((s.reg rx).toInt + simm)))

/-- `CMP` (R144): no register is written; the flags are those of the difference. -/
def Obligations.CmpResult : Prop :=
  ∀ (cc : Cond) (rx : Reg) (vy : Vy) (s : State), condHolds cc s.flags = true →
    ∃ t, exec (.cmp cc rx vy) s = .next t ∧ Frame s t [] [] ∧
      FlagsAfter s t cc (fun f => ZspSay f (s.reg rx - s.vy vy) ∧
        (f.cf = true ↔ (s.vy vy).toNat ≤ (s.reg rx).toNat) ∧
        (f.vf = true ↔ OutOfRange ((s.reg rx).toInt - (s.vy vy).toInt)))

/-- After an executed `CMP` that wrote its flags the conditions are the comparisons they are named for (R144, R32). -/
def Obligations.CompareThenCondition : Prop :=
  ∀ (cc : Cond) (rx : Reg) (vy : Vy) (s : State), condHolds cc s.flags = true →
    (cc = .al ↔ s.decode.tf = false) →
    ∃ t, exec (.cmp cc rx vy) s = .next t ∧
      (condHolds .eq t.flags = true ↔ s.reg rx = s.vy vy) ∧
      (condHolds .ne t.flags = true ↔ s.reg rx ≠ s.vy vy) ∧
      (condHolds .gt t.flags = true ↔ (s.vy vy).toNat < (s.reg rx).toNat) ∧
      (condHolds .le t.flags = true ↔ (s.reg rx).toNat ≤ (s.vy vy).toNat) ∧
      (condHolds .lt t.flags = true ↔ (s.reg rx).toNat < (s.vy vy).toNat) ∧
      (condHolds .ge t.flags = true ↔ (s.vy vy).toNat ≤ (s.reg rx).toNat) ∧
      (condHolds .ng t.flags = true ↔ (s.reg rx - s.vy vy).getLsbD 15 = true) ∧
      (condHolds .ps t.flags = true ↔ (s.reg rx - s.vy vy).getLsbD 15 = false) ∧
      (condHolds .bg t.flags = true ↔ (s.vy vy).toInt < (s.reg rx).toInt) ∧
      (condHolds .se t.flags = true ↔ (s.reg rx).toInt ≤ (s.vy vy).toInt) ∧
      (condHolds .sm t.flags = true ↔ (s.reg rx).toInt < (s.vy vy).toInt) ∧
      (condHolds .be t.flags = true ↔ (s.vy vy).toInt ≤ (s.reg rx).toInt) ∧
      (condHolds .od t.flags = true ↔ popcnt (s.reg rx - s.vy vy) % 2 = 1) ∧
      (condHolds .ev t.flags = true ↔ popcnt (s.reg rx - s.vy vy) % 2 = 0)

/-- `MLU` (R133, decision D7 for the flags): the 32-bit unsigned product, its low half to `Rd`, its high half to `Rd^1`, `ZSP` from the low half; nothing else changes. -/
def Obligations.MluResult : Prop :=
  ∀ (cc : Cond) (rx : Reg) (vy : Vy) (s : State), condHolds cc s.flags = true →
    ∃ t, exec (.mlu cc rx vy) s = .next t ∧ Frame s t [s.dest rx, s.dest rx ^^^ 1] [] ∧
      Holds t (s.dest rx) (BitVec.ofNat 16 ((s.reg rx).toNat * (s.vy vy).toNat)) ∧
      Holds t (s.dest rx ^^^ 1) (BitVec.ofNat 16 ((s.reg rx).toNat * (s.vy vy).toNat / 65536)) ∧
      FlagsAfter s t cc (fun f => ZspSay f (BitVec.ofNat 16 ((s.reg rx).toNat * (s.vy vy).toNat)) ∧
        f.cf = s.flags.cf ∧ f.vf = s.flags.vf)

/-- `MLS` (R134, decision D7 for the flags): the 32-bit signed product, its low half to `Rd`, its high half to `Rd^1`, `ZSP` from the low half; nothing else changes. -/
def Obligations.MlsResult : Prop :=
  ∀ (cc : Cond) (rx : Reg) (vy : Vy) (s : State), condHolds cc s.flags = true →
    ∃ t, exec (.mls cc rx vy) s = .next t ∧ Frame s t [s.dest rx, s.dest rx ^^^ 1] [] ∧
      Holds t (s.dest rx) (BitVec.ofInt 16 ((s.reg rx).toInt * (s.vy vy).toInt)) ∧
      Holds t (s.dest rx ^^^ 1) (BitVec.ofInt 16 ((s.reg rx).toInt * (s.vy vy).toInt / 65536)) ∧
      FlagsAfter s t cc (fun f => ZspSay f (BitVec.ofInt 16 ((s.reg rx).toInt * (s.vy vy).toInt)) ∧
        f.cf = s.flags.cf ∧ f.vf = s.flags.vf)

/-- `DVU` by a nonzero divisor (R135, decision D7 for the flags): the quotient to `Rd`, the remainder to `Rd^1`, `ZSP` from the quotient; nothing else changes. -/
def Obligations.DvuResult : Prop :=
  ∀ (cc : Cond) (rx : Reg) (vy : Vy) (s : State), condHolds cc s.flags = true → s.vy vy ≠ 0 →
    ∃ t, exec (.dvu cc rx vy) s = .next t ∧ Frame s t [s.dest rx, s.dest rx ^^^ 1] [] ∧
      Holds t (s.dest rx) (BitVec.ofNat 16 ((s.reg rx).toNat / (s.vy vy).toNat)) ∧
      Holds t (s.dest rx ^^^ 1) (BitVec.ofNat 16 ((s.reg rx).toNat % (s.vy vy).toNat)) ∧
      FlagsAfter s t cc (fun f => ZspSay f (BitVec.ofNat 16 ((s.reg rx).toNat / (s.vy vy).toNat)) ∧
        f.cf = s.flags.cf ∧ f.vf = s.flags.vf)

/-- `DVS` that does not halt (R136, decisions D7 and D9): a quotient to `Rd` and a remainder to `Rd^1` that together are the dividend, the remainder smaller than the divisor and, when it is not zero, with the sign of the dividend (`DVS_ROUNDING` = trunc) or of the divisor (floor); `ZSP` from the quotient; nothing else changes. -/
def Obligations.DvsResult : Prop :=
  ∀ (cc : Cond) (rx : Reg) (vy : Vy) (s : State), condHolds cc s.flags = true → s.vy vy ≠ 0 →
    ¬ (s.reg rx = 0x8000 ∧ s.vy vy = 0xFFFF) →
    ∃ (t : State) (q m : Int), exec (.dvs cc rx vy) s = .next t ∧
      (s.reg rx).toInt = q * (s.vy vy).toInt + m ∧ m.natAbs < (s.vy vy).toInt.natAbs ∧
      (m = 0 ∨ (0 < m ↔ match s.config.dvsRounding with
        | .trunc => 0 < (s.reg rx).toInt
        | .floor => 0 < (s.vy vy).toInt)) ∧
      Frame s t [s.dest rx, s.dest rx ^^^ 1] [] ∧
      Holds t (s.dest rx) (BitVec.ofInt 16 q) ∧ Holds t (s.dest rx ^^^ 1) (BitVec.ofInt 16 m) ∧
      FlagsAfter s t cc (fun f => ZspSay f (BitVec.ofInt 16 q) ∧ f.cf = s.flags.cf ∧ f.vf = s.flags.vf)

/-- A division by zero, and the signed division of -32768 by -1, halt with nothing but the run state changed (R135, R136, R250: decision D8). -/
def Obligations.DivisionHalts : Prop :=
  ∀ (cc : Cond) (rx : Reg) (vy : Vy) (s : State), condHolds cc s.flags = true →
    (s.vy vy = 0 →
      exec (.dvu cc rx vy) s = .next { s with run := .halted .arithmetic } ∧
      exec (.dvs cc rx vy) s = .next { s with run := .halted .arithmetic }) ∧
    (s.reg rx = 0x8000 → s.vy vy = 0xFFFF →
      exec (.dvs cc rx vy) s = .next { s with run := .halted .arithmetic })

/-- `XOR`, `AND`, `ORR` (R137, R138, R139): each bit of `Rd` from the bits of the operands, `ZSP` from the result; nothing else changes. -/
def Obligations.BitwiseResults : Prop :=
  ∀ (cc : Cond) (rx : Reg) (vy : Vy) (s : State), condHolds cc s.flags = true →
    (∃ (t : State) (r : Word), exec (.xor cc rx vy) s = .next t ∧
      (∀ i, r.getLsbD i = ((s.reg rx).getLsbD i != (s.vy vy).getLsbD i)) ∧
      Frame s t [s.dest rx] [] ∧ Holds t (s.dest rx) r ∧
      FlagsAfter s t cc (fun f => ZspSay f r ∧ f.cf = s.flags.cf ∧ f.vf = s.flags.vf)) ∧
    (∃ (t : State) (r : Word), exec (.and cc rx vy) s = .next t ∧
      (∀ i, r.getLsbD i = ((s.reg rx).getLsbD i && (s.vy vy).getLsbD i)) ∧
      Frame s t [s.dest rx] [] ∧ Holds t (s.dest rx) r ∧
      FlagsAfter s t cc (fun f => ZspSay f r ∧ f.cf = s.flags.cf ∧ f.vf = s.flags.vf)) ∧
    (∃ (t : State) (r : Word), exec (.orr cc rx vy) s = .next t ∧
      (∀ i, r.getLsbD i = ((s.reg rx).getLsbD i || (s.vy vy).getLsbD i)) ∧
      Frame s t [s.dest rx] [] ∧ Holds t (s.dest rx) r ∧
      FlagsAfter s t cc (fun f => ZspSay f r ∧ f.cf = s.flags.cf ∧ f.vf = s.flags.vf))

/-- `SHL` (R140, decision D10): the product with the power of two, 0 for a count of 16 or more; `ZSP`, neither `CF` nor `VF`; nothing else changes. -/
def Obligations.ShlResult : Prop :=
  ∀ (cc : Cond) (rx : Reg) (vy : Vy) (s : State), condHolds cc s.flags = true →
    ∃ (t : State) (r : Word), exec (.shl cc rx vy) s = .next t ∧
      r = (if (s.vy vy).toNat < 16 then BitVec.ofNat 16 ((s.reg rx).toNat * 2 ^ (s.vy vy).toNat) else 0) ∧
      Frame s t [s.dest rx] [] ∧ Holds t (s.dest rx) r ∧
      FlagsAfter s t cc (fun f => ZspSay f r ∧ f.cf = s.flags.cf ∧ f.vf = s.flags.vf)

/-- `SRU` (R141, decisions D10 and D11): the unsigned quotient by the power of two, 0 for a count of 16 or more; `CF` the last bit shifted out; `VF` stays; nothing else changes. -/
def Obligations.SruResult : Prop :=
  ∀ (cc : Cond) (rx : Reg) (vy : Vy) (s : State), condHolds cc s.flags = true →
    ∃ (t : State) (r : Word), exec (.sru cc rx vy) s = .next t ∧
      r = (if (s.vy vy).toNat < 16 then BitVec.ofNat 16 ((s.reg rx).toNat / 2 ^ (s.vy vy).toNat) else 0) ∧
      Frame s t [s.dest rx] [] ∧ Holds t (s.dest rx) r ∧
      FlagsAfter s t cc (fun f => ZspSay f r ∧
        (f.cf = true ↔ 1 ≤ (s.vy vy).toNat ∧ (s.vy vy).toNat ≤ 16 ∧
          (s.reg rx).getLsbD ((s.vy vy).toNat - 1) = true) ∧
        f.vf = s.flags.vf)

/-- `SRS` (R142, decisions D10 and D11): the signed quotient by the power of two, rounded down, any count above 16 acting as 16; `CF` the last bit shifted out, the sign for large counts; `VF` stays; nothing else changes. -/
def Obligations.SrsResult : Prop :=
  ∀ (cc : Cond) (rx : Reg) (vy : Vy) (s : State), condHolds cc s.flags = true →
    ∃ (t : State) (r : Word), exec (.srs cc rx vy) s = .next t ∧
      r = BitVec.ofInt 16 ((s.reg rx).toInt / 2 ^ min (s.vy vy).toNat 16) ∧
      Frame s t [s.dest rx] [] ∧ Holds t (s.dest rx) r ∧
      FlagsAfter s t cc (fun f => ZspSay f r ∧
        (f.cf = true ↔ (s.vy vy).toNat ≠ 0 ∧ (s.reg rx).getLsbD (min (s.vy vy).toNat 16 - 1) = true) ∧
        f.vf = s.flags.vf)

/-- `MOV` (R143, decision D5 for `DR`): the operand to `Rd`, `ZSP` from it; nothing else changes. -/
def Obligations.MovResult : Prop :=
  ∀ (cc : Cond) (rx : Reg) (vy : Vy) (s : State), condHolds cc s.flags = true →
    ∃ t, exec (.mov cc rx vy) s = .next t ∧ Frame s t [s.dest rx] [] ∧ Holds t (s.dest rx) (s.vy vy) ∧
      FlagsAfter s t cc (fun f => ZspSay f (s.vy vy) ∧ f.cf = s.flags.cf ∧ f.vf = s.flags.vf)

/-! ## Loads and stores -/

/-- `LDW` whose two bytes can be read (R161, R61; decisions D1, D2 and D5): the word to `Rd`, `ZSP` from it; memory and everything else stay. -/
def Obligations.LdwResult : Prop :=
  ∀ (cc : Cond) (rx : Reg) (vy : Vy) (s : State) (b0 b1 : Byte), condHolds cc s.flags = true →
    s.loadBytes (s.vy vy) 2 = some [b0, b1] →
    ∃ t, exec (.ldw cc rx vy) s = .next t ∧ Frame s t [s.dest rx] [] ∧
      Holds t (s.dest rx) (wordOfBytes s.config.byteOrder b0 b1) ∧
      FlagsAfter s t cc (fun f => ZspSay f (wordOfBytes s.config.byteOrder b0 b1) ∧
        f.cf = s.flags.cf ∧ f.vf = s.flags.vf)

/-- `LDB` whose byte can be read (R163; decisions D3 and D5): the byte, zero-extended, to `Rd`, `ZSP` from it; memory and everything else stay. -/
def Obligations.LdbResult : Prop :=
  ∀ (cc : Cond) (rx : Reg) (vy : Vy) (s : State) (pa : Word), condHolds cc s.flags = true →
    s.translate (s.vy vy) .read = some pa → s.accessible pa = true →
    ∃ t, exec (.ldb cc rx vy) s = .next t ∧ Frame s t [s.dest rx] [] ∧
      Holds t (s.dest rx) ((s.rawRead pa).setWidth 16) ∧
      FlagsAfter s t cc (fun f => ZspSay f ((s.rawRead pa).setWidth 16) ∧
        f.cf = s.flags.cf ∧ f.vf = s.flags.vf)

/-- `STW` whose two bytes can be written (R162, R61; decisions D1 and D2): the bytes of the operand at `Rx` and `Rx + 1` in this order, each at its own translation; every byte outside those two, every register and every flag stay. -/
def Obligations.StwResult : Prop :=
  ∀ (cc : Cond) (rx : Reg) (vy : Vy) (s u : State), condHolds cc s.flags = true →
    s.storeBytes (s.reg rx) (wordBytes s.config.byteOrder (s.vy vy)) = some u →
    ∃ t, exec (.stw cc rx vy) s = .next t ∧
      Frame s t [] (s.storeTargets (s.reg rx) (wordBytes s.config.byteOrder (s.vy vy))) ∧
      (∀ a, t.mem.read a = u.mem.read a) ∧ t.flags = s.flags

/-- `STB` whose byte can be written (R164; decision D4): the operand byte at the translation of `Rx`; every other byte, every register and every flag stay. -/
def Obligations.StbResult : Prop :=
  ∀ (cc : Cond) (rx : Reg) (v8 : V8) (s : State) (pa : Word), condHolds cc s.flags = true →
    s.translate (s.reg rx) .write = some pa → s.accessible pa = true →
    ∃ t, exec (.stb cc rx v8) s = .next t ∧ Frame s t [] [pa] ∧ t.rawRead pa = s.v8 v8 ∧ t.flags = s.flags

/-- Translation and the accessibility check (R55, R56, R58; decision D18). With the MMU enabled the page number byte at `0xFC00 + 4 * va[15:8] + prot` decides: 0 gives no address, any other gives its page with the offset of `va`, so physical page 0 is never the target. With the MMU disabled an address is its own. Bit 2 of the allocation table byte of a physical page makes it accessible. -/
def Obligations.TranslationRule : Prop :=
  (∀ (s : State) (va : Word) (a : Access), s.mmuEnabled = true →
    (s.translate va a = none ↔
      s.mem.read (0xFC00 + 4 * (va.toNat / 256) + (accessCode a).toNat) = 0) ∧
    ∀ pa, s.translate va a = some pa →
      pa.toNat / 256 = (s.mem.read (0xFC00 + 4 * (va.toNat / 256) + (accessCode a).toNat)).toNat ∧
      pa.toNat % 256 = va.toNat % 256 ∧ pa.toNat / 256 ≠ 0) ∧
  (∀ (s : State) (va : Word) (a : Access), s.mmuEnabled = false → s.translate va a = some va) ∧
  (∀ (s : State) (pa : Word), s.config.physCheck = .always →
    (s.accessible pa = true ↔ (s.mem.read (0x0100 + pa.toNat / 256)).getLsbD 2 = true))

/-! ## Control transfer -/

/-- `BRA` (R171): `DPC` takes `Rx` and `PC` takes the operand, both read first; nothing else changes. -/
def Obligations.BraResult : Prop :=
  ∀ (cc : Cond) (rx : Reg) (vy : Vy) (s : State), condHolds cc s.flags = true →
    ∃ t, exec (.bra cc rx vy) s = .next t ∧ Frame s t [Reg.dpc, Reg.pc] [] ∧ t.flags = s.flags ∧
      t.dpc = s.reg rx ∧ t.pc = s.vy vy

/-- `BRR` (R172): `PC` moves by the immediate from the address of the next instruction; nothing else changes. -/
def Obligations.BrrResult : Prop :=
  ∀ (cc : Cond) (imm : Word) (s : State), condHolds cc s.flags = true →
    ∃ t, exec (.brr cc imm) s = .next t ∧ Frame s t [Reg.pc] [] ∧ t.flags = s.flags ∧
      t.pc = BitVec.ofNat 16 (s.pc.toNat + imm.toNat)

/-- `FCA` (R173, decision D17): `RD` takes `DPC`, `RA` the address of the next instruction, then as `BRA`, all operands read first; nothing else changes. -/
def Obligations.FcaResult : Prop :=
  ∀ (cc : Cond) (rx : Reg) (vy : Vy) (s : State), condHolds cc s.flags = true →
    ∃ t, exec (.fca cc rx vy) s = .next t ∧ Frame s t [Reg.rd, Reg.ra, Reg.dpc, Reg.pc] [] ∧ t.flags = s.flags ∧
      t.reg Reg.rd = s.dpc ∧ t.reg Reg.ra = s.pc ∧ t.dpc = s.reg rx ∧ t.pc = s.vy vy

/-- `FCR` (R174): `RD` takes `DPC`, `RA` the address of the next instruction, then as `BRR`; nothing else changes. -/
def Obligations.FcrResult : Prop :=
  ∀ (cc : Cond) (imm : Word) (s : State), condHolds cc s.flags = true →
    ∃ t, exec (.fcr cc imm) s = .next t ∧ Frame s t [Reg.rd, Reg.ra, Reg.pc] [] ∧ t.flags = s.flags ∧
      t.reg Reg.rd = s.dpc ∧ t.reg Reg.ra = s.pc ∧ t.pc = BitVec.ofNat 16 (s.pc.toNat + imm.toNat)

/-! ## Ports -/

/-- `RDB` that the port answers with a byte (R181; decisions D3, D5, D22 and the port oracle of log 6): the byte, zero-extended, to `Rd`, `ZSP` from it, `CF` 0; the access is recorded, and nothing else changes. -/
def Obligations.RdbSuccess : Prop :=
  ∀ (cc : Cond) (rx : Reg) (port : PortNum) (s : State), condHolds cc s.flags = true →
    (s.portAnswer port none).ok = true →
    ∃ t, exec (.rdb cc rx port) s = .next t ∧ CoreFrame s t [s.dest rx] [] ∧
      Holds t (s.dest rx) ((s.portAnswer port none).byte.setWidth 16) ∧
      FlagsAfter s t cc (fun f => ZspSay f ((s.portAnswer port none).byte.setWidth 16) ∧
        f.cf = false ∧ f.vf = s.flags.vf) ∧
      t.portLog = .read port (s.portAnswer port none) :: s.portLog ∧
      t.portAnswers = s.portAnswers.tail ∧ t.draws = s.draws

/-- `RDB` that fails (R181; decisions D22 and D29; the port oracle of log 6 and the free values of log 7 are the model's): when flags are written `CF` is 1, and nothing is stated of what `Rd`, `ZF`, `SF` and `PF` then hold; when they are not, all five flags stay, which is the model's deduction from R31 (log 8); the access is recorded, and nothing else changes. -/
def Obligations.RdbFailure : Prop :=
  ∀ (cc : Cond) (rx : Reg) (port : PortNum) (s : State), condHolds cc s.flags = true →
    (s.portAnswer port none).ok = false →
    ∃ t, exec (.rdb cc rx port) s = .next t ∧ CoreFrame s t [s.dest rx] [] ∧
      FlagsAfter s t cc (fun f => f.cf = true ∧ f.vf = s.flags.vf) ∧
      t.portLog = .read port (s.portAnswer port none) :: s.portLog ∧
      t.portAnswers = s.portAnswers.tail ∧ t.draws = s.draws + 1

/-- `WRB` (R182; decisions D4, D22, D29 and the port oracle of log 6): the operand byte goes to the port, `ZSP` from the byte, `CF` 1 exactly on failure; no register and no byte of memory changes. -/
def Obligations.WrbResult : Prop :=
  ∀ (cc : Cond) (port : PortNum) (v8 : V8) (s : State), condHolds cc s.flags = true →
    ∃ t, exec (.wrb cc port v8) s = .next t ∧ CoreFrame s t [] [] ∧
      FlagsAfter s t cc (fun f => ZspSay f ((s.v8 v8).setWidth 16) ∧
        (f.cf = true ↔ (s.portAnswer port (some (s.v8 v8))).ok = false) ∧ f.vf = s.flags.vf) ∧
      t.portLog = .write port (s.v8 v8) (s.portAnswer port (some (s.v8 v8))) :: s.portLog ∧
      t.portAnswers = s.portAnswers.tail ∧ t.draws = s.draws

/-! ## Stack -/

/-- `PSH` whose bytes can all be written (R192, R191, R190; decisions D1, D2, D12, D13): the pointer goes down by two bytes a register and then the registers, each as it is after that, stand in ascending number from the new pointer upward; every byte outside those, every other register and every flag stay. -/
def Obligations.PshResult : Prop :=
  ∀ (cc : Cond) (regs : Word) (s s1 u : State), condHolds cc s.flags = true →
    s1 = s.setReg (s.dest Reg.sp) (s.reg (s.dest Reg.sp) - BitVec.ofNat 16 (2 * popcnt regs)) →
    s1.storeBytes (s1.reg (s.dest Reg.sp)) (s1.regBytes (regList regs)) = some u →
    ∃ t, exec (.psh cc regs) s = .next t ∧
      Frame s t [s.dest Reg.sp] (s1.storeTargets (s1.reg (s.dest Reg.sp)) (s1.regBytes (regList regs))) ∧
      Holds t (s.dest Reg.sp) (s.reg (s.dest Reg.sp) - BitVec.ofNat 16 (2 * popcnt regs)) ∧
      (∀ a, t.mem.read a = u.mem.read a) ∧ t.flags = s.flags

/-- `POP` whose bytes can all be read (R193, R191, R190; decisions D1, D2, D12, D13): the registers take the words from the pointer upward in ascending number, and then the pointer register, as it is by then, goes up by two bytes a register; memory, every other register and every flag stay. -/
def Obligations.PopResult : Prop :=
  ∀ (cc : Cond) (regs : Word) (s v : State) (bs : List Byte), condHolds cc s.flags = true →
    s.loadBytes (s.reg (s.dest Reg.sp)) (2 * popcnt regs) = some bs →
    v = s.setRegs (regList regs) (bytesToWords s.config.byteOrder bs) →
    ∃ t, exec (.pop cc regs) s = .next t ∧ Frame s t (s.dest Reg.sp :: regList regs) [] ∧
      Holds t (s.dest Reg.sp) (v.reg (s.dest Reg.sp) + BitVec.ofNat 16 (2 * popcnt regs)) ∧
      (∀ r, r ≠ s.dest Reg.sp → t.reg r = v.reg r) ∧ t.flags = s.flags

/-! ## Breakpoint, halt, no-op, prefixes, reserved encodings -/

/-- `BPT` pauses, `HLT` halts, `NOP` does nothing; apart from that the machine is as it was, the prefixes forgotten (R202, R203, R204; decisions D23 and D26). That `HLT` and `BPT` forget them too is the model's deduction from R44, against R250's words that nothing else changes at a halt (log 19). -/
def Obligations.BptHltNopResults : Prop :=
  ∀ (cc : Cond) (s : State), condHolds cc s.flags = true →
    exec (.bpt cc) s = .next { s with run := .paused, decode := DecodeState.empty } ∧
    exec (.hlt cc) s = .next { s with run := .halted .instruction, decode := DecodeState.empty } ∧
    exec (.nop cc) s = .next { s with decode := DecodeState.empty }

/-- A prefix byte changes the decode state alone: `XC` asks for the conditions 8 to F, `TF` toggles whether flags are written, `DR` names the destination, the last one counting (R211, R212, R213; decision D14; one prefix byte is one step here, log 9). -/
def Obligations.PrefixResults : Prop :=
  ∀ (rd : Reg) (s : State),
    exec .xc s = .next { s with decode := { s.decode with xc := true } } ∧
    exec .tf s = .next { s with decode := { s.decode with tf := !s.decode.tf } } ∧
    exec (.dr rd) s = .next { s with decode := { s.decode with rd := some rd } }

/-- A reserved opcode or prefix byte halts at decode, whatever its condition, and nothing but the run state changes (R107, R108, R250: decision D15). -/
def Obligations.ReservedHalt : Prop :=
  ∀ (i : Instr) (s : State), i.isReserved = true → exec i s = .next { s with run := .halted .decode }

/-! ## Page faults and halts of accesses -/

/-- A load from an address whose page has no read page but has a handler enters that handler (R252, R254, R255, R256; decision D19): `LDW` and `LDB` at their first byte, `LDW` at its second byte with the address of that byte. -/
def Obligations.LoadFault : Prop :=
  ∀ (cc : Cond) (rx : Reg) (vy : Vy) (s : State), condHolds cc s.flags = true →
    (s.translate (s.vy vy) .read = none → s.handlerPage (s.vy vy) ≠ 0 →
      (∃ t, exec (.ldw cc rx vy) s = .next t ∧ HandlerEntered s t (s.vy vy) .read) ∧
      (∃ t, exec (.ldb cc rx vy) s = .next t ∧ HandlerEntered s t (s.vy vy) .read)) ∧
    (∀ pa, s.translate (s.vy vy) .read = some pa → s.accessible pa = true →
      s.translate (s.vy vy + 1) .read = none → s.handlerPage (s.vy vy + 1) ≠ 0 →
      ∃ t, exec (.ldw cc rx vy) s = .next t ∧ HandlerEntered s t (s.vy vy + 1) .read)

/-- A store to an address whose page has no write page but has a handler enters that handler (R252, R254, R255, R256, R61; decisions D19 and D25): `STW` and `STB` at their first byte with nothing stored, `STW` at its second byte with the first byte stored. -/
def Obligations.StoreFault : Prop :=
  ∀ (cc : Cond) (rx : Reg) (vy : Vy) (v8 : V8) (s : State), condHolds cc s.flags = true →
    (s.translate (s.reg rx) .write = none → s.handlerPage (s.reg rx) ≠ 0 →
      (∃ t, exec (.stw cc rx vy) s = .next t ∧ HandlerEntered s t (s.reg rx) .write) ∧
      (∃ t, exec (.stb cc rx v8) s = .next t ∧ HandlerEntered s t (s.reg rx) .write)) ∧
    (∀ (pa : Word) (s1 : State), s.translate (s.reg rx) .write = some pa → s.accessible pa = true →
      s1 = s.rawWrite pa (firstByte s.config.byteOrder (s.vy vy)) →
      s1.translate (s.reg rx + 1) .write = none → s1.handlerPage (s.reg rx + 1) ≠ 0 →
      ∃ t, exec (.stw cc rx vy) s = .next t ∧ HandlerEntered s1 t (s.reg rx + 1) .write)

/-- `PSH` and `POP` with byte `k` of their words in a page without the access but with a handler enter that handler: `PSH` at the state `w` with its pointer moved and the bytes before `k` stored, `POP` at the state `w` with the registers whose words are complete written and its pointer where it was, unless it was one of them (R192, R193, R252, R254, R255, R256; decisions D1, D2, D12, D13, D19 and D25). -/
def Obligations.StackFault : Prop :=
  ∀ (cc : Cond) (regs : Word) (s : State) (k : Nat), condHolds cc s.flags = true → k < 2 * popcnt regs →
    (∀ s1 w : State,
      s1 = s.setReg (s.dest Reg.sp) (s.reg (s.dest Reg.sp) - BitVec.ofNat 16 (2 * popcnt regs)) →
      s1.storeBytes (s1.reg (s.dest Reg.sp)) ((s1.regBytes (regList regs)).take k) = some w →
      w.translate (s1.reg (s.dest Reg.sp) + BitVec.ofNat 16 k) .write = none →
      w.handlerPage (s1.reg (s.dest Reg.sp) + BitVec.ofNat 16 k) ≠ 0 →
      ∃ t, exec (.psh cc regs) s = .next t ∧
        HandlerEntered w t (s1.reg (s.dest Reg.sp) + BitVec.ofNat 16 k) .write) ∧
    (∀ (bs : List Byte) (w : State),
      s.loadBytes (s.reg (s.dest Reg.sp)) k = some bs →
      w = s.setRegs (regList regs) (bytesToWords s.config.byteOrder bs) →
      w.translate (s.reg (s.dest Reg.sp) + BitVec.ofNat 16 k) .read = none →
      w.handlerPage (s.reg (s.dest Reg.sp) + BitVec.ofNat 16 k) ≠ 0 →
      ∃ t, exec (.pop cc regs) s = .next t ∧
        HandlerEntered w t (s.reg (s.dest Reg.sp) + BitVec.ofNat 16 k) .read)

/-- A code byte whose page has no execute page but has a handler enters that handler, at any byte of an instruction; the fault address is the live `PC`, and the saved `PC` is that of the first byte of the instruction, prefixes included (R253, R252, R255, R256; decisions D19 and D31). -/
def Obligations.FetchFault : Prop :=
  ∀ (s u : State) (got : List Byte), Fetched s u got →
    decode s.config.byteOrder s.decode.xc got = .more →
    u.translate u.pc .execute = none → u.handlerPage u.pc ≠ 0 →
    u.instrStart = s.instrStart ∧ ∃ t, step s = .next t ∧ HandlerEntered u t u.pc .execute

/-- An access to a page with neither a page for it nor a handler halts with `HALT_UNMAPPED`, and from there nothing but the run state changes: every byte that a load, a store, `PSH` or `POP` accesses, and every code byte (R252, R250; what is done before the access: decisions D2, D12, D13 and D25). -/
def Obligations.UnmappedHalt : Prop :=
  (∀ (i : Instr) (cc : Cond) (s w : State) (va : Word) (a : Access), i.cond? = some cc →
    condHolds cc s.flags = true → DataAccess i s w va a →
    w.translate va a = none → w.handlerPage va = 0 →
    exec i s = .next { w with run := .halted .unmapped }) ∧
  (∀ (s u : State) (got : List Byte), Fetched s u got →
    decode s.config.byteOrder s.decode.xc got = .more →
    u.translate u.pc .execute = none → u.handlerPage u.pc = 0 →
    step s = .next { u with run := .halted .unmapped })

/-- An access that reaches an inaccessible physical page halts with `HALT_DOUBLEFAULT`, is not performed, and from there nothing but the run state changes: every byte that a load, a store, `PSH` or `POP` accesses, and every code byte (R58, R250: decision D18; what is done before the access: decisions D2, D12, D13 and D25). -/
def Obligations.DoubleFaultHalt : Prop :=
  (∀ (i : Instr) (cc : Cond) (s w : State) (va pa : Word) (a : Access), i.cond? = some cc →
    condHolds cc s.flags = true → DataAccess i s w va a →
    w.translate va a = some pa → w.accessible pa = false →
    exec i s = .next { w with run := .halted .doubleFault }) ∧
  (∀ (s u : State) (got : List Byte) (pa : Word), Fetched s u got →
    decode s.config.byteOrder s.decode.xc got = .more →
    u.translate u.pc .execute = some pa → u.accessible pa = false →
    step s = .next { u with run := .halted .doubleFault })

/-! ## Return from the handler -/

/-- The return of a handler that has marked the instruction complete, by a nonzero `saved_regs[ZERO]` or a modified `saved_regs[PC]`: the normal thread goes on with the registers of the saved area and its own flags, the instruction is abandoned (R258, R260; decision D20). -/
def Obligations.ReturnCompleted : Prop :=
  ∀ (s : State) (u : Suspended), AtReturn s u → ¬ NotCompleted s u →
    ∃ t, step s = .next t ∧ HandlerLeft s t u ∧ t.decode = DecodeState.empty

/-- The return of a handler that has not marked the instruction complete: the byte access that faulted is performed at the physical address in `R2` of the handler, without translation but with the accessibility check, and for this byte alone (R258, R259, R261; decision D20). In turn: every access that is denied; every access that is made, with what remains of its data phase; `LDB`; `LDW` at its first and at its second byte, run to its end, and stopped at its second byte; the last byte of a store; `STW` at its first byte, run to its end and stopped at its second byte. A further access that cannot be made stops as R250, R252 and R254 to R256 say (decisions D18 and D19). That the step which returns also makes the access and runs the instruction on, and the form of the suspended work, are the model's choice (log 10); the zeros in the registers and flags of a handler so entered are the spec's decision D19 and the model's choice (log 20); that under `PHYS_CHECK` = handlerOnly the resumed access is not checked is the model's deduction (log 18). -/
def Obligations.ReturnResumesAccess : Prop :=
  ∀ (s v : State) (u : Suspended), AtReturn s u → NotCompleted s u → v = s.returnFromHandler u →
    HandlerLeft s v u ∧
    (∀ (op : DataOp) (rest : List DataOp) (latch : List Byte) (va : Word) (a : Access),
      u.work = .data op rest latch → op.access? = some (va, a) → v.accessible (s.reg 2) = false →
      step s = .next { v with run := .halted .doubleFault }) ∧
    (v.accessible (s.reg 2) = true →
      (∀ (va : Word) (rest : List DataOp) (latch : List Byte), u.work = .data (.loadByte va) rest latch →
        step s = .next (State.runData rest (latch ++ [s.rawRead (s.reg 2)]) v)) ∧
      (∀ (va : Word) (b : Byte) (rest : List DataOp) (latch : List Byte),
        u.work = .data (.storeByte va b) rest latch →
        step s = .next (State.runData rest latch (v.rawWrite (s.reg 2) b))) ∧
      (∀ (va : Word) (b : Byte) (rest : List DataOp) (latch : List Byte),
        u.work = .data (.storeLatch va) rest (b :: latch) →
        step s = .next (State.runData rest latch (v.rawWrite (s.reg 2) b))) ∧
      (∀ (va : Word) (rd : Reg) (wf : Bool), u.work = .data (.loadByte va) [.finishLoad rd wf] [] →
        LoadEnds s v (step s) rd wf ((s.rawRead (s.reg 2)).setWidth 16)) ∧
      (∀ (va : Word) (rd : Reg) (wf : Bool) (b0 : Byte), u.work = .data (.loadByte va) [.finishLoad rd wf] [b0] →
        LoadEnds s v (step s) rd wf (wordOfBytes s.config.byteOrder b0 (s.rawRead (s.reg 2)))) ∧
      (∀ (va : Word) (rd : Reg) (wf : Bool),
        u.work = .data (.loadByte va) [.loadByte (va + 1), .finishLoad rd wf] [] →
        (∀ b1, v.loadBytes (va + 1) 1 = some [b1] →
          LoadEnds s v (step s) rd wf (wordOfBytes s.config.byteOrder (s.rawRead (s.reg 2)) b1)) ∧
        StopsAt v (va + 1) .read (step s)) ∧
      (∀ (va : Word) (b : Byte), u.work = .data (.storeByte va b) [] [] →
        ∃ t, step s = .next t ∧ Frame v t [] [s.reg 2] ∧ t.rawRead (s.reg 2) = b ∧ t.flags = s.normal.flags) ∧
      (∀ (va : Word) (b b1 : Byte) (x : State), u.work = .data (.storeByte va b) [.storeByte (va + 1) b1] [] →
        x = v.rawWrite (s.reg 2) b →
        (∀ y, x.storeBytes (va + 1) [b1] = some y →
          ∃ t, step s = .next t ∧ Frame v t [] (s.reg 2 :: x.storeTargets (va + 1) [b1]) ∧
            (∀ a, t.mem.read a = y.mem.read a) ∧ t.flags = s.normal.flags) ∧
        StopsAt x (va + 1) .write (step s)))

/-- A `PSH` that was interrupted by a page fault at byte `k` of its words and is resumed by a handler that has not marked it complete: byte `k`, as it was captured, goes to the returned physical address; then come the captured rest of its word and the words of the registers after it, as the handler has left them, each byte at its own translation; the step comes to the end of the instruction, or is stopped at a later byte (R192, R259, R261; decisions D12, D13, D20 and D25; that a word is captured before its first byte is log 12, that one step does all this is log 10). A `POP` that was interrupted by a page fault at byte `k` of its words and is resumed by a handler that has not marked it complete: byte `k` is read at the returned physical address; then come the bytes after it, each at its own translation; the registers from that byte's on take their words, over the registers as the handler has left them, and then the pointer goes up; the step comes to the end of the instruction, or is stopped at a later byte (R193, R259, R261; decisions D12, D13, D20 and D25; that one step does all this is log 10). A further access that cannot be made stops as R250, R252 and R254 to R256 say (decisions D18 and D19); the zeros in the registers and flags of a handler so entered are the spec's decision D19 and the model's choice (log 20); that under `PHYS_CHECK` = handlerOnly the resumed access is not checked is the model's deduction (log 18). -/
def Obligations.ReturnResumesStack : Prop :=
  (∀ (cc : Cond) (regs : Word) (s s1 w t h v x : State) (u : Suspended) (k : Nat) (base : Word)
    (all later : List Byte) (b : Byte),
    condHolds cc s.flags = true →
    s1 = s.setReg (s.dest Reg.sp) (s.reg (s.dest Reg.sp) - BitVec.ofNat 16 (2 * popcnt regs)) →
    base = s1.reg (s.dest Reg.sp) → all = s1.regBytes (regList regs) → all[k]? = some b →
    s1.storeBytes base (all.take k) = some w →
    w.translate (base + BitVec.ofNat 16 k) .write = none → w.handlerPage (base + BitVec.ofNat 16 k) ≠ 0 →
    exec (.psh cc regs) s = .next t → t.suspended = some u →
    AtReturn h u → NotCompleted h u → h.config = s.config → v = h.returnFromHandler u →
    v.accessible (h.reg 2) = true → x = v.rawWrite (h.reg 2) b →
    later = (all.drop (k + 1)).take ((k + 1) % 2) ++ v.regBytes ((regList regs).drop (k / 2 + 1)) →
    (∀ y, x.storeBytes (base + BitVec.ofNat 16 (k + 1)) later = some y →
      ∃ q, step h = .next q ∧
        Frame v q [] (h.reg 2 :: x.storeTargets (base + BitVec.ofNat 16 (k + 1)) later) ∧
        (∀ a, q.mem.read a = y.mem.read a) ∧ q.flags = h.normal.flags) ∧
    (∀ (j : Nat) (y : State), j < later.length →
      x.storeBytes (base + BitVec.ofNat 16 (k + 1)) (later.take j) = some y →
      StopsAt y (base + BitVec.ofNat 16 (k + 1 + j)) .write (step h))) ∧
  (∀ (cc : Cond) (regs : Word) (s w t h v : State) (u : Suspended) (k : Nat) (base : Word)
    (bs held : List Byte) (rs : List Reg),
    condHolds cc s.flags = true → k < 2 * popcnt regs →
    base = s.reg (s.dest Reg.sp) → s.loadBytes base k = some bs →
    w = s.setRegs (regList regs) (bytesToWords s.config.byteOrder bs) →
    w.translate (base + BitVec.ofNat 16 k) .read = none → w.handlerPage (base + BitVec.ofNat 16 k) ≠ 0 →
    exec (.pop cc regs) s = .next t → t.suspended = some u →
    AtReturn h u → NotCompleted h u → h.config = s.config → v = h.returnFromHandler u →
    v.accessible (h.reg 2) = true → held = bs.drop (2 * (k / 2)) ++ [h.rawRead (h.reg 2)] →
    rs = (regList regs).drop (k / 2) →
    (∀ (more : List Byte) (y : State),
      v.loadBytes (base + BitVec.ofNat 16 (k + 1)) (2 * popcnt regs - (k + 1)) = some more →
      y = v.setRegs rs (bytesToWords s.config.byteOrder (held ++ more)) →
      ∃ q, step h = .next q ∧ Frame v q (s.dest Reg.sp :: rs) [] ∧
        Holds q (s.dest Reg.sp) (y.reg (s.dest Reg.sp) + BitVec.ofNat 16 (2 * popcnt regs)) ∧
        (∀ r, r ≠ s.dest Reg.sp → q.reg r = y.reg r) ∧ q.flags = h.normal.flags) ∧
    (∀ (j : Nat) (more : List Byte) (y : State), k + 1 + j < 2 * popcnt regs →
      v.loadBytes (base + BitVec.ofNat 16 (k + 1)) j = some more →
      y = v.setRegs rs (bytesToWords s.config.byteOrder (held ++ more)) →
      StopsAt y (base + BitVec.ofNat 16 (k + 1 + j)) .read (step h)))

/-- The return of a handler of a fetch fault that has not marked the instruction complete: an inaccessible returned address halts; else the code byte is read there, `PC` advances by `1 + DPC` as written back, and any further bytes `more` of the instruction are fetched from there on; when the bytes make up an instruction, it runs; when one cannot be fetched, the step stops there (R253, R259; decision D20). A further byte that cannot be fetched stops as R250, R252 and R254 to R256 say (decisions D18 and D19). That the step which returns also fetches and runs the instruction is the model's choice (log 10); the zeros in the registers and flags of a handler so entered are the spec's decision D19 and the model's choice (log 20); that under `PHYS_CHECK` = handlerOnly the resumed byte is not checked is the model's deduction (log 18). -/
def Obligations.ReturnResumesFetch : Prop :=
  ∀ (s v : State) (u : Suspended) (got : List Byte), AtReturn s u → NotCompleted s u →
    v = s.returnFromHandler u → u.work = .fetch got →
    HandlerLeft s v u ∧
    (v.accessible (s.reg 2) = false → step s = .next { v with run := .halted .doubleFault }) ∧
    (∀ (bs more : List Byte) (x : State), v.accessible (s.reg 2) = true → bs = got ++ [s.rawRead (s.reg 2)] →
      (v.setReg Reg.pc (v.pc + 1 + v.dpc)).fetchBytes more.length = some (more, x) →
      (∀ m, m < more.length → decode s.config.byteOrder u.decode.xc (bs ++ more.take m) = .more) →
      (∀ i, decode s.config.byteOrder u.decode.xc (bs ++ more) = .instr i → step s = exec i x) ∧
      (decode s.config.byteOrder u.decode.xc (bs ++ more) = .more → StopsAt x x.pc .execute (step s)))

/-! ## The step -/

/-- When the bytes at `PC` decode to an instruction, a step is that instruction's execution at the state after their fetch: only `PC` has moved, by `1 + DPC` a byte, and the address of the instruction's first byte is remembered (R102, R25, R26). That a prefix byte counts as an instruction, and is a step of its own, is the model's choice (log 9). -/
def Obligations.StepRunsInstruction : Prop :=
  ∀ (s u : State) (got : List Byte) (i : Instr), Fetched s u got →
    decode s.config.byteOrder s.decode.xc got = .instr i →
    step s = exec i u ∧
    u = { s with decode := { s.decode with insnPc := some s.instrStart } }.setReg Reg.pc
      (s.pc + BitVec.ofNat 16 got.length * (1 + s.dpc))

/-- Successive code bytes are read from `a`, `a + 1 + d`, `a + 2(1 + d)` and so on, with `d` the value of `DPC` (R27, R26, R62). -/
def Obligations.FetchStride : Prop :=
  ∀ (s u : State) (n : Nat) (bs : List Byte), s.fetchBytes n = some (bs, u) →
    bs.length = n ∧ u.pc = s.pc + BitVec.ofNat 16 n * (1 + s.dpc) ∧
    ∀ k, k < n → ∃ pa, s.translate (s.pc + BitVec.ofNat 16 k * (1 + s.dpc)) .execute = some pa ∧
      s.accessible pa = true ∧ bs[k]? = some (s.rawRead pa)

/-- A halted or paused machine takes no step (R42, R250, R202). That `step` then answers a fault is the model's own form (log 11). -/
def Obligations.StoppedMachine : Prop :=
  ∀ s : State,
    (∀ reason, s.run = .halted reason → step s = .fault (.halted reason)) ∧
    (s.run = .paused → step s = .fault .paused)

/-- A running machine always takes a step: no instruction, no fault and no return is without a next state; and no step changes the implementation parameters (R102, R251, R6). -/
def Obligations.RunningMachine : Prop :=
  ∀ s : State, s.run = .running → ∃ t, step s = .next t ∧ t.config = s.config

/-! ## Reset -/

/-- The start of execution (R47; decision D21). With any parameters: `DPC` is 0 and `R0` is 0, the values the source gives; `PC`, the other registers, the MMU and memory are the parameters `RESET_PC`, `RESET_REGS`, `MMU_AT_START` and `INITIAL_MEMORY` (R6); the flags are 0, the normal thread runs and the machine runs (D21); no prefix is remembered. The machine right after reset has the registers and the MMU that the spec decides; the values of `RESET_PC` and `INITIAL_MEMORY` are the model's (logs 1, 3), and so is the rest of the record (logs 2, 5). -/
def Obligations.ResetState : Prop :=
  (∀ config : Config,
    (State.start config).dpc = 0 ∧ (State.start config).reg 0 = 0 ∧
    (State.start config).pc = config.resetPc ∧
    (∀ i : Fin 13, (State.start config).reg (BitVec.ofNat 4 (i.val + 1)) = config.resetRegs.get i) ∧
    (State.start config).mmuEnabled = config.mmuAtStart ∧
    (State.start config).mem = config.initialMemory ∧
    (State.start config).flags = Flags.clear ∧ (State.start config).active = .normal ∧
    (State.start config).run = .running ∧ (State.start config).decode = DecodeState.empty ∧
    (State.start config).suspended = none ∧ (State.start config).config = config) ∧
  (∀ r : Reg, r ≠ Reg.pc → State.reset.reg r = 0) ∧ State.reset.mmuEnabled = true ∧
  State.reset.pc = State.reset.config.resetPc

/-- The invariant holds of the machine right after reset. -/
def Obligations.ResetInv : Prop :=
  State.reset.Inv

/-! ## Invariants of the machine -/

/-- Every step keeps the invariant: memory stays canonical, slot 0 of each register file stays 0, nothing is suspended exactly while the normal thread runs, the MMU is enabled exactly then (never, if `MMU_AT_START` is false), prefixes are remembered only inside an instruction, a suspended instruction is in progress with the live `PC` of its thread, the exception context is clean while it is unused (R21, R41, R43, R44, R50, R254, R258). -/
def Obligations.StepKeepsInv : Prop :=
  ∀ s t : State, s.Inv → step s = .next t → t.Inv

/-- While a handler runs with the MMU disabled no page fault can be raised and the faulting thread cannot be touched: every step that is not its return stays in the exception context with the MMU disabled, leaves the normal context and the suspended instruction as they are, and does not halt with `HALT_UNMAPPED` (R266, R67, R40, R254). -/
def Obligations.HandlerIsolated : Prop :=
  ∀ s t : State, s.active = .exception → s.mmuEnabled = false →
    ¬ (s.pc = s.config.excReturnAddr ∧ s.decode.insnPc = none) → step s = .next t →
    t.active = .exception ∧ t.mmuEnabled = false ∧ t.normal = s.normal ∧ t.suspended = s.suspended ∧
      t.run ≠ .halted .unmapped

/-- The MMU changes only on the entry of a fault handler and on its return (R41, R254, R258). -/
def Obligations.MmuSwitches : Prop :=
  ∀ s t : State, s.Inv → step s = .next t → t.mmuEnabled ≠ s.mmuEnabled →
    (s.active = .normal ∧ t.active = .exception ∧ t.mmuEnabled = false ∧ t.reg Reg.ra = s.config.excReturnAddr ∧
      ∃ u, t.suspended = some u ∧ t.reg 3 = u.va ∧ t.reg 4 = accessCode u.access ∧ t.reg 6 = u.livePc) ∨
    (s.active = .exception ∧ s.pc = s.config.excReturnAddr ∧ s.decode.insnPc = none ∧
      t.active = .normal ∧ t.mmuEnabled = true ∧ t.suspended = none)

/-- No instruction but `STW`, `STB` and `PSH` changes a byte of memory, except that the entry of a fault handler writes the saved registers area; without such an entry all of memory stays (R64, R255). -/
def Obligations.MemoryKept : Prop :=
  ∀ (i : Instr) (s t : State), i.stores = false → exec i s = .next t →
    (∀ a, ¬ InSavedArea s.config a → t.mem.read a = s.mem.read a) ∧
    (s.Inv → t.active = s.active → ∀ a, t.mem.read a = s.mem.read a)

end Slice0
end

