-- ==== Sys2Proof/Laws/Decode.lean ====
section
/-!
SUPPORT. The fields of an encoding, taken apart and put together: the two bytes of a word, the two nybbles of a byte, the opcode byte, the condition, the `SImm4`; and how far the decoder looks.
-/
namespace Sys2Proof

/-! ## Fields of a concatenation -/

theorem extractLsb'_append_low {n m : Nat} (h : BitVec n) (l : BitVec m) : (h ++ l).extractLsb' 0 m = l := by
  ext i hi
  simp [BitVec.getLsbD_append, hi]

theorem extractLsb'_append_high {n m : Nat} (h : BitVec n) (l : BitVec m) : (h ++ l).extractLsb' m n = h := by
  ext i hi
  simp [BitVec.getLsbD_append, hi]

theorem append_extractLsb' {n m : Nat} (w : BitVec (n + m)) : w.extractLsb' m n ++ w.extractLsb' 0 m = w := by
  ext i hi
  simp only [BitVec.getElem_append, BitVec.getElem_extractLsb']
  split
  · simp [BitVec.getLsbD_eq_getElem hi]
  · have : m + (i - m) = i := by omega
    simp [this, BitVec.getLsbD_eq_getElem hi]

/-! ## Words and bytes -/

/-- The word of its own two bytes (R61, R97). -/
@[simp] theorem wordOfBytes_bytes (order : ByteOrder) (w : Word) :
    wordOfBytes order (firstByte order w) (secondByte order w) = w := by
  cases order <;> exact append_extractLsb' (n := 8) (m := 8) w

/-- The first byte of a word made of two bytes (R61, R97). -/
@[simp] theorem firstByte_wordOfBytes (order : ByteOrder) (b0 b1 : Byte) :
    firstByte order (wordOfBytes order b0 b1) = b0 := by
  cases order
  · exact extractLsb'_append_low b1 b0
  · exact extractLsb'_append_high b0 b1

/-- The second byte of a word made of two bytes (R61, R97). -/
@[simp] theorem secondByte_wordOfBytes (order : ByteOrder) (b0 b1 : Byte) :
    secondByte order (wordOfBytes order b0 b1) = b1 := by
  cases order
  · exact extractLsb'_append_high b1 b0
  · exact extractLsb'_append_low b0 b1

/-! ## The regpair byte and the opcode byte -/

@[simp] theorem highNybble_append (h l : BitVec 4) : highNybble (h ++ l) = h :=
  extractLsb'_append_high h l

@[simp] theorem lowNybble_append (h l : BitVec 4) : lowNybble (h ++ l) = l :=
  extractLsb'_append_low h l

/-- A regpair byte is its two nybbles (R94). -/
@[simp] theorem nybbles_append (b : Byte) : highNybble b ++ lowNybble b = b :=
  append_extractLsb' (n := 4) (m := 4) b

@[simp] theorem condField_opByte (cc : Cond) (op : BitVec 5) : condField (opByte cc op) = cc.field :=
  extractLsb'_append_high cc.field op

@[simp] theorem opField_opByte (cc : Cond) (op : BitVec 5) : opField (opByte cc op) = op :=
  extractLsb'_append_low cc.field op

/-- An opcode byte is its condition field and its opcode (R91). -/
theorem condField_append_opField (b : Byte) : condField b ++ opField b = b :=
  append_extractLsb' (n := 3) (m := 5) b

/-! ## Conditions and numbers -/

/-- The condition field and the prefix together give the condition back (R32, R93). -/
@[simp] theorem condOfField_field (cc : Cond) : condOfField cc.extended cc.field = some cc := by
  cases cc <;> rfl

/-- A condition read from a field has that field, and is one of 8 to F exactly after `XC` (R32, R93). -/
theorem condOfField_some {xc : Bool} {c3 : BitVec 3} {cc : Cond} (h : condOfField xc c3 = some cc) :
    cc.field = c3 ∧ cc.extended = xc := by
  revert xc c3 cc
  decide

/-- Only the field 6 in prefix position is no condition (R92). -/
theorem condOfField_none {xc : Bool} {c3 : BitVec 3} : condOfField xc c3 = none ↔ xc = false ∧ c3 = 6 := by
  revert xc c3
  decide

/-- The number of the nybble of a legal `SImm4` is that number (R98). -/
theorem simm4_nybble {n : Int} (h : simm4Wf n = true) : simm4OfNybble (nybbleOfSimm4 n) = n := by
  simp only [simm4Wf, Bool.and_eq_true, decide_eq_true_eq, bne_iff_ne] at h
  obtain ⟨⟨h1, h2⟩, h3⟩ := h
  have hc : n = -8 ∨ n = -7 ∨ n = -6 ∨ n = -5 ∨ n = -4 ∨ n = -3 ∨ n = -2 ∨ n = -1 ∨
      n = 1 ∨ n = 2 ∨ n = 3 ∨ n = 4 ∨ n = 5 ∨ n = 6 ∨ n = 7 ∨ n = 8 := by omega
  rcases hc with rfl | rfl | rfl | rfl | rfl | rfl | rfl | rfl | rfl | rfl | rfl | rfl | rfl | rfl | rfl | rfl <;>
    decide

/-- Every nybble is the nybble of its own number, which is a legal `SImm4` (R98). -/
theorem nybble_simm4 (n : BitVec 4) : nybbleOfSimm4 (simm4OfNybble n) = n ∧ simm4Wf (simm4OfNybble n) = true := by
  revert n
  decide

/-! ## How far the decoder looks -/

theorem decodeRv_ne_more {order : ByteOrder} {mk : Reg → Vy → Instr} {rest : List Byte} (h : 3 ≤ rest.length) :
    decodeRv order mk rest ≠ .more := by
  match rest with
  | b0 :: b1 :: b2 :: t =>
    by_cases hr : lowNybble b0 = Reg.dpc <;> simp only [decodeRv, hr, if_true, if_false] <;> exact Decoded.noConfusion
  | [] | [_] | [_, _] => simp at h

theorem decodeR8_ne_more {mk : BitVec 4 → V8 → Instr} {rest : List Byte} (h : 2 ≤ rest.length) :
    decodeR8 mk rest ≠ .more := by
  match rest with
  | b0 :: b1 :: t =>
    by_cases hr : lowNybble b0 = Reg.dpc <;> simp only [decodeR8, hr, if_true, if_false] <;> exact Decoded.noConfusion
  | [] | [_] => simp at h

theorem decodeRn_ne_more {mk : Reg → BitVec 4 → Instr} {rest : List Byte} (h : 1 ≤ rest.length) :
    decodeRn mk rest ≠ .more := by
  match rest with
  | b0 :: t => simp [decodeRn]
  | [] => simp at h

theorem decodeWord_ne_more {order : ByteOrder} {mk : Word → Instr} {rest : List Byte} (h : 2 ≤ rest.length) :
    decodeWord order mk rest ≠ .more := by
  match rest with
  | b0 :: b1 :: t => simp [decodeWord]
  | [] | [_] => simp at h

end Sys2Proof
end

