-- ==== Sys2Proof/Laws/State.lean ====
section
/-!
SUPPORT. One lemma per field per update of the state, and what registers and flags hold after an update.
-/
namespace Sys2Proof.Machine

/-! ### `State.setCtx` -/

@[simp] theorem State.setCtx_active (s : State) (c : Context) : (s.setCtx c).active = s.active := rfl
@[simp] theorem State.setCtx_mmuEnabled (s : State) (c : Context) : (s.setCtx c).mmuEnabled = s.mmuEnabled := rfl
@[simp] theorem State.setCtx_run (s : State) (c : Context) : (s.setCtx c).run = s.run := rfl
@[simp] theorem State.setCtx_decode (s : State) (c : Context) : (s.setCtx c).decode = s.decode := rfl
@[simp] theorem State.setCtx_suspended (s : State) (c : Context) : (s.setCtx c).suspended = s.suspended := rfl
@[simp] theorem State.setCtx_mem (s : State) (c : Context) : (s.setCtx c).mem = s.mem := rfl
@[simp] theorem State.setCtx_portAnswers (s : State) (c : Context) : (s.setCtx c).portAnswers = s.portAnswers := rfl
@[simp] theorem State.setCtx_portLog (s : State) (c : Context) : (s.setCtx c).portLog = s.portLog := rfl
@[simp] theorem State.setCtx_draws (s : State) (c : Context) : (s.setCtx c).draws = s.draws := rfl
@[simp] theorem State.setCtx_config (s : State) (c : Context) : (s.setCtx c).config = s.config := rfl

/-! ### `State.setReg` -/

@[simp] theorem State.setReg_active (s : State) (r : Reg) (v : Word) : (s.setReg r v).active = s.active := rfl
@[simp] theorem State.setReg_mmuEnabled (s : State) (r : Reg) (v : Word) : (s.setReg r v).mmuEnabled = s.mmuEnabled := rfl
@[simp] theorem State.setReg_run (s : State) (r : Reg) (v : Word) : (s.setReg r v).run = s.run := rfl
@[simp] theorem State.setReg_decode (s : State) (r : Reg) (v : Word) : (s.setReg r v).decode = s.decode := rfl
@[simp] theorem State.setReg_suspended (s : State) (r : Reg) (v : Word) : (s.setReg r v).suspended = s.suspended := rfl
@[simp] theorem State.setReg_mem (s : State) (r : Reg) (v : Word) : (s.setReg r v).mem = s.mem := rfl
@[simp] theorem State.setReg_portAnswers (s : State) (r : Reg) (v : Word) : (s.setReg r v).portAnswers = s.portAnswers := rfl
@[simp] theorem State.setReg_portLog (s : State) (r : Reg) (v : Word) : (s.setReg r v).portLog = s.portLog := rfl
@[simp] theorem State.setReg_draws (s : State) (r : Reg) (v : Word) : (s.setReg r v).draws = s.draws := rfl
@[simp] theorem State.setReg_config (s : State) (r : Reg) (v : Word) : (s.setReg r v).config = s.config := rfl

/-! ### `State.setFlags` -/

@[simp] theorem State.setFlags_active (s : State) (f : Flags) : (s.setFlags f).active = s.active := rfl
@[simp] theorem State.setFlags_mmuEnabled (s : State) (f : Flags) : (s.setFlags f).mmuEnabled = s.mmuEnabled := rfl
@[simp] theorem State.setFlags_run (s : State) (f : Flags) : (s.setFlags f).run = s.run := rfl
@[simp] theorem State.setFlags_decode (s : State) (f : Flags) : (s.setFlags f).decode = s.decode := rfl
@[simp] theorem State.setFlags_suspended (s : State) (f : Flags) : (s.setFlags f).suspended = s.suspended := rfl
@[simp] theorem State.setFlags_mem (s : State) (f : Flags) : (s.setFlags f).mem = s.mem := rfl
@[simp] theorem State.setFlags_portAnswers (s : State) (f : Flags) : (s.setFlags f).portAnswers = s.portAnswers := rfl
@[simp] theorem State.setFlags_portLog (s : State) (f : Flags) : (s.setFlags f).portLog = s.portLog := rfl
@[simp] theorem State.setFlags_draws (s : State) (f : Flags) : (s.setFlags f).draws = s.draws := rfl
@[simp] theorem State.setFlags_config (s : State) (f : Flags) : (s.setFlags f).config = s.config := rfl

/-! ### `State.setFlagsIf` -/

@[simp] theorem State.setFlagsIf_active (s : State) (wf : Bool) (f : Flags) : (s.setFlagsIf wf f).active = s.active := rfl
@[simp] theorem State.setFlagsIf_mmuEnabled (s : State) (wf : Bool) (f : Flags) : (s.setFlagsIf wf f).mmuEnabled = s.mmuEnabled := rfl
@[simp] theorem State.setFlagsIf_run (s : State) (wf : Bool) (f : Flags) : (s.setFlagsIf wf f).run = s.run := rfl
@[simp] theorem State.setFlagsIf_decode (s : State) (wf : Bool) (f : Flags) : (s.setFlagsIf wf f).decode = s.decode := rfl
@[simp] theorem State.setFlagsIf_suspended (s : State) (wf : Bool) (f : Flags) : (s.setFlagsIf wf f).suspended = s.suspended := rfl
@[simp] theorem State.setFlagsIf_mem (s : State) (wf : Bool) (f : Flags) : (s.setFlagsIf wf f).mem = s.mem := rfl
@[simp] theorem State.setFlagsIf_portAnswers (s : State) (wf : Bool) (f : Flags) : (s.setFlagsIf wf f).portAnswers = s.portAnswers := rfl
@[simp] theorem State.setFlagsIf_portLog (s : State) (wf : Bool) (f : Flags) : (s.setFlagsIf wf f).portLog = s.portLog := rfl
@[simp] theorem State.setFlagsIf_draws (s : State) (wf : Bool) (f : Flags) : (s.setFlagsIf wf f).draws = s.draws := rfl
@[simp] theorem State.setFlagsIf_config (s : State) (wf : Bool) (f : Flags) : (s.setFlagsIf wf f).config = s.config := rfl

/-! ### `State.advancePc` -/

@[simp] theorem State.advancePc_active (s : State) : (s.advancePc).active = s.active := rfl
@[simp] theorem State.advancePc_mmuEnabled (s : State) : (s.advancePc).mmuEnabled = s.mmuEnabled := rfl
@[simp] theorem State.advancePc_run (s : State) : (s.advancePc).run = s.run := rfl
@[simp] theorem State.advancePc_decode (s : State) : (s.advancePc).decode = s.decode := rfl
@[simp] theorem State.advancePc_suspended (s : State) : (s.advancePc).suspended = s.suspended := rfl
@[simp] theorem State.advancePc_mem (s : State) : (s.advancePc).mem = s.mem := rfl
@[simp] theorem State.advancePc_portAnswers (s : State) : (s.advancePc).portAnswers = s.portAnswers := rfl
@[simp] theorem State.advancePc_portLog (s : State) : (s.advancePc).portLog = s.portLog := rfl
@[simp] theorem State.advancePc_draws (s : State) : (s.advancePc).draws = s.draws := rfl
@[simp] theorem State.advancePc_config (s : State) : (s.advancePc).config = s.config := rfl

/-! ### `State.beginInstr` -/

@[simp] theorem State.beginInstr_normal (s : State) : (s.beginInstr).normal = s.normal := rfl
@[simp] theorem State.beginInstr_exception (s : State) : (s.beginInstr).exception = s.exception := rfl
@[simp] theorem State.beginInstr_active (s : State) : (s.beginInstr).active = s.active := rfl
@[simp] theorem State.beginInstr_mmuEnabled (s : State) : (s.beginInstr).mmuEnabled = s.mmuEnabled := rfl
@[simp] theorem State.beginInstr_run (s : State) : (s.beginInstr).run = s.run := rfl
@[simp] theorem State.beginInstr_suspended (s : State) : (s.beginInstr).suspended = s.suspended := rfl
@[simp] theorem State.beginInstr_mem (s : State) : (s.beginInstr).mem = s.mem := rfl
@[simp] theorem State.beginInstr_portAnswers (s : State) : (s.beginInstr).portAnswers = s.portAnswers := rfl
@[simp] theorem State.beginInstr_portLog (s : State) : (s.beginInstr).portLog = s.portLog := rfl
@[simp] theorem State.beginInstr_draws (s : State) : (s.beginInstr).draws = s.draws := rfl
@[simp] theorem State.beginInstr_config (s : State) : (s.beginInstr).config = s.config := rfl

/-! ### `State.finish` -/

@[simp] theorem State.finish_normal (s : State) : (s.finish).normal = s.normal := rfl
@[simp] theorem State.finish_exception (s : State) : (s.finish).exception = s.exception := rfl
@[simp] theorem State.finish_active (s : State) : (s.finish).active = s.active := rfl
@[simp] theorem State.finish_mmuEnabled (s : State) : (s.finish).mmuEnabled = s.mmuEnabled := rfl
@[simp] theorem State.finish_run (s : State) : (s.finish).run = s.run := rfl
@[simp] theorem State.finish_suspended (s : State) : (s.finish).suspended = s.suspended := rfl
@[simp] theorem State.finish_mem (s : State) : (s.finish).mem = s.mem := rfl
@[simp] theorem State.finish_portAnswers (s : State) : (s.finish).portAnswers = s.portAnswers := rfl
@[simp] theorem State.finish_portLog (s : State) : (s.finish).portLog = s.portLog := rfl
@[simp] theorem State.finish_draws (s : State) : (s.finish).draws = s.draws := rfl
@[simp] theorem State.finish_config (s : State) : (s.finish).config = s.config := rfl

/-! ### `State.halt` -/

@[simp] theorem State.halt_normal (s : State) (reason : HaltReason) : (s.halt reason).normal = s.normal := rfl
@[simp] theorem State.halt_exception (s : State) (reason : HaltReason) : (s.halt reason).exception = s.exception := rfl
@[simp] theorem State.halt_active (s : State) (reason : HaltReason) : (s.halt reason).active = s.active := rfl
@[simp] theorem State.halt_mmuEnabled (s : State) (reason : HaltReason) : (s.halt reason).mmuEnabled = s.mmuEnabled := rfl
@[simp] theorem State.halt_decode (s : State) (reason : HaltReason) : (s.halt reason).decode = s.decode := rfl
@[simp] theorem State.halt_suspended (s : State) (reason : HaltReason) : (s.halt reason).suspended = s.suspended := rfl
@[simp] theorem State.halt_mem (s : State) (reason : HaltReason) : (s.halt reason).mem = s.mem := rfl
@[simp] theorem State.halt_portAnswers (s : State) (reason : HaltReason) : (s.halt reason).portAnswers = s.portAnswers := rfl
@[simp] theorem State.halt_portLog (s : State) (reason : HaltReason) : (s.halt reason).portLog = s.portLog := rfl
@[simp] theorem State.halt_draws (s : State) (reason : HaltReason) : (s.halt reason).draws = s.draws := rfl
@[simp] theorem State.halt_config (s : State) (reason : HaltReason) : (s.halt reason).config = s.config := rfl

/-! ### `State.resume` -/

@[simp] theorem State.resume_normal (s : State) : (s.resume).normal = s.normal := rfl
@[simp] theorem State.resume_exception (s : State) : (s.resume).exception = s.exception := rfl
@[simp] theorem State.resume_active (s : State) : (s.resume).active = s.active := rfl
@[simp] theorem State.resume_mmuEnabled (s : State) : (s.resume).mmuEnabled = s.mmuEnabled := rfl
@[simp] theorem State.resume_decode (s : State) : (s.resume).decode = s.decode := rfl
@[simp] theorem State.resume_suspended (s : State) : (s.resume).suspended = s.suspended := rfl
@[simp] theorem State.resume_mem (s : State) : (s.resume).mem = s.mem := rfl
@[simp] theorem State.resume_portAnswers (s : State) : (s.resume).portAnswers = s.portAnswers := rfl
@[simp] theorem State.resume_portLog (s : State) : (s.resume).portLog = s.portLog := rfl
@[simp] theorem State.resume_draws (s : State) : (s.resume).draws = s.draws := rfl
@[simp] theorem State.resume_config (s : State) : (s.resume).config = s.config := rfl

/-! ### `State.rawWrite` -/

@[simp] theorem State.rawWrite_normal (s : State) (pa : Word) (b : Byte) : (s.rawWrite pa b).normal = s.normal := rfl
@[simp] theorem State.rawWrite_exception (s : State) (pa : Word) (b : Byte) : (s.rawWrite pa b).exception = s.exception := rfl
@[simp] theorem State.rawWrite_active (s : State) (pa : Word) (b : Byte) : (s.rawWrite pa b).active = s.active := rfl
@[simp] theorem State.rawWrite_mmuEnabled (s : State) (pa : Word) (b : Byte) : (s.rawWrite pa b).mmuEnabled = s.mmuEnabled := rfl
@[simp] theorem State.rawWrite_run (s : State) (pa : Word) (b : Byte) : (s.rawWrite pa b).run = s.run := rfl
@[simp] theorem State.rawWrite_decode (s : State) (pa : Word) (b : Byte) : (s.rawWrite pa b).decode = s.decode := rfl
@[simp] theorem State.rawWrite_suspended (s : State) (pa : Word) (b : Byte) : (s.rawWrite pa b).suspended = s.suspended := rfl
@[simp] theorem State.rawWrite_portAnswers (s : State) (pa : Word) (b : Byte) : (s.rawWrite pa b).portAnswers = s.portAnswers := rfl
@[simp] theorem State.rawWrite_portLog (s : State) (pa : Word) (b : Byte) : (s.rawWrite pa b).portLog = s.portLog := rfl
@[simp] theorem State.rawWrite_draws (s : State) (pa : Word) (b : Byte) : (s.rawWrite pa b).draws = s.draws := rfl
@[simp] theorem State.rawWrite_config (s : State) (pa : Word) (b : Byte) : (s.rawWrite pa b).config = s.config := rfl

/-! ### `State.rawWriteWord` -/

@[simp] theorem State.rawWriteWord_normal (s : State) (pa w : Word) : (s.rawWriteWord pa w).normal = s.normal := rfl
@[simp] theorem State.rawWriteWord_exception (s : State) (pa w : Word) : (s.rawWriteWord pa w).exception = s.exception := rfl
@[simp] theorem State.rawWriteWord_active (s : State) (pa w : Word) : (s.rawWriteWord pa w).active = s.active := rfl
@[simp] theorem State.rawWriteWord_mmuEnabled (s : State) (pa w : Word) : (s.rawWriteWord pa w).mmuEnabled = s.mmuEnabled := rfl
@[simp] theorem State.rawWriteWord_run (s : State) (pa w : Word) : (s.rawWriteWord pa w).run = s.run := rfl
@[simp] theorem State.rawWriteWord_decode (s : State) (pa w : Word) : (s.rawWriteWord pa w).decode = s.decode := rfl
@[simp] theorem State.rawWriteWord_suspended (s : State) (pa w : Word) : (s.rawWriteWord pa w).suspended = s.suspended := rfl
@[simp] theorem State.rawWriteWord_portAnswers (s : State) (pa w : Word) : (s.rawWriteWord pa w).portAnswers = s.portAnswers := rfl
@[simp] theorem State.rawWriteWord_portLog (s : State) (pa w : Word) : (s.rawWriteWord pa w).portLog = s.portLog := rfl
@[simp] theorem State.rawWriteWord_draws (s : State) (pa w : Word) : (s.rawWriteWord pa w).draws = s.draws := rfl
@[simp] theorem State.rawWriteWord_config (s : State) (pa w : Word) : (s.rawWriteWord pa w).config = s.config := rfl

/-! ### `State.complete` -/

@[simp] theorem State.complete_active (s : State) (cc : Cond) (rd : Reg) (r : Word) (f : Flags) : (s.complete cc rd r f).active = s.active := rfl
@[simp] theorem State.complete_mmuEnabled (s : State) (cc : Cond) (rd : Reg) (r : Word) (f : Flags) : (s.complete cc rd r f).mmuEnabled = s.mmuEnabled := rfl
@[simp] theorem State.complete_run (s : State) (cc : Cond) (rd : Reg) (r : Word) (f : Flags) : (s.complete cc rd r f).run = s.run := rfl
@[simp] theorem State.complete_suspended (s : State) (cc : Cond) (rd : Reg) (r : Word) (f : Flags) : (s.complete cc rd r f).suspended = s.suspended := rfl
@[simp] theorem State.complete_mem (s : State) (cc : Cond) (rd : Reg) (r : Word) (f : Flags) : (s.complete cc rd r f).mem = s.mem := rfl
@[simp] theorem State.complete_portAnswers (s : State) (cc : Cond) (rd : Reg) (r : Word) (f : Flags) : (s.complete cc rd r f).portAnswers = s.portAnswers := rfl
@[simp] theorem State.complete_portLog (s : State) (cc : Cond) (rd : Reg) (r : Word) (f : Flags) : (s.complete cc rd r f).portLog = s.portLog := rfl
@[simp] theorem State.complete_draws (s : State) (cc : Cond) (rd : Reg) (r : Word) (f : Flags) : (s.complete cc rd r f).draws = s.draws := rfl
@[simp] theorem State.complete_config (s : State) (cc : Cond) (rd : Reg) (r : Word) (f : Flags) : (s.complete cc rd r f).config = s.config := rfl

/-! ### `State.completePair` -/

@[simp] theorem State.completePair_active (s : State) (cc : Cond) (rd : Reg) (r v : Word) (f : Flags) : (s.completePair cc rd r v f).active = s.active := rfl
@[simp] theorem State.completePair_mmuEnabled (s : State) (cc : Cond) (rd : Reg) (r v : Word) (f : Flags) : (s.completePair cc rd r v f).mmuEnabled = s.mmuEnabled := rfl
@[simp] theorem State.completePair_run (s : State) (cc : Cond) (rd : Reg) (r v : Word) (f : Flags) : (s.completePair cc rd r v f).run = s.run := rfl
@[simp] theorem State.completePair_suspended (s : State) (cc : Cond) (rd : Reg) (r v : Word) (f : Flags) : (s.completePair cc rd r v f).suspended = s.suspended := rfl
@[simp] theorem State.completePair_mem (s : State) (cc : Cond) (rd : Reg) (r v : Word) (f : Flags) : (s.completePair cc rd r v f).mem = s.mem := rfl
@[simp] theorem State.completePair_portAnswers (s : State) (cc : Cond) (rd : Reg) (r v : Word) (f : Flags) : (s.completePair cc rd r v f).portAnswers = s.portAnswers := rfl
@[simp] theorem State.completePair_portLog (s : State) (cc : Cond) (rd : Reg) (r v : Word) (f : Flags) : (s.completePair cc rd r v f).portLog = s.portLog := rfl
@[simp] theorem State.completePair_draws (s : State) (cc : Cond) (rd : Reg) (r v : Word) (f : Flags) : (s.completePair cc rd r v f).draws = s.draws := rfl
@[simp] theorem State.completePair_config (s : State) (cc : Cond) (rd : Reg) (r v : Word) (f : Flags) : (s.completePair cc rd r v f).config = s.config := rfl

/-! ### `State.completeFlags` -/

@[simp] theorem State.completeFlags_active (s : State) (cc : Cond) (f : Flags) : (s.completeFlags cc f).active = s.active := rfl
@[simp] theorem State.completeFlags_mmuEnabled (s : State) (cc : Cond) (f : Flags) : (s.completeFlags cc f).mmuEnabled = s.mmuEnabled := rfl
@[simp] theorem State.completeFlags_run (s : State) (cc : Cond) (f : Flags) : (s.completeFlags cc f).run = s.run := rfl
@[simp] theorem State.completeFlags_suspended (s : State) (cc : Cond) (f : Flags) : (s.completeFlags cc f).suspended = s.suspended := rfl
@[simp] theorem State.completeFlags_mem (s : State) (cc : Cond) (f : Flags) : (s.completeFlags cc f).mem = s.mem := rfl
@[simp] theorem State.completeFlags_portAnswers (s : State) (cc : Cond) (f : Flags) : (s.completeFlags cc f).portAnswers = s.portAnswers := rfl
@[simp] theorem State.completeFlags_portLog (s : State) (cc : Cond) (f : Flags) : (s.completeFlags cc f).portLog = s.portLog := rfl
@[simp] theorem State.completeFlags_draws (s : State) (cc : Cond) (f : Flags) : (s.completeFlags cc f).draws = s.draws := rfl
@[simp] theorem State.completeFlags_config (s : State) (cc : Cond) (f : Flags) : (s.completeFlags cc f).config = s.config := rfl

/-! ### `State.branch` -/

@[simp] theorem State.branch_active (s : State) (delta target : Word) : (s.branch delta target).active = s.active := rfl
@[simp] theorem State.branch_mmuEnabled (s : State) (delta target : Word) : (s.branch delta target).mmuEnabled = s.mmuEnabled := rfl
@[simp] theorem State.branch_run (s : State) (delta target : Word) : (s.branch delta target).run = s.run := rfl
@[simp] theorem State.branch_decode (s : State) (delta target : Word) : (s.branch delta target).decode = s.decode := rfl
@[simp] theorem State.branch_suspended (s : State) (delta target : Word) : (s.branch delta target).suspended = s.suspended := rfl
@[simp] theorem State.branch_mem (s : State) (delta target : Word) : (s.branch delta target).mem = s.mem := rfl
@[simp] theorem State.branch_portAnswers (s : State) (delta target : Word) : (s.branch delta target).portAnswers = s.portAnswers := rfl
@[simp] theorem State.branch_portLog (s : State) (delta target : Word) : (s.branch delta target).portLog = s.portLog := rfl
@[simp] theorem State.branch_draws (s : State) (delta target : Word) : (s.branch delta target).draws = s.draws := rfl
@[simp] theorem State.branch_config (s : State) (delta target : Word) : (s.branch delta target).config = s.config := rfl

/-! ### `State.link` -/

@[simp] theorem State.link_active (s : State) : (s.link).active = s.active := rfl
@[simp] theorem State.link_mmuEnabled (s : State) : (s.link).mmuEnabled = s.mmuEnabled := rfl
@[simp] theorem State.link_run (s : State) : (s.link).run = s.run := rfl
@[simp] theorem State.link_decode (s : State) : (s.link).decode = s.decode := rfl
@[simp] theorem State.link_suspended (s : State) : (s.link).suspended = s.suspended := rfl
@[simp] theorem State.link_mem (s : State) : (s.link).mem = s.mem := rfl
@[simp] theorem State.link_portAnswers (s : State) : (s.link).portAnswers = s.portAnswers := rfl
@[simp] theorem State.link_portLog (s : State) : (s.link).portLog = s.portLog := rfl
@[simp] theorem State.link_draws (s : State) : (s.link).draws = s.draws := rfl
@[simp] theorem State.link_config (s : State) : (s.link).config = s.config := rfl

/-! ### `State.recordPort` -/

@[simp] theorem State.recordPort_normal (s : State) (e : PortEvent) : (s.recordPort e).normal = s.normal := rfl
@[simp] theorem State.recordPort_exception (s : State) (e : PortEvent) : (s.recordPort e).exception = s.exception := rfl
@[simp] theorem State.recordPort_active (s : State) (e : PortEvent) : (s.recordPort e).active = s.active := rfl
@[simp] theorem State.recordPort_mmuEnabled (s : State) (e : PortEvent) : (s.recordPort e).mmuEnabled = s.mmuEnabled := rfl
@[simp] theorem State.recordPort_run (s : State) (e : PortEvent) : (s.recordPort e).run = s.run := rfl
@[simp] theorem State.recordPort_decode (s : State) (e : PortEvent) : (s.recordPort e).decode = s.decode := rfl
@[simp] theorem State.recordPort_suspended (s : State) (e : PortEvent) : (s.recordPort e).suspended = s.suspended := rfl
@[simp] theorem State.recordPort_mem (s : State) (e : PortEvent) : (s.recordPort e).mem = s.mem := rfl
@[simp] theorem State.recordPort_draws (s : State) (e : PortEvent) : (s.recordPort e).draws = s.draws := rfl
@[simp] theorem State.recordPort_config (s : State) (e : PortEvent) : (s.recordPort e).config = s.config := rfl

/-! ### `State.countDraw` -/

@[simp] theorem State.countDraw_normal (s : State) (answer : PortAnswer) : (s.countDraw answer).normal = s.normal := rfl
@[simp] theorem State.countDraw_exception (s : State) (answer : PortAnswer) : (s.countDraw answer).exception = s.exception := rfl
@[simp] theorem State.countDraw_active (s : State) (answer : PortAnswer) : (s.countDraw answer).active = s.active := rfl
@[simp] theorem State.countDraw_mmuEnabled (s : State) (answer : PortAnswer) : (s.countDraw answer).mmuEnabled = s.mmuEnabled := rfl
@[simp] theorem State.countDraw_run (s : State) (answer : PortAnswer) : (s.countDraw answer).run = s.run := rfl
@[simp] theorem State.countDraw_decode (s : State) (answer : PortAnswer) : (s.countDraw answer).decode = s.decode := rfl
@[simp] theorem State.countDraw_suspended (s : State) (answer : PortAnswer) : (s.countDraw answer).suspended = s.suspended := rfl
@[simp] theorem State.countDraw_mem (s : State) (answer : PortAnswer) : (s.countDraw answer).mem = s.mem := rfl
@[simp] theorem State.countDraw_portAnswers (s : State) (answer : PortAnswer) : (s.countDraw answer).portAnswers = s.portAnswers := rfl
@[simp] theorem State.countDraw_portLog (s : State) (answer : PortAnswer) : (s.countDraw answer).portLog = s.portLog := rfl
@[simp] theorem State.countDraw_config (s : State) (answer : PortAnswer) : (s.countDraw answer).config = s.config := rfl

/-! ### `State.returnFromHandler` -/

@[simp] theorem State.returnFromHandler_run (s : State) (u : Suspended) : (s.returnFromHandler u).run = s.run := rfl
@[simp] theorem State.returnFromHandler_mem (s : State) (u : Suspended) : (s.returnFromHandler u).mem = s.mem := rfl
@[simp] theorem State.returnFromHandler_portAnswers (s : State) (u : Suspended) : (s.returnFromHandler u).portAnswers = s.portAnswers := rfl
@[simp] theorem State.returnFromHandler_portLog (s : State) (u : Suspended) : (s.returnFromHandler u).portLog = s.portLog := rfl
@[simp] theorem State.returnFromHandler_draws (s : State) (u : Suspended) : (s.returnFromHandler u).draws = s.draws := rfl
@[simp] theorem State.returnFromHandler_config (s : State) (u : Suspended) : (s.returnFromHandler u).config = s.config := rfl

/-! ### The fields an update sets -/

@[simp] theorem State.finish_decode_eq (s : State) : s.finish.decode = DecodeState.empty := rfl

@[simp] theorem State.halt_run_eq (s : State) (reason : HaltReason) : (s.halt reason).run = .halted reason := rfl

@[simp] theorem State.rawWrite_mem_eq (s : State) (pa : Word) (b : Byte) :
    (s.rawWrite pa b).mem = s.mem.write pa.toNat b := rfl

@[simp] theorem State.beginInstr_xc (s : State) : s.beginInstr.decode.xc = s.decode.xc := rfl

@[simp] theorem State.beginInstr_insnPc (s : State) :
    s.beginInstr.decode.insnPc = some (s.decode.insnPc.getD s.pc) := rfl

@[simp] theorem State.returnFromHandler_active_eq (s : State) (u : Suspended) :
    (s.returnFromHandler u).active = .normal := rfl

@[simp] theorem State.returnFromHandler_mmuEnabled_eq (s : State) (u : Suspended) :
    (s.returnFromHandler u).mmuEnabled = true := rfl

@[simp] theorem State.returnFromHandler_suspended_eq (s : State) (u : Suspended) :
    (s.returnFromHandler u).suspended = none := rfl

@[simp] theorem State.returnFromHandler_decode_eq (s : State) (u : Suspended) :
    (s.returnFromHandler u).decode = u.decode := rfl

/-! ### The context that executes -/

@[simp] theorem State.setCtx_ctx (s : State) (c : Context) : (s.setCtx c).ctx = c := by
  cases h : s.active <;> simp [State.ctx, State.setCtx, h]

@[simp] theorem State.finish_ctx (s : State) : s.finish.ctx = s.ctx := rfl

@[simp] theorem State.halt_ctx (s : State) (reason : HaltReason) : (s.halt reason).ctx = s.ctx := rfl

@[simp] theorem State.rawWrite_ctx (s : State) (pa : Word) (b : Byte) : (s.rawWrite pa b).ctx = s.ctx := rfl

@[simp] theorem State.beginInstr_ctx (s : State) : s.beginInstr.ctx = s.ctx := rfl

@[simp] theorem State.recordPort_ctx (s : State) (e : PortEvent) : (s.recordPort e).ctx = s.ctx := rfl

@[simp] theorem State.countDraw_ctx (s : State) (answer : PortAnswer) : (s.countDraw answer).ctx = s.ctx := rfl

/-! ### Registers and flags of an update that leaves the context alone -/

@[simp] theorem State.finish_reg (s : State) (r : Reg) : s.finish.reg r = s.reg r := rfl

@[simp] theorem State.halt_reg (s : State) (reason : HaltReason) (r : Reg) : (s.halt reason).reg r = s.reg r := rfl

@[simp] theorem State.rawWrite_reg (s : State) (pa : Word) (b : Byte) (r : Reg) :
    (s.rawWrite pa b).reg r = s.reg r := rfl

@[simp] theorem State.beginInstr_reg (s : State) (r : Reg) : s.beginInstr.reg r = s.reg r := rfl

@[simp] theorem State.recordPort_reg (s : State) (e : PortEvent) (r : Reg) : (s.recordPort e).reg r = s.reg r := rfl

@[simp] theorem State.countDraw_reg (s : State) (answer : PortAnswer) (r : Reg) :
    (s.countDraw answer).reg r = s.reg r := rfl

@[simp] theorem State.finish_flags (s : State) : s.finish.flags = s.flags := rfl

@[simp] theorem State.halt_flags (s : State) (reason : HaltReason) : (s.halt reason).flags = s.flags := rfl

@[simp] theorem State.rawWrite_flags (s : State) (pa : Word) (b : Byte) : (s.rawWrite pa b).flags = s.flags := rfl

@[simp] theorem State.beginInstr_flags (s : State) : s.beginInstr.flags = s.flags := rfl

@[simp] theorem State.recordPort_flags (s : State) (e : PortEvent) : (s.recordPort e).flags = s.flags := rfl

@[simp] theorem State.countDraw_flags (s : State) (answer : PortAnswer) : (s.countDraw answer).flags = s.flags := rfl

/-! ### Registers -/

@[simp] theorem Context.reg_zero (c : Context) : c.reg 0 = 0 := rfl

/-- What `Context.reg` reads after `Context.setReg`: `R0` stays 0, the written register holds the value, the others are as before (R21). -/
theorem Context.reg_setReg (c : Context) (r q : Reg) (v : Word) :
    (c.setReg r v).reg q = if q = 0 then 0 else if q = r then v else c.reg q := by
  by_cases hq : q = 0#4
  · subst hq
    rfl
  by_cases hr : r = 0#4
  · subst hr
    simp [Context.reg, Context.setReg, hq]
  by_cases h : q = r
  · subst h
    simp [Context.reg, Context.setReg, hq, Vector.get_eq_getElem]
  · have hn : r.toNat ≠ q.toNat := fun e => h (BitVec.eq_of_toNat_eq e.symm)
    simp [Context.reg, Context.setReg, hq, hr, h, hn, Vector.get_eq_getElem]

@[simp] theorem Context.setReg_flags (c : Context) (r : Reg) (v : Word) : (c.setReg r v).flags = c.flags := rfl

@[simp] theorem Context.setReg_zero (c : Context) (v : Word) : c.setReg 0 v = c := rfl

@[simp] theorem State.reg_zero (s : State) : s.reg 0 = 0 := rfl

/-- What a register holds after a register write (R10, R21). -/
theorem State.reg_setReg (s : State) (r q : Reg) (v : Word) :
    (s.setReg r v).reg q = if q = 0 then 0 else if q = r then v else s.reg q := by
  simp [State.reg, State.setReg, Context.reg_setReg]

@[simp] theorem State.setReg_flags (s : State) (r : Reg) (v : Word) : (s.setReg r v).flags = s.flags := by
  simp [State.flags, State.setReg]

@[simp] theorem State.setFlags_reg (s : State) (f : Flags) (r : Reg) : (s.setFlags f).reg r = s.reg r := by
  simp [State.reg, State.setFlags, Context.reg]

@[simp] theorem State.setFlags_flags (s : State) (f : Flags) : (s.setFlags f).flags = f := by
  simp [State.flags, State.setFlags]

@[simp] theorem State.setFlagsIf_reg (s : State) (wf : Bool) (f : Flags) (r : Reg) :
    (s.setFlagsIf wf f).reg r = s.reg r := by
  simp [State.setFlagsIf]

@[simp] theorem State.setFlagsIf_flags (s : State) (wf : Bool) (f : Flags) :
    (s.setFlagsIf wf f).flags = if wf then f else s.flags := by
  simp [State.setFlagsIf]

/-- `PC` after the advance of one code byte (R26). -/
theorem State.advancePc_reg (s : State) (q : Reg) :
    s.advancePc.reg q = if q = 0 then 0 else if q = Reg.pc then s.pc + 1 + s.dpc else s.reg q := by
  simp [State.advancePc, State.reg_setReg]

@[simp] theorem State.advancePc_flags (s : State) : s.advancePc.flags = s.flags := by
  simp [State.advancePc]

/-! ### The context that does not execute -/

@[simp] theorem State.setCtx_idle (s : State) (c : Context) : (s.setCtx c).idle = s.idle := by
  cases h : s.active <;> simp [State.idle, State.setCtx, h]

@[simp] theorem State.setReg_idle (s : State) (r : Reg) (v : Word) : (s.setReg r v).idle = s.idle := by
  simp [State.setReg]

@[simp] theorem State.setFlags_idle (s : State) (f : Flags) : (s.setFlags f).idle = s.idle := by
  simp [State.setFlags]

@[simp] theorem State.setFlagsIf_idle (s : State) (wf : Bool) (f : Flags) : (s.setFlagsIf wf f).idle = s.idle := by
  simp [State.setFlagsIf]

@[simp] theorem State.advancePc_idle (s : State) : s.advancePc.idle = s.idle := by
  simp [State.advancePc]

@[simp] theorem State.finish_idle (s : State) : s.finish.idle = s.idle := rfl

@[simp] theorem State.halt_idle (s : State) (reason : HaltReason) : (s.halt reason).idle = s.idle := rfl

@[simp] theorem State.rawWrite_idle (s : State) (pa : Word) (b : Byte) : (s.rawWrite pa b).idle = s.idle := rfl

@[simp] theorem State.beginInstr_idle (s : State) : s.beginInstr.idle = s.idle := rfl

@[simp] theorem State.recordPort_idle (s : State) (e : PortEvent) : (s.recordPort e).idle = s.idle := rfl

@[simp] theorem State.countDraw_idle (s : State) (answer : PortAnswer) : (s.countDraw answer).idle = s.idle := rfl

/-! ### The start of execution -/

@[simp] theorem State.start_active (config : Config) : (State.start config).active = .normal := rfl
@[simp] theorem State.start_mmuEnabled (config : Config) : (State.start config).mmuEnabled = config.mmuAtStart := rfl
@[simp] theorem State.start_run (config : Config) : (State.start config).run = .running := rfl
@[simp] theorem State.start_decode (config : Config) : (State.start config).decode = DecodeState.empty := rfl
@[simp] theorem State.start_suspended (config : Config) : (State.start config).suspended = none := rfl
@[simp] theorem State.start_mem (config : Config) : (State.start config).mem = config.initialMemory := rfl
@[simp] theorem State.start_portAnswers (config : Config) : (State.start config).portAnswers = config.ports := rfl
@[simp] theorem State.start_portLog (config : Config) : (State.start config).portLog = [] := rfl
@[simp] theorem State.start_draws (config : Config) : (State.start config).draws = 0 := rfl
@[simp] theorem State.start_config (config : Config) : (State.start config).config = config := rfl
@[simp] theorem State.start_flags (config : Config) : (State.start config).flags = Flags.clear := rfl

/-- The registers at the start of execution (R47, R6). -/
theorem State.start_reg (config : Config) (r : Reg) : (State.start config).reg r =
    if h : 1 ≤ r.toNat ∧ r.toNat ≤ 13 then config.resetRegs.get ⟨r.toNat - 1, by omega⟩
    else if r = Reg.pc then config.resetPc
    else 0 := by
  have hpc : r.toNat = 14 ↔ r = Reg.pc := ⟨fun e => BitVec.eq_of_toNat_eq e, fun e => by rw [e]; rfl⟩
  show (if r = 0 then 0 else (startRegs config).get r.toFin) = _
  simp only [startRegs, Vector.get_eq_getElem, Vector.getElem_ofFn, BitVec.val_toFin, hpc]
  by_cases h : r = 0
  · subst h
    simp
  · rw [if_neg h]

end Sys2Proof.Machine
end

