-- ==== Sys2Proof/Laws/Memory.lean ====
section
/-!
SUPPORT. Physical memory: a byte read after a write, and the canonical form that every write keeps.
-/
namespace Sys2Proof.Machine

theorem Memory.read_dropWhile_above (t : Memory) (a c : Nat) (h : a < c) :
    Memory.read (t.dropWhile (fun x => decide (x.1 ≤ a))) c = Memory.read t c := by
  induction t with
  | nil => rfl
  | cons x t ih =>
    obtain ⟨k, v⟩ := x
    by_cases hk : k ≤ a
    · have h1 : ¬ c < k := by omega
      have h2 : c ≠ k := by omega
      simp [List.dropWhile, hk, ih, Memory.read, h1, h2]
    · simp [List.dropWhile, hk]

theorem Memory.read_dropWhile_below (t : Memory) (a c : Nat) (h : c ≤ a) :
    Memory.read (t.dropWhile (fun x => decide (x.1 ≤ a))) c = unlistedByte := by
  induction t with
  | nil => rfl
  | cons x t ih =>
    obtain ⟨k, v⟩ := x
    by_cases hk : k ≤ a
    · simp [List.dropWhile, hk, ih]
    · have h1 : c < k := by omega
      simp [List.dropWhile, hk, Memory.read, h1]

/-- A byte read after a write: the byte written at its address, what was there at every other (R50, R70). -/
theorem Memory.read_write (m : Memory) (a c : Nat) (b : Byte) :
    (Memory.write m a b).read c = if c = a then b else m.read c := by
  induction m with
  | nil =>
    by_cases hb : b = unlistedByte <;> by_cases hc : c = a <;>
      simp [Memory.write, Memory.read, hb, hc]
  | cons x t ih =>
    obtain ⟨k, v⟩ := x
    rcases Nat.lt_trichotomy a k with hk | hk | hk
    · by_cases hb : b = unlistedByte
      · by_cases hc : c = a
        · subst hc
          simp [Memory.write, Memory.read, hk, hb]
        · simp [Memory.write, hk, hb, hc]
      · by_cases hc : c = a
        · subst hc
          simp [Memory.write, Memory.read, hk, hb]
        · by_cases hl : c < a
          · have : c < k := by omega
            simp [Memory.write, Memory.read, hk, hb, hc, hl, this]
          · simp [Memory.write, Memory.read, hk, hb, hc, hl]
    · subst hk
      by_cases hb : b = unlistedByte
      · rcases Nat.lt_trichotomy c a with hc | hc | hc
        · have := Memory.read_dropWhile_below t a c (by omega)
          have hne : c ≠ a := by omega
          simp [Memory.write, hb, this, hne, Memory.read, hc]
        · subst hc
          have := Memory.read_dropWhile_below t c c (by omega)
          simp [Memory.write, hb, this]
        · have := Memory.read_dropWhile_above t a c hc
          have hne : c ≠ a := by omega
          have hnl : ¬ c < a := by omega
          simp [Memory.write, hb, this, hne, Memory.read, hnl]
      · by_cases hc : c = a
        · subst hc
          simp [Memory.write, Memory.read, hb]
        · simp [Memory.write, Memory.read, hb, hc]
    · have h1 : ¬ a < k := by omega
      have h2 : a ≠ k := by omega
      rw [Memory.write, if_neg h1, if_neg h2, Memory.read, Memory.read, ih]
      by_cases hc : c = a
      · subst hc
        simp [h1, h2]
      · simp [hc]

theorem Memory.wfFrom_mono {m : Memory} {low low' : Nat} (h : low ≤ low')
    (hm : Memory.wfFrom low' m = true) : Memory.wfFrom low m = true := by
  cases m with
  | nil => rfl
  | cons x t =>
    obtain ⟨k, v⟩ := x
    simp only [Memory.wfFrom, Bool.and_eq_true, decide_eq_true_eq] at hm ⊢
    exact ⟨⟨⟨by omega, hm.1.1.2⟩, hm.1.2⟩, hm.2⟩

/-- A canonical list from a later address on has nothing to drop at an earlier one. -/
theorem Memory.dropWhile_wfFrom {m : Memory} {a : Nat} (hm : Memory.wfFrom (a + 1) m = true) :
    m.dropWhile (fun x => decide (x.1 ≤ a)) = m := by
  cases m with
  | nil => rfl
  | cons x t =>
    obtain ⟨k, v⟩ := x
    simp only [Memory.wfFrom, Bool.and_eq_true, decide_eq_true_eq] at hm
    have : ¬ k ≤ a := by omega
    simp [List.dropWhile, this]

theorem Memory.wfFrom_write {m : Memory} {low a : Nat} {b : Byte} (hm : Memory.wfFrom low m = true)
    (hl : low ≤ a) (ha : a < 2 ^ 16) : Memory.wfFrom low (Memory.write m a b) = true := by
  induction m generalizing low with
  | nil =>
    by_cases hb : b = unlistedByte
    · simp [Memory.write, hb, Memory.wfFrom]
    · have : a < 65536 := ha
      simp [Memory.write, hb, Memory.wfFrom, hl, this]
  | cons x t ih =>
    obtain ⟨k, v⟩ := x
    have hm' := hm
    simp only [Memory.wfFrom, Bool.and_eq_true, decide_eq_true_eq] at hm
    obtain ⟨⟨⟨h1, h2⟩, h3⟩, h4⟩ := hm
    rcases Nat.lt_trichotomy a k with hk | hk | hk
    · by_cases hb : b = unlistedByte
      · simp [Memory.write, hk, hb, hm']
      · have hk' : a + 1 ≤ k := hk
        simp only [Memory.write, if_pos hk, if_neg hb, Memory.wfFrom, Bool.and_eq_true, decide_eq_true_eq]
        exact ⟨⟨⟨hl, ha⟩, by simp [hb]⟩, ⟨⟨hk', h2⟩, h3⟩, h4⟩
    · subst hk
      by_cases hb : b = unlistedByte
      · simp only [Memory.write, lt_irrefl, if_false, if_pos, hb]
        rw [Memory.dropWhile_wfFrom h4]
        exact Memory.wfFrom_mono (by omega) h4
      · simp only [Memory.write, lt_irrefl, if_false, if_true, if_neg hb, Memory.wfFrom, Bool.and_eq_true,
          decide_eq_true_eq]
        exact ⟨⟨⟨hl, ha⟩, by simp [hb]⟩, h4⟩
    · have n1 : ¬ a < k := by omega
      have n2 : a ≠ k := by omega
      simp only [Memory.write, if_neg n1, if_neg n2, Memory.wfFrom, Bool.and_eq_true, decide_eq_true_eq]
      exact ⟨⟨⟨h1, h2⟩, h3⟩, ih h4 hk⟩

/-- A write keeps the canonical form of memory. -/
theorem Memory.wf_write {m : Memory} {a : Nat} {b : Byte} (hm : m.wf = true) (ha : a < 2 ^ 16) :
    (Memory.write m a b).wf = true :=
  Memory.wfFrom_write hm (Nat.zero_le a) ha

/-- The memory right after reset is canonical. -/
theorem State.reset_mem_wf : State.reset.mem.wf = true := rfl

/-! ## Unchecked reads and writes of the state -/

/-- A byte read after an unchecked write (R50, R70). -/
theorem State.rawRead_rawWrite (s : State) (pa qa : Word) (b : Byte) :
    (s.rawWrite pa b).rawRead qa = if qa = pa then b else s.rawRead qa := by
  simp only [State.rawRead, State.rawWrite_mem_eq, Memory.read_write]
  by_cases h : qa = pa
  · simp [h]
  · have : qa.toNat ≠ pa.toNat := fun e => h (BitVec.eq_of_toNat_eq e)
    simp [h, this]

/-- An unchecked write keeps the canonical form. -/
theorem State.rawWrite_wf {s : State} (h : s.mem.wf = true) (pa : Word) (b : Byte) :
    (s.rawWrite pa b).mem.wf = true :=
  Memory.wf_write h pa.isLt

theorem State.rawWriteWord_wf {s : State} (h : s.mem.wf = true) (pa w : Word) :
    (s.rawWriteWord pa w).mem.wf = true :=
  State.rawWrite_wf (State.rawWrite_wf h _ _) _ _

theorem State.rawWriteWords_wf {s : State} (h : s.mem.wf = true) (pa : Word) (ws : List Word) :
    (s.rawWriteWords pa ws).mem.wf = true := by
  induction ws generalizing s pa with
  | nil => exact h
  | cons w ws ih => exact ih (State.rawWriteWord_wf h pa w) _

end Sys2Proof.Machine
end

