-- ==== Sys2Proof/Laws/Ops.lean ====
section
/-!
SUPPORT. What each shared operation can do, said once: unchecked writes of words, translation, checked accesses, the parts of the data phase, traps, the entry of a handler, the data phase as a whole.
-/
namespace Sys2Proof.Machine

/-! ## Steps that stay inside the running thread -/

/-- From `s` to `t` only the context that executes and memory have changed, memory keeping its canonical form and slot 0 of the register file its value. -/
structure Local (s t : State) : Prop where
  active : t.active = s.active
  mmuEnabled : t.mmuEnabled = s.mmuEnabled
  run : t.run = s.run
  decode : t.decode = s.decode
  suspended : t.suspended = s.suspended
  portAnswers : t.portAnswers = s.portAnswers
  portLog : t.portLog = s.portLog
  draws : t.draws = s.draws
  config : t.config = s.config
  idle : t.idle = s.idle
  memWf : s.mem.wf = true → t.mem.wf = true
  slotZero : t.ctx.regs.get 0 = s.ctx.regs.get 0

theorem Local.refl (s : State) : Local s s :=
  ⟨rfl, rfl, rfl, rfl, rfl, rfl, rfl, rfl, rfl, rfl, id, rfl⟩

theorem Local.trans {s t u : State} (h : Local s t) (k : Local t u) : Local s u where
  active := k.active.trans h.active
  mmuEnabled := k.mmuEnabled.trans h.mmuEnabled
  run := k.run.trans h.run
  decode := k.decode.trans h.decode
  suspended := k.suspended.trans h.suspended
  portAnswers := k.portAnswers.trans h.portAnswers
  portLog := k.portLog.trans h.portLog
  draws := k.draws.trans h.draws
  config := k.config.trans h.config
  idle := k.idle.trans h.idle
  memWf := k.memWf ∘ h.memWf
  slotZero := k.slotZero.trans h.slotZero

theorem Context.setReg_slotZero (c : Context) (r : Reg) (v : Word) :
    (c.setReg r v).regs.get 0 = c.regs.get 0 := by
  by_cases hr : r = 0#4
  · subst hr
    rfl
  · have hn : r.toNat ≠ 0 := fun e => hr (BitVec.eq_of_toNat_eq e)
    simp [Context.setReg, hr, Vector.get_eq_getElem, hn]

theorem Local.setReg (s : State) (r : Reg) (v : Word) : Local s (s.setReg r v) :=
  ⟨rfl, rfl, rfl, rfl, rfl, rfl, rfl, rfl, rfl, by simp, id, by
    simp [State.setReg, Context.setReg_slotZero]⟩

theorem Local.setFlags (s : State) (f : Flags) : Local s (s.setFlags f) :=
  ⟨rfl, rfl, rfl, rfl, rfl, rfl, rfl, rfl, rfl, by simp, id, by simp [State.setFlags]⟩

theorem Local.setFlagsIf (s : State) (wf : Bool) (f : Flags) : Local s (s.setFlagsIf wf f) :=
  Local.setFlags s _

theorem Local.rawWrite (s : State) (pa : Word) (b : Byte) : Local s (s.rawWrite pa b) :=
  ⟨rfl, rfl, rfl, rfl, rfl, rfl, rfl, rfl, rfl, rfl, fun h => State.rawWrite_wf h pa b, rfl⟩

theorem Local.advancePc (s : State) : Local s s.advancePc :=
  Local.setReg s _ _

/-! ## Unchecked writes of words -/

/-- Writing words changes memory alone (R255). -/
theorem State.rawWriteWords_eq (s : State) (pa : Word) (ws : List Word) :
    s.rawWriteWords pa ws = { s with mem := (s.rawWriteWords pa ws).mem } := by
  induction ws generalizing s pa with
  | nil => rfl
  | cons w ws ih =>
    rw [State.rawWriteWords, ih]
    rfl

@[simp] theorem State.rawWriteWords_normal (s : State) (pa : Word) (ws : List Word) :
    (s.rawWriteWords pa ws).normal = s.normal := by
  rw [State.rawWriteWords_eq]

@[simp] theorem State.rawWriteWords_run (s : State) (pa : Word) (ws : List Word) :
    (s.rawWriteWords pa ws).run = s.run := by
  rw [State.rawWriteWords_eq]

@[simp] theorem State.rawWriteWords_portAnswers (s : State) (pa : Word) (ws : List Word) :
    (s.rawWriteWords pa ws).portAnswers = s.portAnswers := by
  rw [State.rawWriteWords_eq]

@[simp] theorem State.rawWriteWords_portLog (s : State) (pa : Word) (ws : List Word) :
    (s.rawWriteWords pa ws).portLog = s.portLog := by
  rw [State.rawWriteWords_eq]

@[simp] theorem State.rawWriteWords_draws (s : State) (pa : Word) (ws : List Word) :
    (s.rawWriteWords pa ws).draws = s.draws := by
  rw [State.rawWriteWords_eq]

@[simp] theorem State.rawWriteWords_config (s : State) (pa : Word) (ws : List Word) :
    (s.rawWriteWords pa ws).config = s.config := by
  rw [State.rawWriteWords_eq]

/-! ## Translation and checked accesses -/

/-- When the MMU is disabled an address is its own physical address (R67). -/
theorem State.translate_off {s : State} (h : s.mmuEnabled = false) (va : Word) (a : Access) :
    s.translate va a = some va := by
  simp [State.translate, h]

/-- A page fault is raised only while the MMU is enabled and the page number byte is 0x00 (R55). -/
theorem State.translate_none {s : State} {va : Word} {a : Access} :
    s.translate va a = none ↔ s.mmuEnabled = true ∧ s.pageNumber va a = 0 := by
  unfold State.translate
  cases s.mmuEnabled
  · simp
  · by_cases h : s.pageNumber va a = 0 <;> simp [h]

theorem State.readAt_ok {s : State} {pa : Word} (h : s.accessible pa = true) :
    s.readAt pa = .ok (s.rawRead pa) := by
  simp [State.readAt, h]

theorem State.readAt_denied {s : State} {pa : Word} (h : s.accessible pa = false) :
    s.readAt pa = .error .denied := by
  simp [State.readAt, h]

theorem State.writeAt_ok {s : State} {pa : Word} (h : s.accessible pa = true) (b : Byte) :
    s.writeAt pa b = .ok (s.rawWrite pa b) := by
  simp [State.writeAt, h]

theorem State.writeAt_denied {s : State} {pa : Word} (h : s.accessible pa = false) (b : Byte) :
    s.writeAt pa b = .error .denied := by
  simp [State.writeAt, h]

/-- Everything a code byte fetch can answer (R62, R263). -/
theorem State.fetchByte_cases (s : State) :
    (∃ pa, s.translate s.pc .execute = some pa ∧ s.accessible pa = true ∧ s.fetchByte = .ok (s.rawRead pa)) ∨
    (s.translate s.pc .execute = none ∧ s.fetchByte = .error (.pageFault s.pc .execute)) ∨
    (∃ pa, s.translate s.pc .execute = some pa ∧ s.accessible pa = false ∧ s.fetchByte = .error .denied) := by
  cases h : s.translate s.pc .execute with
  | none => simp [State.fetchByte, h]
  | some pa => cases ha : s.accessible pa <;> simp [State.fetchByte, h, State.readAt, ha]

/-! ## The parts of the data phase -/

/-- A part of the data phase that succeeds stays inside the running thread. -/
theorem DataOp.performAt_local {op : DataOp} {pa : Word} {latch latch' : List Byte} {s t : State}
    (h : op.performAt pa latch s = .ok (latch', t)) : Local s t := by
  cases op with
  | loadByte va =>
    cases ha : s.accessible pa
    · simp [DataOp.performAt, State.readAt, ha, Except.map] at h
    · simp [DataOp.performAt, State.readAt, ha, Except.map] at h
      exact h.2 ▸ Local.refl s
  | storeByte va b =>
    cases ha : s.accessible pa
    · simp [DataOp.performAt, State.writeAt, ha, Except.map] at h
    · simp [DataOp.performAt, State.writeAt, ha, Except.map] at h
      exact h.2 ▸ Local.rawWrite s _ _
  | storeLatch va =>
    cases ha : s.accessible pa
    · simp [DataOp.performAt, State.writeAt, ha, Except.map] at h
    · simp [DataOp.performAt, State.writeAt, ha, Except.map] at h
      exact h.2 ▸ Local.rawWrite s _ _
  | latchReg r =>
    simp [DataOp.performAt] at h
    exact h.2 ▸ Local.refl s
  | setReg r =>
    simp [DataOp.performAt] at h
    exact h.2 ▸ Local.setReg s _ _
  | finishLoad rd wf =>
    simp [DataOp.performAt] at h
    exact h.2 ▸ (Local.setReg s _ _).trans (Local.setFlagsIf _ _ _)
  | addReg r delta =>
    simp [DataOp.performAt] at h
    exact h.2 ▸ Local.setReg s _ _

/-- A part of the data phase whose physical address is known can only fail by the accessibility check. -/
theorem DataOp.performAt_error {op : DataOp} {pa : Word} {latch : List Byte} {s : State} {t : Trap}
    (h : op.performAt pa latch s = .error t) : t = .denied := by
  cases op <;> cases ha : s.accessible pa <;>
    simp [DataOp.performAt, State.readAt, State.writeAt, ha, Except.map] at h <;> exact h.symm

/-- A part of the data phase that succeeds stays inside the running thread. -/
theorem DataOp.perform_local {op : DataOp} {latch latch' : List Byte} {s t : State}
    (h : op.perform latch s = .ok (latch', t)) : Local s t := by
  unfold DataOp.perform at h
  cases ho : op.access? with
  | none =>
    rw [ho] at h
    exact DataOp.performAt_local h
  | some p =>
    obtain ⟨va, a⟩ := p
    rw [ho] at h
    cases ht : s.translate va a with
    | none => simp [ht] at h
    | some pa =>
      simp only [ht] at h
      exact DataOp.performAt_local h

/-- A part of the data phase that is stopped is denied its page, or its address has no translation. -/
theorem DataOp.perform_error {op : DataOp} {latch : List Byte} {s : State} {t : Trap}
    (h : op.perform latch s = .error t) :
    t = .denied ∨ ∃ va a, t = .pageFault va a ∧ s.translate va a = none := by
  unfold DataOp.perform at h
  cases ho : op.access? with
  | none =>
    rw [ho] at h
    exact .inl (DataOp.performAt_error h)
  | some p =>
    obtain ⟨va, a⟩ := p
    rw [ho] at h
    cases ht : s.translate va a with
    | none =>
      simp only [ht, Except.error.injEq] at h
      exact .inr ⟨va, a, h.symm, ht⟩
    | some pa =>
      simp only [ht] at h
      exact .inl (DataOp.performAt_error h)

/-! ## Traps and the entry of a handler -/

/-- Where a trap leaves the machine: halted, or in the handler of a page that has one (R250, R252). -/
theorem State.takeTrap_cases (s : State) (t : Trap) (work : Work) :
    (∃ reason, s.takeTrap t work = s.halt reason) ∨
    (∃ va a, t = .pageFault va a ∧ s.handlerPage va ≠ 0 ∧
      s.takeTrap t work = s.enterHandler (s.handlerPage va) va a work) := by
  cases t with
  | denied => exact .inl ⟨_, rfl⟩
  | pageFault va a =>
    by_cases h : s.handlerPage va = 0
    · exact .inl ⟨.unmapped, if_pos h⟩
    · exact .inr ⟨va, a, rfl, h, if_neg h⟩

@[simp] theorem State.enterHandler_active_eq (s : State) (h : Byte) (va : Word) (a : Access) (w : Work) :
    (s.enterHandler h va a w).active = .exception := rfl

@[simp] theorem State.enterHandler_mmuEnabled_eq (s : State) (h : Byte) (va : Word) (a : Access) (w : Work) :
    (s.enterHandler h va a w).mmuEnabled = false := rfl

@[simp] theorem State.enterHandler_decode_eq (s : State) (h : Byte) (va : Word) (a : Access) (w : Work) :
    (s.enterHandler h va a w).decode = DecodeState.empty := rfl

@[simp] theorem State.enterHandler_exception_eq (s : State) (h : Byte) (va : Word) (a : Access) (w : Work) :
    (s.enterHandler h va a w).exception = handlerContext s.config h va a s.pc := rfl

@[simp] theorem State.enterHandler_suspended_eq (s : State) (h : Byte) (va : Word) (a : Access) (w : Work) :
    (s.enterHandler h va a w).suspended = some
      { insnPc := s.decode.insnPc.getD s.pc, livePc := s.pc, va := va, access := a,
        decode := { s.decode with insnPc := some (s.decode.insnPc.getD s.pc) }, work := w } := rfl

@[simp] theorem State.enterHandler_normal (s : State) (h : Byte) (va : Word) (a : Access) (w : Work) :
    (s.enterHandler h va a w).normal = s.normal := by
  simp only [State.enterHandler, State.rawWriteWords_normal]

@[simp] theorem State.enterHandler_run (s : State) (h : Byte) (va : Word) (a : Access) (w : Work) :
    (s.enterHandler h va a w).run = s.run := by
  simp only [State.enterHandler, State.rawWriteWords_run]

@[simp] theorem State.enterHandler_portAnswers (s : State) (h : Byte) (va : Word) (a : Access) (w : Work) :
    (s.enterHandler h va a w).portAnswers = s.portAnswers := by
  simp only [State.enterHandler, State.rawWriteWords_portAnswers]

@[simp] theorem State.enterHandler_portLog (s : State) (h : Byte) (va : Word) (a : Access) (w : Work) :
    (s.enterHandler h va a w).portLog = s.portLog := by
  simp only [State.enterHandler, State.rawWriteWords_portLog]

@[simp] theorem State.enterHandler_draws (s : State) (h : Byte) (va : Word) (a : Access) (w : Work) :
    (s.enterHandler h va a w).draws = s.draws := by
  simp only [State.enterHandler, State.rawWriteWords_draws]

@[simp] theorem State.enterHandler_config (s : State) (h : Byte) (va : Word) (a : Access) (w : Work) :
    (s.enterHandler h va a w).config = s.config := by
  simp only [State.enterHandler, State.rawWriteWords_config]

@[simp] theorem State.enterHandler_mem_eq (s : State) (h : Byte) (va : Word) (a : Access) (w : Work) :
    (s.enterHandler h va a w).mem =
      (s.rawWriteWords s.config.excSavedRegs (s.savedWords (s.decode.insnPc.getD s.pc))).mem := by
  simp only [State.enterHandler]

/-- The context that executes at handler entry is the exception context as R256 sets it. -/
@[simp] theorem State.enterHandler_ctx (s : State) (h : Byte) (va : Word) (a : Access) (w : Work) :
    (s.enterHandler h va a w).ctx = handlerContext s.config h va a s.pc := by
  simp only [State.ctx, State.enterHandler_active_eq, State.enterHandler_exception_eq]

@[simp] theorem State.enterHandler_reg (s : State) (h : Byte) (va : Word) (a : Access) (w : Work) (r : Reg) :
    (s.enterHandler h va a w).reg r = (handlerContext s.config h va a s.pc).reg r := by
  simp only [State.reg, State.enterHandler_ctx]

@[simp] theorem State.enterHandler_flags (s : State) (h : Byte) (va : Word) (a : Access) (w : Work) :
    (s.enterHandler h va a w).flags = Flags.clear := by
  simp only [State.flags, State.enterHandler_ctx, handlerContext]

/-! ## The data phase -/

/-- Everything a data phase can do: it comes to its end, or an access of it is stopped, and up to there only the running thread has changed (R263, R264). -/
theorem State.runData_cases (ops : List DataOp) (latch : List Byte) (s : State) :
    ∃ t, Local s t ∧ (State.runData ops latch s = t.finish ∨
      ∃ trap work, State.runData ops latch s = t.takeTrap trap work ∧
        (trap = .denied ∨ ∃ va a, trap = .pageFault va a ∧ t.translate va a = none)) := by
  induction ops generalizing latch s with
  | nil => exact ⟨s, Local.refl s, .inl rfl⟩
  | cons op rest ih =>
    cases h : op.perform latch s with
    | error t =>
      exact ⟨s, Local.refl s, .inr ⟨t, .data op rest latch, by simp [State.runData, h], DataOp.perform_error h⟩⟩
    | ok p =>
      obtain ⟨latch', s'⟩ := p
      obtain ⟨t, hl, hc⟩ := ih latch' s'
      refine ⟨t, (DataOp.perform_local h).trans hl, ?_⟩
      simpa [State.runData, h] using hc

/-- Everything the continuation of a data phase can do (R259, R261). -/
theorem State.continueData_cases (s : State) (pa : Word) (op : DataOp) (rest : List DataOp) (latch : List Byte) :
    ∃ t, Local s t ∧ (s.continueData pa op rest latch = t.finish ∨
      ∃ trap work, s.continueData pa op rest latch = t.takeTrap trap work ∧
        (trap = .denied ∨ ∃ va a, trap = .pageFault va a ∧ t.translate va a = none)) := by
  cases h : op.performAt pa latch s with
  | error t =>
    exact ⟨s, Local.refl s, .inr ⟨t, .data op rest latch, by simp [State.continueData, h],
      .inl (DataOp.performAt_error h)⟩⟩
  | ok p =>
    obtain ⟨latch', s'⟩ := p
    obtain ⟨t, hl, hc⟩ := State.runData_cases rest latch' s'
    refine ⟨t, (DataOp.performAt_local h).trans hl, ?_⟩
    simpa [State.continueData, h] using hc

/-! ## One access of the data phase -/

/-- A byte load that can be made puts its byte last in the latch (R60, R61). -/
theorem State.runData_load {s : State} {va pa : Word} {rest : List DataOp} {latch : List Byte}
    (ht : s.translate va .read = some pa) (ha : s.accessible pa = true) :
    State.runData (.loadByte va :: rest) latch s = State.runData rest (latch ++ [s.rawRead pa]) s := by
  simp [State.runData, DataOp.perform, DataOp.access?, ht, DataOp.performAt, State.readAt_ok ha, Except.map]

/-- A byte store that can be made writes its byte (R60, R61). -/
theorem State.runData_store {s : State} {va pa : Word} {b : Byte} {rest : List DataOp} {latch : List Byte}
    (ht : s.translate va .write = some pa) (ha : s.accessible pa = true) :
    State.runData (.storeByte va b :: rest) latch s = State.runData rest latch (s.rawWrite pa b) := by
  simp [State.runData, DataOp.perform, DataOp.access?, ht, DataOp.performAt, State.writeAt_ok ha, Except.map]

/-- A store from the latch that can be made writes its first byte (R192). -/
theorem State.runData_storeLatch {s : State} {va pa : Word} {b : Byte} {rest : List DataOp} {latch : List Byte}
    (ht : s.translate va .write = some pa) (ha : s.accessible pa = true) :
    State.runData (.storeLatch va :: rest) (b :: latch) s = State.runData rest latch (s.rawWrite pa b) := by
  simp [State.runData, DataOp.perform, DataOp.access?, ht, DataOp.performAt, State.writeAt_ok ha, Except.map]

/-- An access without a translation raises a page fault (R55, R251). -/
theorem State.runData_fault {s : State} {op : DataOp} {va : Word} {a : Access} {rest : List DataOp} {latch : List Byte}
    (hop : op.access? = some (va, a)) (ht : s.translate va a = none) :
    State.runData (op :: rest) latch s = s.pageFault va a (.data op rest latch) := by
  simp [State.runData, DataOp.perform, hop, ht, State.takeTrap]

/-- An access to an inaccessible physical page is denied before anything is done (R58). -/
theorem DataOp.performAt_denied {s : State} {op : DataOp} {va pa : Word} {a : Access} {latch : List Byte}
    (hop : op.access? = some (va, a)) (ha : s.accessible pa = false) : op.performAt pa latch s = .error .denied := by
  cases op <;> simp [DataOp.access?] at hop <;>
    simp [DataOp.performAt, State.readAt_denied ha, State.writeAt_denied ha, Except.map]

/-- An access to an inaccessible physical page halts (R58, R250). -/
theorem State.runData_denied {s : State} {op : DataOp} {va pa : Word} {a : Access} {rest : List DataOp} {latch : List Byte}
    (hop : op.access? = some (va, a)) (ht : s.translate va a = some pa) (ha : s.accessible pa = false) :
    State.runData (op :: rest) latch s = s.halt .doubleFault := by
  simp [State.runData, DataOp.perform, hop, ht, DataOp.performAt_denied hop ha, State.takeTrap]

/-- The first of the bytes that can be read, and the others (R60, R61). -/
theorem State.loadBytes_succ {s : State} {va : Word} {n : Nat} {bs : List Byte} (h : s.loadBytes va (n + 1) = some bs) :
    ∃ pa rest, s.translate va .read = some pa ∧ s.accessible pa = true ∧
      s.loadBytes (va + 1) n = some rest ∧ bs = s.rawRead pa :: rest := by
  rw [State.loadBytes] at h
  split at h
  · cases h
  · rename_i pa ht
    split at h
    · rename_i ha
      obtain ⟨rest, hr, e⟩ := Option.map_eq_some_iff.mp h
      exact ⟨pa, rest, ht, ha, hr, e.symm⟩
    · cases h

/-- The first of the bytes that can be written, and the others (R60, R61). -/
theorem State.storeBytes_cons {s t : State} {va : Word} {b : Byte} {bs : List Byte}
    (h : s.storeBytes va (b :: bs) = some t) :
    ∃ pa, s.translate va .write = some pa ∧ s.accessible pa = true ∧ (s.rawWrite pa b).storeBytes (va + 1) bs = some t := by
  rw [State.storeBytes] at h
  split at h
  · cases h
  · rename_i pa ht
    split at h
    · rename_i ha
      exact ⟨pa, ht, ha, h⟩
    · cases h

/-! ## The frame of a conditional instruction -/

/-- An instruction whose condition holds performs its operation (R103). -/
theorem State.conditional_true {s : State} {cc : Cond} (h : condHolds cc s.flags = true) (operation : State) :
    s.conditional cc operation = .next operation := by
  simp [State.conditional, h]

/-- An instruction whose condition is false does nothing more (R103). -/
theorem State.conditional_false {s : State} {cc : Cond} (h : condHolds cc s.flags = false) (operation : State) :
    s.conditional cc operation = .next s.finish := by
  simp [State.conditional, h]

@[simp] theorem State.complete_reg (s : State) (cc : Cond) (rd : Reg) (r : Word) (f : Flags) (q : Reg) :
    (s.complete cc rd r f).reg q = if q = 0 then 0 else if q = rd then r else s.reg q := by
  simp [State.complete, State.reg_setReg]

@[simp] theorem State.complete_flags (s : State) (cc : Cond) (rd : Reg) (r : Word) (f : Flags) :
    (s.complete cc rd r f).flags = if s.writesFlags cc then f else s.flags := by
  simp [State.complete]

@[simp] theorem State.complete_idle (s : State) (cc : Cond) (rd : Reg) (r : Word) (f : Flags) :
    (s.complete cc rd r f).idle = s.idle := by
  simp [State.complete]

@[simp] theorem State.complete_decode_eq (s : State) (cc : Cond) (rd : Reg) (r : Word) (f : Flags) :
    (s.complete cc rd r f).decode = DecodeState.empty := rfl

@[simp] theorem State.completePair_reg (s : State) (cc : Cond) (rd : Reg) (r v : Word) (f : Flags) (q : Reg) :
    (s.completePair cc rd r v f).reg q =
      if q = 0 then 0 else if q = rd ^^^ 1 then v else if q = rd then r else s.reg q := by
  simp only [State.completePair, State.finish_reg, State.setFlagsIf_reg, State.reg_setReg]
  by_cases h : q = 0#4 <;> simp [h]

@[simp] theorem State.completePair_flags (s : State) (cc : Cond) (rd : Reg) (r v : Word) (f : Flags) :
    (s.completePair cc rd r v f).flags = if s.writesFlags cc then f else s.flags := by
  simp [State.completePair]

@[simp] theorem State.completePair_idle (s : State) (cc : Cond) (rd : Reg) (r v : Word) (f : Flags) :
    (s.completePair cc rd r v f).idle = s.idle := by
  simp [State.completePair]

@[simp] theorem State.completePair_decode_eq (s : State) (cc : Cond) (rd : Reg) (r v : Word) (f : Flags) :
    (s.completePair cc rd r v f).decode = DecodeState.empty := rfl

@[simp] theorem State.completeFlags_reg (s : State) (cc : Cond) (f : Flags) (q : Reg) :
    (s.completeFlags cc f).reg q = s.reg q := by
  simp [State.completeFlags]

@[simp] theorem State.completeFlags_flags (s : State) (cc : Cond) (f : Flags) :
    (s.completeFlags cc f).flags = if s.writesFlags cc then f else s.flags := by
  simp [State.completeFlags]

@[simp] theorem State.completeFlags_idle (s : State) (cc : Cond) (f : Flags) :
    (s.completeFlags cc f).idle = s.idle := by
  simp [State.completeFlags]

@[simp] theorem State.completeFlags_decode_eq (s : State) (cc : Cond) (f : Flags) :
    (s.completeFlags cc f).decode = DecodeState.empty := rfl

end Sys2Proof.Machine
end

