-- ==== Sys2Proof/Laws/PerInstr.lean ====
section
/-!
SUPPORT. Statements made of every instruction, one lemma per constructor.
-/
namespace Sys2Proof.Laws

/-- The shape of an encoding: one to four bytes (R105), the first of which is the opcode byte or the prefix byte, and its condition field, read as the instruction's own position asks, gives the instruction's condition, or none for a prefix (R91, R92, R93). -/
def EncodeShape.Statement (i : Instr) : Prop :=
  ∀ order : ByteOrder, (encode order i).length ≤ maxUnitBytes ∧
    ∃ b rest, encode order i = b :: rest ∧ condOfField i.extended (condField b) = i.cond?

theorem EncodeShape.of_opByte {i : Instr} {cc : Cond} {op : BitVec 5} (hc : i.cond? = some cc)
    (h : ∀ order, ∃ rest, encode order i = opByte cc op :: rest ∧ rest.length ≤ 3) : EncodeShape.Statement i := by
  intro order
  obtain ⟨rest, he, hl⟩ := h order
  refine ⟨?_, _, rest, he, ?_⟩
  · rw [he, maxUnitBytes, List.length_cons]
    omega
  simp [Instr.extended, hc]

theorem EncodeShape.rv {i : Instr} {cc : Cond} {op : BitVec 5} {rx : Reg} {vy : Vy} (hc : i.cond? = some cc)
    (h : ∀ order, encode order i = encodeRv order cc op rx vy) : EncodeShape.Statement i :=
  EncodeShape.of_opByte hc (fun order => by cases vy <;> exact ⟨_, h order, by simp⟩)

theorem EncodeShape.r8 {i : Instr} {cc : Cond} {op : BitVec 5} {high : BitVec 4} {v8 : V8} (hc : i.cond? = some cc)
    (h : ∀ order, encode order i = encodeR8 cc op high v8) : EncodeShape.Statement i :=
  EncodeShape.of_opByte hc (fun order => by cases v8 <;> exact ⟨_, h order, by simp⟩)

theorem EncodeShape.word {i : Instr} {cc : Cond} {op : BitVec 5} {v : Word} (hc : i.cond? = some cc)
    (h : ∀ order, encode order i = encodeWord order cc op v) : EncodeShape.Statement i :=
  EncodeShape.of_opByte hc (fun order => ⟨_, h order, by simp⟩)

theorem EncodeShape.add (cc : Cond) (rx : Reg) (vy : Vy) : EncodeShape.Statement (Instr.add cc rx vy) :=
  EncodeShape.rv rfl (fun _ => rfl)

theorem EncodeShape.sub (cc : Cond) (rx : Reg) (vy : Vy) : EncodeShape.Statement (Instr.sub cc rx vy) :=
  EncodeShape.rv rfl (fun _ => rfl)

theorem EncodeShape.mlu (cc : Cond) (rx : Reg) (vy : Vy) : EncodeShape.Statement (Instr.mlu cc rx vy) :=
  EncodeShape.rv rfl (fun _ => rfl)

theorem EncodeShape.mls (cc : Cond) (rx : Reg) (vy : Vy) : EncodeShape.Statement (Instr.mls cc rx vy) :=
  EncodeShape.rv rfl (fun _ => rfl)

theorem EncodeShape.dvu (cc : Cond) (rx : Reg) (vy : Vy) : EncodeShape.Statement (Instr.dvu cc rx vy) :=
  EncodeShape.rv rfl (fun _ => rfl)

theorem EncodeShape.dvs (cc : Cond) (rx : Reg) (vy : Vy) : EncodeShape.Statement (Instr.dvs cc rx vy) :=
  EncodeShape.rv rfl (fun _ => rfl)

theorem EncodeShape.xor (cc : Cond) (rx : Reg) (vy : Vy) : EncodeShape.Statement (Instr.xor cc rx vy) :=
  EncodeShape.rv rfl (fun _ => rfl)

theorem EncodeShape.and (cc : Cond) (rx : Reg) (vy : Vy) : EncodeShape.Statement (Instr.and cc rx vy) :=
  EncodeShape.rv rfl (fun _ => rfl)

theorem EncodeShape.orr (cc : Cond) (rx : Reg) (vy : Vy) : EncodeShape.Statement (Instr.orr cc rx vy) :=
  EncodeShape.rv rfl (fun _ => rfl)

theorem EncodeShape.shl (cc : Cond) (rx : Reg) (vy : Vy) : EncodeShape.Statement (Instr.shl cc rx vy) :=
  EncodeShape.rv rfl (fun _ => rfl)

theorem EncodeShape.sru (cc : Cond) (rx : Reg) (vy : Vy) : EncodeShape.Statement (Instr.sru cc rx vy) :=
  EncodeShape.rv rfl (fun _ => rfl)

theorem EncodeShape.srs (cc : Cond) (rx : Reg) (vy : Vy) : EncodeShape.Statement (Instr.srs cc rx vy) :=
  EncodeShape.rv rfl (fun _ => rfl)

theorem EncodeShape.mov (cc : Cond) (rx : Reg) (vy : Vy) : EncodeShape.Statement (Instr.mov cc rx vy) :=
  EncodeShape.rv rfl (fun _ => rfl)

theorem EncodeShape.cmp (cc : Cond) (rx : Reg) (vy : Vy) : EncodeShape.Statement (Instr.cmp cc rx vy) :=
  EncodeShape.rv rfl (fun _ => rfl)

theorem EncodeShape.ldw (cc : Cond) (rx : Reg) (vy : Vy) : EncodeShape.Statement (Instr.ldw cc rx vy) :=
  EncodeShape.rv rfl (fun _ => rfl)

theorem EncodeShape.stw (cc : Cond) (rx : Reg) (vy : Vy) : EncodeShape.Statement (Instr.stw cc rx vy) :=
  EncodeShape.rv rfl (fun _ => rfl)

theorem EncodeShape.ldb (cc : Cond) (rx : Reg) (vy : Vy) : EncodeShape.Statement (Instr.ldb cc rx vy) :=
  EncodeShape.rv rfl (fun _ => rfl)

theorem EncodeShape.stb (cc : Cond) (rx : Reg) (v8 : V8) : EncodeShape.Statement (Instr.stb cc rx v8) :=
  EncodeShape.r8 rfl (fun _ => rfl)

theorem EncodeShape.bra (cc : Cond) (rx : Reg) (vy : Vy) : EncodeShape.Statement (Instr.bra cc rx vy) :=
  EncodeShape.rv rfl (fun _ => rfl)

theorem EncodeShape.brr (cc : Cond) (imm : Word) : EncodeShape.Statement (Instr.brr cc imm) :=
  EncodeShape.word rfl (fun _ => rfl)

theorem EncodeShape.fca (cc : Cond) (rx : Reg) (vy : Vy) : EncodeShape.Statement (Instr.fca cc rx vy) :=
  EncodeShape.rv rfl (fun _ => rfl)

theorem EncodeShape.fcr (cc : Cond) (imm : Word) : EncodeShape.Statement (Instr.fcr cc imm) :=
  EncodeShape.word rfl (fun _ => rfl)

theorem EncodeShape.rdb (cc : Cond) (rx : Reg) (port : PortNum) : EncodeShape.Statement (Instr.rdb cc rx port) :=
  EncodeShape.of_opByte rfl (fun _ => ⟨_, rfl, by simp⟩)

theorem EncodeShape.wrb (cc : Cond) (port : PortNum) (v8 : V8) : EncodeShape.Statement (Instr.wrb cc port v8) :=
  EncodeShape.r8 rfl (fun _ => rfl)

theorem EncodeShape.psh (cc : Cond) (regs : Word) : EncodeShape.Statement (Instr.psh cc regs) :=
  EncodeShape.word rfl (fun _ => rfl)

theorem EncodeShape.pop (cc : Cond) (regs : Word) : EncodeShape.Statement (Instr.pop cc regs) :=
  EncodeShape.word rfl (fun _ => rfl)

theorem EncodeShape.inc (cc : Cond) (rx : Reg) (simm : Int) : EncodeShape.Statement (Instr.inc cc rx simm) :=
  EncodeShape.of_opByte rfl (fun _ => ⟨_, rfl, by simp⟩)

theorem EncodeShape.bpt (cc : Cond) : EncodeShape.Statement (Instr.bpt cc) :=
  EncodeShape.of_opByte rfl (fun _ => ⟨_, rfl, by simp⟩)

theorem EncodeShape.hlt (cc : Cond) : EncodeShape.Statement (Instr.hlt cc) :=
  EncodeShape.of_opByte rfl (fun _ => ⟨_, rfl, by simp⟩)

theorem EncodeShape.nop (cc : Cond) : EncodeShape.Statement (Instr.nop cc) :=
  EncodeShape.of_opByte rfl (fun _ => ⟨_, rfl, by simp⟩)

theorem EncodeShape.reserved0E (cc : Cond) : EncodeShape.Statement (Instr.reserved0E cc) :=
  EncodeShape.of_opByte rfl (fun _ => ⟨_, rfl, by simp⟩)

theorem EncodeShape.reserved0F (cc : Cond) : EncodeShape.Statement (Instr.reserved0F cc) :=
  EncodeShape.of_opByte rfl (fun _ => ⟨_, rfl, by simp⟩)

theorem EncodeShape.xc : EncodeShape.Statement Instr.xc :=
  fun order => ⟨by cases order <;> decide, _, [], rfl, by decide⟩

theorem EncodeShape.tf : EncodeShape.Statement Instr.tf :=
  fun order => ⟨by cases order <;> decide, _, [], rfl, by decide⟩

theorem EncodeShape.dr (rd : Reg) : EncodeShape.Statement (Instr.dr rd) := by
  intro order
  refine ⟨show 1 ≤ 4 by decide, _, [], rfl, ?_⟩
  revert rd
  decide

theorem EncodeShape.reservedPrefixC2 : EncodeShape.Statement Instr.reservedPrefixC2 :=
  fun order => ⟨by cases order <;> decide, _, [], rfl, by decide⟩

theorem EncodeShape.reservedPrefixC3 : EncodeShape.Statement Instr.reservedPrefixC3 :=
  fun order => ⟨by cases order <;> decide, _, [], rfl, by decide⟩

theorem EncodeShape.reservedPrefixC4 : EncodeShape.Statement Instr.reservedPrefixC4 :=
  fun order => ⟨by cases order <;> decide, _, [], rfl, by decide⟩

theorem EncodeShape.reservedPrefixC5 : EncodeShape.Statement Instr.reservedPrefixC5 :=
  fun order => ⟨by cases order <;> decide, _, [], rfl, by decide⟩

theorem EncodeShape.reservedPrefixC6 : EncodeShape.Statement Instr.reservedPrefixC6 :=
  fun order => ⟨by cases order <;> decide, _, [], rfl, by decide⟩

theorem EncodeShape.reservedPrefixC7 : EncodeShape.Statement Instr.reservedPrefixC7 :=
  fun order => ⟨by cases order <;> decide, _, [], rfl, by decide⟩

theorem EncodeShape.reservedPrefixC8 : EncodeShape.Statement Instr.reservedPrefixC8 :=
  fun order => ⟨by cases order <;> decide, _, [], rfl, by decide⟩

theorem EncodeShape.reservedPrefixC9 : EncodeShape.Statement Instr.reservedPrefixC9 :=
  fun order => ⟨by cases order <;> decide, _, [], rfl, by decide⟩

theorem EncodeShape.reservedPrefixCA : EncodeShape.Statement Instr.reservedPrefixCA :=
  fun order => ⟨by cases order <;> decide, _, [], rfl, by decide⟩

theorem EncodeShape.reservedPrefixCB : EncodeShape.Statement Instr.reservedPrefixCB :=
  fun order => ⟨by cases order <;> decide, _, [], rfl, by decide⟩

theorem EncodeShape.reservedPrefixCC : EncodeShape.Statement Instr.reservedPrefixCC :=
  fun order => ⟨by cases order <;> decide, _, [], rfl, by decide⟩

theorem EncodeShape.reservedPrefixCD : EncodeShape.Statement Instr.reservedPrefixCD :=
  fun order => ⟨by cases order <;> decide, _, [], rfl, by decide⟩

theorem EncodeShape.reservedPrefixCE : EncodeShape.Statement Instr.reservedPrefixCE :=
  fun order => ⟨by cases order <;> decide, _, [], rfl, by decide⟩

theorem EncodeShape.reservedPrefixCF : EncodeShape.Statement Instr.reservedPrefixCF :=
  fun order => ⟨by cases order <;> decide, _, [], rfl, by decide⟩

end Sys2Proof.Laws
end

