-- ==== Sys2Proof/Laws/Saved.lean ====
section
/-!
SUPPORT. The saved registers area (R255): what words read back as after they have been written, and what stays as it was.
-/
namespace Sys2Proof.Machine

/-- A word reads back as it was written (R61). -/
theorem State.rawReadWord_rawWriteWord (s : State) (pa w : Word) : (s.rawWriteWord pa w).rawReadWord pa = w := by
  have h : pa ≠ pa + 1 := by
    intro e
    have := congrArg BitVec.toNat e
    rw [BitVec.toNat_add] at this
    have h1 : (1 : Word).toNat = 1 := rfl
    omega
  simp only [State.rawReadWord, State.rawWriteWord, State.rawRead_rawWrite, State.rawWrite_config, if_neg h,
    if_true, wordOfBytes_bytes]

/-- Bytes outside the words written from `pa` upward stay as they were (R255). -/
theorem State.rawWriteWords_read (s : State) (pa : Word) (ws : List Word) (a : Nat)
    (h : ∀ k : Nat, k < 2 * ws.length → a ≠ (pa + BitVec.ofNat 16 k).toNat) :
    (s.rawWriteWords pa ws).mem.read a = s.mem.read a := by
  induction ws generalizing s pa with
  | nil => rfl
  | cons w ws ih =>
    have h0 := h 0 (by simp)
    have h1 := h 1 (by simp; omega)
    rw [State.rawWriteWords, ih]
    · simp only [State.rawWriteWord, State.rawWrite_mem_eq, Memory.read_write]
      have h0' : a ≠ pa.toNat := by simpa using h0
      have h1' : a ≠ (pa + 1).toNat := h1
      rw [if_neg h1', if_neg h0']
    · intro k hk e
      refine h (k + 2) (by simp; omega) ?_
      rw [e]
      congr 1
      apply BitVec.eq_of_toNat_eq
      have h2 : (2 : Word).toNat = 2 := rfl
      simp only [BitVec.toNat_add, BitVec.toNat_ofNat, h2]
      omega

/-- Word number `i` of the words written from `pa` upward reads back (R255). -/
theorem State.rawWriteWords_readWord (s : State) (pa : Word) (ws : List Word) (i : Nat) (hi : i < ws.length)
    (hl : 2 * ws.length ≤ 65536) :
    (s.rawWriteWords pa ws).rawReadWord (pa + BitVec.ofNat 16 (2 * i)) = ws[i] := by
  induction ws generalizing s pa i with
  | nil => simp at hi
  | cons w ws ih =>
    simp only [List.length_cons] at hi hl
    cases i with
    | zero =>
      have key : ∀ (c : Word), (c = pa ∨ c = pa + 1) →
          ((s.rawWriteWord pa w).rawWriteWords (pa + 2) ws).rawRead c = (s.rawWriteWord pa w).rawRead c := by
        intro c hc
        refine State.rawWriteWords_read _ _ _ _ ?_
        intro k hk e
        have h2 : (2 : Word).toNat = 2 := rfl
        have h1 : (1 : Word).toNat = 1 := rfl
        rcases hc with rfl | rfl <;>
          simp only [BitVec.toNat_add, BitVec.toNat_ofNat, h1, h2] at e <;> omega
      have e0 : pa + BitVec.ofNat 16 (2 * 0) = pa := by simp
      rw [e0, State.rawWriteWords, State.rawReadWord, key _ (.inl rfl), key _ (.inr rfl),
        State.rawWriteWords_config]
      exact State.rawReadWord_rawWriteWord s pa w
    | succ n =>
      have e1 : pa + BitVec.ofNat 16 (2 * (n + 1)) = pa + 2 + BitVec.ofNat 16 (2 * n) := by
        apply BitVec.eq_of_toNat_eq
        have h2 : (2 : Word).toNat = 2 := rfl
        simp only [BitVec.toNat_add, BitVec.toNat_ofNat, h2]
        omega
      rw [e1, State.rawWriteWords, ih _ _ _ (by omega) (by omega)]
      rfl

/-! ## The return of a handler -/

/-- The registers of the normal thread after the return of a handler (R258). -/
theorem State.returnFromHandler_reg (s : State) (u : Suspended) (r : Reg) :
    (s.returnFromHandler u).reg r =
      if r = 0 then 0
      else if r = Reg.pc then (if s.savedReg Reg.pc = u.insnPc then u.livePc else s.savedReg Reg.pc)
      else s.savedReg r := by
  show (if r = 0 then 0 else (s.restoredRegs u).get r.toFin) = _
  have h0 : r.toNat = 0 ↔ r = 0 := ⟨fun e => BitVec.eq_of_toNat_eq e, fun e => by rw [e]; rfl⟩
  have h14 : r.toNat = 14 ↔ r = Reg.pc := ⟨fun e => BitVec.eq_of_toNat_eq e, fun e => by rw [e]; rfl⟩
  by_cases h : r = 0
  · rw [if_pos h, if_pos h]
  · have hg : (s.restoredRegs u).get r.toFin =
        if r.toNat = 0 then 0
        else if r.toNat = 14 then (if s.savedReg Reg.pc = u.insnPc then u.livePc else s.savedReg Reg.pc)
        else s.savedReg (BitVec.ofNat 4 r.toNat) := by
      unfold State.restoredRegs
      rw [Vector.get_eq_getElem, Vector.getElem_ofFn]
      rfl
    rw [if_neg h, if_neg h, hg]
    simp only [h0, h14, if_neg h]
    simp

@[simp] theorem State.returnFromHandler_flags (s : State) (u : Suspended) :
    (s.returnFromHandler u).flags = s.normal.flags := rfl

end Sys2Proof.Machine
end

