-- ==== Sys2Proof/Laws/Step.lean ====
section
/-!
SUPPORT. What the execution of an instruction, a fetch and a whole step can do, said once: every later proof about all instructions cites these and unfolds no meaning.
-/
namespace Sys2Proof.Machine

/-! ## Effects inside the running thread -/

/-- From `s` to `t` the machine stays in its thread: the other context, the MMU, the suspended instruction and the parameters are as they were, memory keeps its canonical form and slot 0 of the register file its value. -/
structure Stays (s t : State) : Prop where
  active : t.active = s.active
  mmuEnabled : t.mmuEnabled = s.mmuEnabled
  suspended : t.suspended = s.suspended
  config : t.config = s.config
  idle : t.idle = s.idle
  memWf : s.mem.wf = true → t.mem.wf = true
  slotZero : t.ctx.regs.get 0 = s.ctx.regs.get 0

theorem Local.stays {s t : State} (h : Local s t) : Stays s t :=
  ⟨h.active, h.mmuEnabled, h.suspended, h.config, h.idle, h.memWf, h.slotZero⟩

theorem Stays.trans {s t u : State} (h : Stays s t) (k : Stays t u) : Stays s u where
  active := k.active.trans h.active
  mmuEnabled := k.mmuEnabled.trans h.mmuEnabled
  suspended := k.suspended.trans h.suspended
  config := k.config.trans h.config
  idle := k.idle.trans h.idle
  memWf := k.memWf ∘ h.memWf
  slotZero := k.slotZero.trans h.slotZero

theorem Stays.finish (s : State) : Stays s s.finish :=
  ⟨rfl, rfl, rfl, rfl, rfl, id, rfl⟩

theorem Stays.complete (s : State) (cc : Cond) (rd : Reg) (r : Word) (f : Flags) :
    Stays s (s.complete cc rd r f) :=
  (((Local.setReg s _ _).trans (Local.setFlagsIf _ _ _)).stays).trans (Stays.finish _)

theorem Stays.completePair (s : State) (cc : Cond) (rd : Reg) (r v : Word) (f : Flags) :
    Stays s (s.completePair cc rd r v f) :=
  ((((Local.setReg s _ _).trans (Local.setReg _ _ _)).trans (Local.setFlagsIf _ _ _)).stays).trans (Stays.finish _)

theorem Stays.completeFlags (s : State) (cc : Cond) (f : Flags) : Stays s (s.completeFlags cc f) :=
  ((Local.setFlagsIf s _ _).stays).trans (Stays.finish _)

theorem Stays.recordPort (s : State) (e : PortEvent) : Stays s (s.recordPort e) :=
  ⟨rfl, rfl, rfl, rfl, rfl, id, rfl⟩

theorem Stays.countDraw (s : State) (answer : PortAnswer) : Stays s (s.countDraw answer) :=
  ⟨rfl, rfl, rfl, rfl, rfl, id, rfl⟩

theorem Stays.branch (s : State) (delta target : Word) : Stays s (s.branch delta target) :=
  ((Local.setReg s _ _).trans (Local.setReg _ _ _)).stays

theorem Stays.link (s : State) : Stays s s.link :=
  ((Local.setReg s _ _).trans (Local.setReg _ _ _)).stays

/-! ## One instruction -/

/-- A trap that an access of the state `t` can meet (R55, R58, R263). -/
def TrapOf (t : State) (trap : Trap) : Prop :=
  trap = .denied ∨ ∃ va a, trap = .pageFault va a ∧ t.translate va a = none

/-- What the execution of an instruction at `s` can do: it ends at `r` in its thread, completed or stopped there; or an access of it is stopped, and up to there only the running thread and memory have changed. -/
def Executed (s r : State) : Prop :=
  (Stays s r ∧ (r.decode = DecodeState.empty ∨ r.decode.insnPc = s.decode.insnPc) ∧
    (r.run = s.run ∨ r.run = .paused ∨ r.run = .halted .instruction ∨ r.run = .halted .decode ∨
      r.run = .halted .arithmetic)) ∨
  ∃ t trap work, Local s t ∧ r = t.takeTrap trap work ∧ TrapOf t trap

theorem Executed.ended {s r : State} (h : Stays s r) (hd : r.decode = DecodeState.empty) (hr : r.run = s.run) :
    Executed s r :=
  .inl ⟨h, .inl hd, .inl hr⟩

theorem Executed.runData {s t : State} (h : Local s t) (ops : List DataOp) (latch : List Byte) :
    Executed s (State.runData ops latch t) := by
  obtain ⟨u, hl, hc | ⟨trap, work, hc, ht⟩⟩ := State.runData_cases ops latch t
  · rw [hc]
    exact .ended ((h.trans hl).stays.trans (Stays.finish u)) rfl (h.trans hl).run
  · exact .inr ⟨u, trap, work, h.trans hl, hc, ht⟩

theorem Executed.conditional {s r : State} {cc : Cond} (h : Executed s r) :
    ∃ q, s.conditional cc r = .next q ∧ Executed s q := by
  cases hc : condHolds cc s.flags
  · exact ⟨_, State.conditional_false hc r, .ended (Stays.finish s) rfl rfl⟩
  · exact ⟨_, State.conditional_true hc r, h⟩

theorem Executed.complete (s : State) (cc : Cond) (rd : Reg) (r : Word) (f : Flags) :
    Executed s (s.complete cc rd r f) :=
  .ended (Stays.complete s cc rd r f) rfl rfl

theorem Executed.completePair (s : State) (cc : Cond) (rd : Reg) (r v : Word) (f : Flags) :
    Executed s (s.completePair cc rd r v f) :=
  .ended (Stays.completePair s cc rd r v f) rfl rfl

theorem Executed.halt (s : State) {reason : HaltReason} (h : reason = .decode ∨ reason = .arithmetic) :
    Executed s (s.halt reason) := by
  refine .inl ⟨⟨rfl, rfl, rfl, rfl, rfl, id, rfl⟩, .inr rfl, ?_⟩
  rcases h with rfl | rfl
  · exact .inr (.inr (.inr (.inl rfl)))
  · exact .inr (.inr (.inr (.inr rfl)))

theorem Executed.dvu (s : State) (cc : Cond) (rx : Reg) (vy : Vy) :
    ∃ q, execDvu cc rx vy s = .next q ∧ Executed s q := by
  refine Executed.conditional ?_
  split
  · exact .halt s (.inr rfl)
  · exact .completePair s _ _ _ _ _

theorem Executed.dvs (s : State) (cc : Cond) (rx : Reg) (vy : Vy) :
    ∃ q, execDvs cc rx vy s = .next q ∧ Executed s q := by
  refine Executed.conditional ?_
  split
  · exact .halt s (.inr rfl)
  split
  · exact .halt s (.inr rfl)
  · exact .completePair s _ _ _ _ _

theorem Executed.bpt (s : State) (cc : Cond) : ∃ q, execBpt cc s = .next q ∧ Executed s q :=
  Executed.conditional (.inl ⟨⟨rfl, rfl, rfl, rfl, rfl, id, rfl⟩, .inl rfl, .inr (.inl rfl)⟩)

theorem Executed.hlt (s : State) (cc : Cond) : ∃ q, execHlt cc s = .next q ∧ Executed s q :=
  Executed.conditional (.inl ⟨⟨rfl, rfl, rfl, rfl, rfl, id, rfl⟩, .inl rfl, .inr (.inr (.inl rfl))⟩)

theorem Executed.rdb (s : State) (cc : Cond) (rx : Reg) (port : PortNum) :
    ∃ q, execRdb cc rx port s = .next q ∧ Executed s q :=
  Executed.conditional (.ended (((Stays.recordPort s _).trans (Stays.countDraw _ _)).trans (Stays.complete _ _ _ _ _)) rfl rfl)

theorem Executed.wrb (s : State) (cc : Cond) (port : PortNum) (v8 : V8) :
    ∃ q, execWrb cc port v8 s = .next q ∧ Executed s q :=
  Executed.conditional (.ended ((Stays.recordPort s _).trans (Stays.completeFlags _ _ _)) rfl rfl)

theorem Executed.prefixByte (s : State) (d : DecodeState) (h : d.insnPc = s.decode.insnPc) :
    Executed s { s with decode := d } :=
  .inl ⟨⟨rfl, rfl, rfl, rfl, rfl, id, rfl⟩, .inr h, .inl rfl⟩

/-- Everything the execution of an instruction can do: `exec` always answers a next state, and that state is as `Executed` says. -/
theorem exec_cases (i : Instr) (s : State) : ∃ r, exec i s = .next r ∧ Executed s r := by
  cases i with
  | add cc rx vy => exact Executed.conditional (.complete s _ _ _ _)
  | sub cc rx vy => exact Executed.conditional (.complete s _ _ _ _)
  | mlu cc rx vy => exact Executed.conditional (.completePair s _ _ _ _ _)
  | mls cc rx vy => exact Executed.conditional (.completePair s _ _ _ _ _)
  | dvu cc rx vy => exact Executed.dvu s cc rx vy
  | dvs cc rx vy => exact Executed.dvs s cc rx vy
  | xor cc rx vy => exact Executed.conditional (.complete s _ _ _ _)
  | and cc rx vy => exact Executed.conditional (.complete s _ _ _ _)
  | orr cc rx vy => exact Executed.conditional (.complete s _ _ _ _)
  | shl cc rx vy => exact Executed.conditional (.complete s _ _ _ _)
  | sru cc rx vy => exact Executed.conditional (.complete s _ _ _ _)
  | srs cc rx vy => exact Executed.conditional (.complete s _ _ _ _)
  | mov cc rx vy => exact Executed.conditional (.complete s _ _ _ _)
  | cmp cc rx vy => exact Executed.conditional (.ended (Stays.completeFlags s _ _) rfl rfl)
  | ldw cc rx vy => exact Executed.conditional (.runData (Local.refl s) _ _)
  | stw cc rx vy => exact Executed.conditional (.runData (Local.refl s) _ _)
  | ldb cc rx vy => exact Executed.conditional (.runData (Local.refl s) _ _)
  | stb cc rx v8 => exact Executed.conditional (.runData (Local.refl s) _ _)
  | bra cc rx vy => exact Executed.conditional (.ended ((Stays.branch s _ _).trans (Stays.finish _)) rfl rfl)
  | brr cc imm => exact Executed.conditional (.ended ((Local.setReg s _ _).stays.trans (Stays.finish _)) rfl rfl)
  | fca cc rx vy =>
    exact Executed.conditional (.ended (((Stays.link s).trans (Stays.branch _ _ _)).trans (Stays.finish _)) rfl rfl)
  | fcr cc imm =>
    exact Executed.conditional
      (.ended (((Stays.link s).trans (Local.setReg _ _ _).stays).trans (Stays.finish _)) rfl rfl)
  | rdb cc rx port => exact Executed.rdb s cc rx port
  | wrb cc port v8 => exact Executed.wrb s cc port v8
  | psh cc regs => exact Executed.conditional (.runData (Local.setReg s _ _) _ _)
  | pop cc regs => exact Executed.conditional (.runData (Local.refl s) _ _)
  | inc cc rx simm => exact Executed.conditional (.complete s _ _ _ _)
  | bpt cc => exact Executed.bpt s cc
  | hlt cc => exact Executed.hlt s cc
  | nop cc => exact Executed.conditional (.ended (Stays.finish s) rfl rfl)
  | xc => exact ⟨_, rfl, .prefixByte s _ rfl⟩
  | tf => exact ⟨_, rfl, .prefixByte s _ rfl⟩
  | dr rd => exact ⟨_, rfl, .prefixByte s _ rfl⟩
  | reserved0E cc => exact ⟨_, rfl, .halt s (.inl rfl)⟩
  | reserved0F cc => exact ⟨_, rfl, .halt s (.inl rfl)⟩
  | reservedPrefixC2 => exact ⟨_, rfl, .halt s (.inl rfl)⟩
  | reservedPrefixC3 => exact ⟨_, rfl, .halt s (.inl rfl)⟩
  | reservedPrefixC4 => exact ⟨_, rfl, .halt s (.inl rfl)⟩
  | reservedPrefixC5 => exact ⟨_, rfl, .halt s (.inl rfl)⟩
  | reservedPrefixC6 => exact ⟨_, rfl, .halt s (.inl rfl)⟩
  | reservedPrefixC7 => exact ⟨_, rfl, .halt s (.inl rfl)⟩
  | reservedPrefixC8 => exact ⟨_, rfl, .halt s (.inl rfl)⟩
  | reservedPrefixC9 => exact ⟨_, rfl, .halt s (.inl rfl)⟩
  | reservedPrefixCA => exact ⟨_, rfl, .halt s (.inl rfl)⟩
  | reservedPrefixCB => exact ⟨_, rfl, .halt s (.inl rfl)⟩
  | reservedPrefixCC => exact ⟨_, rfl, .halt s (.inl rfl)⟩
  | reservedPrefixCD => exact ⟨_, rfl, .halt s (.inl rfl)⟩
  | reservedPrefixCE => exact ⟨_, rfl, .halt s (.inl rfl)⟩
  | reservedPrefixCF => exact ⟨_, rfl, .halt s (.inl rfl)⟩

/-! ## Fetching and the whole step -/

/-- Everything the fetch of an instruction can do: the instruction is to be run, or a byte of it could not be read, or (when the bytes allowed run out) nothing more happens; up to there only the running thread has changed. -/
theorem State.fetchFrom_cases (fuel : Nat) (got : List Byte) (s : State) :
    ∃ t, Local s t ∧ ((∃ i, State.fetchFrom fuel got s = .run i t) ∨
      (∃ trap work, State.fetchFrom fuel got s = .done (t.takeTrap trap work) ∧ TrapOf t trap) ∨
      State.fetchFrom fuel got s = .done t) := by
  induction fuel generalizing got s with
  | zero =>
    refine ⟨s, Local.refl s, ?_⟩
    unfold State.fetchFrom
    cases Sys2Proof.decode s.config.byteOrder s.decode.xc got with
    | instr i => exact .inl ⟨i, rfl⟩
    | more => exact .inr (.inr rfl)
  | succ n ih =>
    unfold State.fetchFrom
    cases Sys2Proof.decode s.config.byteOrder s.decode.xc got with
    | instr i => exact ⟨s, Local.refl s, .inl ⟨i, rfl⟩⟩
    | more =>
      rcases State.fetchByte_cases s with ⟨pa, _, _, hb⟩ | ⟨ht, hb⟩ | ⟨pa, _, _, hb⟩
      · obtain ⟨t, hl, hc⟩ := ih (got ++ [s.rawRead pa]) s.advancePc
        refine ⟨t, (Local.advancePc s).trans hl, ?_⟩
        simp only [hb]
        exact hc
      · refine ⟨s, Local.refl s, .inr (.inl ⟨.pageFault s.pc .execute, .fetch got, ?_, .inr ⟨_, _, rfl, ht⟩⟩)⟩
        simp only [hb]
      · refine ⟨s, Local.refl s, .inr (.inl ⟨.denied, .fetch got, ?_, .inl rfl⟩)⟩
        simp only [hb]

/-- Where a step has its instruction or its access made from: the decode of the next instruction, or the return of the handler of `u`. -/
def StepBase (s b : State) : Prop :=
  b = s.beginInstr ∨ ∃ u, s.atHandlerReturn = true ∧ s.suspended = some u ∧ b = s.returnFromHandler u

/-- Everything a step of a running machine can do: a handler's return that abandons the instruction; or, from the start of an instruction or the return of a handler, a fetch or an access that goes on and ends as `Executed` says. -/
theorem step_cases {s : State} (h : s.run = .running) :
    ∃ r, step s = .next r ∧
      ((∃ u, s.atHandlerReturn = true ∧ s.suspended = some u ∧ r = (s.returnFromHandler u).finish) ∨
       ∃ b t, StepBase s b ∧ Local b t ∧ (Executed t r ∨ r = t)) := by
  have hstep : step s = match s.ready with
      | .run i t => exec i t
      | .done t => .next t := by
    cases hr : s.ready <;> simp [step, h, hr]
  have fetch : ∀ (fuel : Nat) (got : List Byte) (b c : State), StepBase s b → Local b c →
      s.ready = State.fetchFrom fuel got c → ∃ r, step s = .next r ∧
        ∃ b t, StepBase s b ∧ Local b t ∧ (Executed t r ∨ r = t) := by
    intro fuel got b c hb hl hr
    obtain ⟨t, hlt, ⟨i, hc⟩ | ⟨trap, work, hc, ht⟩ | hc⟩ := State.fetchFrom_cases fuel got c
    · obtain ⟨r, he, hx⟩ := exec_cases i t
      exact ⟨r, by rw [hstep, hr, hc]; exact he, b, t, hb, hl.trans hlt, .inl hx⟩
    · exact ⟨_, by rw [hstep, hr, hc], b, t, hb, hl.trans hlt, .inl (.inr ⟨t, trap, work, Local.refl t, rfl, ht⟩)⟩
    · exact ⟨_, by rw [hstep, hr, hc], b, t, hb, hl.trans hlt, .inr rfl⟩
  have start : s.ready = State.fetchFrom maxUnitBytes [] s.beginInstr → ∃ r, step s = .next r ∧
        ∃ b t, StepBase s b ∧ Local b t ∧ (Executed t r ∨ r = t) :=
    fun hr => fetch _ _ _ _ (.inl rfl) (Local.refl _) hr
  have wrap : (∃ r, step s = .next r ∧ ∃ b t, StepBase s b ∧ Local b t ∧ (Executed t r ∨ r = t)) →
      ∃ r, step s = .next r ∧
        ((∃ u, s.atHandlerReturn = true ∧ s.suspended = some u ∧ r = (s.returnFromHandler u).finish) ∨
         ∃ b t, StepBase s b ∧ Local b t ∧ (Executed t r ∨ r = t)) :=
    fun ⟨r, h1, h2⟩ => ⟨r, h1, .inr h2⟩
  by_cases ha : s.atHandlerReturn = true
  · obtain hu | ⟨u, hu⟩ : s.suspended = none ∨ ∃ u, s.suspended = some u := by
      cases s.suspended <;> simp
    · refine wrap (start ?_)
      simp only [State.ready, ha, hu]
    · have hr : s.ready = s.endHandler u := by simp only [State.ready, ha, hu]
      cases hc : s.handlerCompleted u with
      | true =>
        have he : s.endHandler u = .done (s.returnFromHandler u).finish := by simp [State.endHandler, hc]
        exact ⟨_, by rw [hstep, hr, he], .inl ⟨u, ha, hu, rfl⟩⟩
      | false =>
        have hb : StepBase s (s.returnFromHandler u) := .inr ⟨u, ha, hu, rfl⟩
        refine wrap ?_
        cases hw : u.work with
        | fetch got =>
          have he : s.endHandler u = (s.returnFromHandler u).continueFetch (s.exception.reg 2) got := by
            simp [State.endHandler, hc, hw]
          cases hacc : (s.returnFromHandler u).accessible (s.exception.reg 2) with
          | true =>
            refine fetch maxUnitBytes (got ++ [(s.returnFromHandler u).rawRead (s.exception.reg 2)]) _ _ hb
              (Local.advancePc _) ?_
            rw [hr, he, State.continueFetch, State.readAt_ok hacc]
          | false =>
            refine ⟨_, by rw [hstep, hr, he, State.continueFetch, State.readAt_denied hacc], _, _, hb, Local.refl _,
              .inl (.inr ⟨_, .denied, .fetch got, Local.refl _, rfl, .inl rfl⟩)⟩
        | data op rest latch =>
          have he : s.endHandler u =
              .done ((s.returnFromHandler u).continueData (s.exception.reg 2) op rest latch) := by
            simp [State.endHandler, hc, hw]
          refine ⟨_, by rw [hstep, hr, he], ?_⟩
          obtain ⟨t, hl, hc | ⟨trap, work, hc, ht⟩⟩ :=
            State.continueData_cases (s.returnFromHandler u) (s.exception.reg 2) op rest latch
          · exact ⟨_, t, hb, hl, .inl (by rw [hc]; exact .ended (Stays.finish t) rfl rfl)⟩
          · exact ⟨_, t, hb, hl, .inl (by rw [hc]; exact .inr ⟨t, trap, work, Local.refl t, rfl, ht⟩)⟩
  · refine wrap (start ?_)
    have ha' : s.atHandlerReturn = false := by simpa using ha
    simp only [State.ready, ha']

end Sys2Proof.Machine
end

