-- ==== Sys2Proof/Tests/Slice0.lean ====
section
/-!
SUPPORT. Tests. The words are written out from `30_encoding.md` (opcode byte = condition field, opcode; regpair byte; immediate, low byte first); the expected results are those of the vectors and examples of spec/ named beside them. The theorems `witness_…` show, for each statement with hypotheses, states and operands that meet them.
-/
namespace Sys2Proof.Tests

open Sys2Proof.Machine

/-! ## Well-formedness: each check refuses an ill-formed term -/

theorem test_wf_refuses_vy_dpc : (Instr.add .al 2 (.reg 15)).wf = false := by decide

theorem test_wf_refuses_v8_dpc : (Instr.stb .al 2 (.reg 15)).wf = false ∧ (Instr.wrb .al 0 (.reg 15)).wf = false := by decide

theorem test_wf_refuses_simm4 :
    (Instr.inc .al 2 0).wf = false ∧ (Instr.inc .al 2 9).wf = false ∧ (Instr.inc .al 2 (-9)).wf = false := by decide

theorem test_wf_accepts :
    (Instr.add .al 15 (.reg 14)).wf = true ∧ (Instr.stb .al 2 (.imm 0x41)).wf = true ∧
    (Instr.inc .al 2 8).wf = true ∧ (Instr.inc .al 2 (-8)).wf = true := by decide

/-! ## Decoding: a word for every constructor -/

/-- What the bytes `bs` at an instruction boundary decode to. -/
def word (bs : List Byte) : Decoded := Sys2Proof.decode .little false bs

theorem test_decode_arithmetic :
    word [0xE0, 0x23] = .instr (.add .al 2 (.reg 3)) ∧ word [0xE1, 0x23] = .instr (.sub .al 2 (.reg 3)) ∧
    word [0xE2, 0x32] = .instr (.mlu .al 3 (.reg 2)) ∧ word [0xE3, 0x2F, 0x02, 0x00] = .instr (.mls .al 2 (.imm 2)) ∧
    word [0xE4, 0x2F, 0x10, 0x00] = .instr (.dvu .al 2 (.imm 16)) ∧ word [0xE5, 0x23] = .instr (.dvs .al 2 (.reg 3)) := by
  decide

theorem test_decode_logic :
    word [0xE6, 0x2F, 0xFF, 0xFF] = .instr (.xor .al 2 (.imm 0xFFFF)) ∧
    word [0xE7, 0x2F, 0xFF, 0x00] = .instr (.and .al 2 (.imm 0x00FF)) ∧
    word [0xE8, 0x2F, 0x00, 0x50] = .instr (.orr .al 2 (.imm 0x5000)) ∧
    word [0xE9, 0x23] = .instr (.shl .al 2 (.reg 3)) ∧ word [0xEA, 0x23] = .instr (.sru .al 2 (.reg 3)) ∧
    word [0xEB, 0x23] = .instr (.srs .al 2 (.reg 3)) ∧ word [0xEC, 0x2E] = .instr (.mov .al 2 (.reg 14)) ∧
    word [0x2D, 0x23] = .instr (.cmp .ne 2 (.reg 3)) := by
  decide

theorem test_decode_memory :
    word [0xF0, 0x2F, 0x00, 0x20] = .instr (.ldw .al 2 (.imm 0x2000)) ∧ word [0xF1, 0x76] = .instr (.stw .al 7 (.reg 6)) ∧
    word [0xF2, 0x4B] = .instr (.ldb .al 4 (.reg 11)) ∧ word [0xF3, 0x2F, 0x41] = .instr (.stb .al 2 (.imm 0x41)) := by
  decide

theorem test_decode_control :
    word [0xF4, 0xDC] = .instr (.bra .al 13 (.reg 12)) ∧ word [0x35, 0xF9, 0xFF] = .instr (.brr .ne 0xFFF9) ∧
    word [0x16, 0xF2] = .instr (.fca .eq 15 (.reg 2)) ∧ word [0xF7, 0x15, 0x00] = .instr (.fcr .al 0x0015) := by
  decide

theorem test_decode_port_stack :
    word [0xF8, 0x2F] = .instr (.rdb .al 2 15) ∧ word [0xF9, 0xF3] = .instr (.wrb .al 15 (.reg 3)) ∧
    word [0xFA, 0x0C, 0x00] = .instr (.psh .al 0x000C) ∧ word [0xFB, 0x60, 0x00] = .instr (.pop .al 0x0060) := by
  decide

theorem test_decode_misc :
    word [0xFC, 0x2F] = .instr (.inc .al 2 (-1)) ∧ word [0xBC, 0x30] = .instr (.inc .ge 3 1) ∧
    word [0xFC, 0x58] = .instr (.inc .al 5 (-8)) ∧ word [0xFD] = .instr (.bpt .al) ∧
    word [0x3E] = .instr (.hlt .ne) ∧ word [0xFF] = .instr (.nop .al) ∧
    word [0x0E] = .instr (.reserved0E .eq) ∧ word [0xEF] = .instr (.reserved0F .al) := by
  decide

theorem test_decode_prefix :
    word [0xC0] = .instr .xc ∧ word [0xC1] = .instr .tf ∧ word [0xD0] = .instr (.dr 0) ∧ word [0xDF] = .instr (.dr 15) := by
  decide

theorem test_decode_reserved_prefix :
    word [0xC2] = .instr .reservedPrefixC2 ∧ word [0xC3] = .instr .reservedPrefixC3 ∧
    word [0xC4] = .instr .reservedPrefixC4 ∧ word [0xC5] = .instr .reservedPrefixC5 ∧
    word [0xC6] = .instr .reservedPrefixC6 ∧ word [0xC7] = .instr .reservedPrefixC7 ∧
    word [0xC8] = .instr .reservedPrefixC8 ∧ word [0xC9] = .instr .reservedPrefixC9 ∧
    word [0xCA] = .instr .reservedPrefixCA ∧ word [0xCB] = .instr .reservedPrefixCB ∧
    word [0xCC] = .instr .reservedPrefixCC ∧ word [0xCD] = .instr .reservedPrefixCD ∧
    word [0xCE] = .instr .reservedPrefixCE ∧ word [0xCF] = .instr .reservedPrefixCF := by
  decide

/-- The conditions of `MOV.cc R4, 1` in set V-COND of `95_test_vectors.md`. -/
theorem test_decode_conditions :
    [0x0C, 0x2C, 0x4C, 0x6C, 0x8C, 0xAC, 0xEC].map (fun b => word [b, 0x4F, 1, 0]) =
      [Cond.eq, .ne, .gt, .le, .lt, .ge, .al].map (fun cc => .instr (.mov cc 4 (.imm 1))) ∧
    [0x0C, 0x2C, 0x4C, 0x6C, 0x8C, 0xAC, 0xCC, 0xEC].map (fun b => Sys2Proof.decode .little true [b, 0x4F, 1, 0]) =
      [Cond.ng, .ps, .bg, .se, .sm, .be, .od, .ev].map (fun cc => .instr (.mov cc 4 (.imm 1))) := by
  decide

/-- After `XC` the byte `C1` is an opcode byte (R93); an instruction cut short asks for more bytes. -/
theorem test_decode_after_xc_and_short :
    Sys2Proof.decode .little true [0xC1, 0x23] = .instr (.sub .od 2 (.reg 3)) ∧
    word [0xE0] = .more ∧ word [0xE0, 0x2F, 0x34] = .more ∧ word [0xFA, 0x0C] = .more := by
  decide

/-- The table's numbering: the second byte is bits 15..8, an immediate the table gives no bits is 0. -/
theorem test_table_word :
    decodeTableWord 16 0x23E0 = some (.add .al 2 (.reg 3)) ∧ decodeTableWord 16 0x2FE0 = some (.add .al 2 (.imm 0)) ∧
    decodeTableWord 8 0xFE = some (.hlt .al) := by
  decide

/-! ## One step -/

/-- Pages 0x10, 0x20, 0x21 are mapped to themselves and allowed; page 0x50 is mapped but not allowed; pages 0x22 and 0x30 have only a handler, on page 0x40; all others have nothing. -/
def baseMem : Memory :=
  [(0x0110, 4), (0x0120, 4), (0x0121, 4), (0x0140, 4),
   (0x1000, 0xE0), (0x1001, 0x23), (0x2000, 0x80), (0x2001, 0x90), (0x21FF, 0xE0), (0x4000, 0xFF),
   (0xFC40, 0x10), (0xFC41, 0x10), (0xFC42, 0x10), (0xFC80, 0x20), (0xFC81, 0x20), (0xFC82, 0x20),
   (0xFC84, 0x21), (0xFC85, 0x21), (0xFC86, 0x21), (0xFC8B, 0x40), (0xFCC3, 0x40),
   (0xFD40, 0x50), (0xFD41, 0x50), (0xFD42, 0x50)]

/-- Flags in the order `Z S P C V`. -/
def zspcv (b : BitVec 5) : Flags where
  zf := b.getLsbD 4
  sf := b.getLsbD 3
  pf := b.getLsbD 2
  cf := b.getLsbD 1
  vf := b.getLsbD 0

/-- The start of execution at 0x1000 over `baseMem`, the flags `b` and the registers `regs` set. -/
def mach (b : BitVec 5) (regs : List (Reg × Word)) : State :=
  regs.foldl (fun s p => s.setReg p.1 p.2) ((State.start { Config.standard with initialMemory := baseMem }).setFlags (zspcv b))

/-- `mach` after the prefix bytes that leave `d`. -/
def prefixed (tf : Bool) (rd : Option Reg) (s : State) : State :=
  { s with decode := { xc := false, tf := tf, rd := rd, insnPc := some 0x1000 } }

/-- The next state of an outcome, if it has one. -/
def nextState (o : Host.Outcome State Fault Refusal) : Option State :=
  match o with
  | .next t => some t
  | _ => none

/-- The registers `rs` and the flags after an instruction. -/
def after (i : Instr) (s : State) (rs : List Reg) : Option (List Word × Flags) :=
  (nextState (exec i s)).map (fun t => (rs.map t.reg, t.flags))

/-- The bytes at the physical addresses `as` after an instruction. -/
def memAfter (i : Instr) (s : State) (as : List Nat) : Option (List Byte) :=
  (nextState (exec i s)).map (fun t => as.map t.mem.read)

/-- The run state after an instruction. -/
def runAfter (i : Instr) (s : State) : Option RunState :=
  (nextState (exec i s)).map State.run

/-- V-ADD: 0x7FFF + 1 and 0x8000 + 0x8000. -/
theorem test_add :
    after (.add .al 2 (.reg 3)) (mach 0 [(2, 0x7FFF), (3, 1)]) [2] = some ([0x8000], zspcv 0b01101) ∧
    after (.add .al 2 (.reg 3)) (mach 0 [(2, 0x8000), (3, 0x8000)]) [2] = some ([0], zspcv 0b10011) := by
  decide

/-- V-FLAGRULE: `TF` and a condition. -/
theorem test_add_flag_rule :
    after (.add .al 2 (.reg 3)) (prefixed true none (mach 0 [(2, 0xFFFF), (3, 1)])) [2] = some ([0], zspcv 0) ∧
    after (.add .eq 2 (.reg 3)) (mach 0b10000 [(2, 0xFFFF), (3, 1)]) [2] = some ([0], zspcv 0b10000) ∧
    after (.add .eq 2 (.reg 3)) (prefixed true none (mach 0b10000 [(2, 0xFFFF), (3, 1)])) [2] = some ([0], zspcv 0b10010) ∧
    after (.add .eq 2 (.reg 3)) (prefixed true none (mach 0 [(2, 0xFFFF), (3, 1)])) [2] = some ([0xFFFF], zspcv 0) := by
  decide

/-- V-SUB: a borrow, no borrow, signed overflow. -/
theorem test_sub :
    after (.sub .al 2 (.reg 3)) (mach 0 [(2, 3), (3, 5)]) [2] = some ([0xFFFE], zspcv 0b01100) ∧
    after (.sub .al 2 (.reg 3)) (mach 0 [(2, 5), (3, 5)]) [2] = some ([0], zspcv 0b10010) ∧
    after (.sub .al 2 (.reg 3)) (mach 0 [(2, 0x7FFF), (3, 0xFFFF)]) [2] = some ([0x8000], zspcv 0b01101) := by
  decide

/-- V-MUL, the pairing with `DR R0` (the high half goes to R1) among them. -/
theorem test_mlu :
    after (.mlu .al 2 (.reg 3)) (mach 0b00011 [(2, 0xFFFF), (3, 0xFFFF)]) [2, 3] = some ([1, 0xFFFE], zspcv 0b00111) ∧
    after (.mlu .al 2 (.reg 3)) (prefixed false (some 0) (mach 0 [(2, 0x100), (3, 0x100)])) [0, 1] = some ([0, 1], zspcv 0b10000) := by
  decide

/-- V-MUL. -/
theorem test_mls :
    after (.mls .al 2 (.reg 3)) (mach 0 [(2, 0xFFFF), (3, 2)]) [2, 3] = some ([0xFFFE, 0xFFFF], zspcv 0b01100) ∧
    after (.mls .al 2 (.reg 3)) (mach 0 [(2, 0x8000), (3, 0xFFFF)]) [2, 3] = some ([0x8000, 0], zspcv 0b01100) := by
  decide

/-- V-DIV. -/
theorem test_dvu :
    after (.dvu .al 2 (.reg 3)) (mach 0 [(2, 0xFFFF), (3, 0x10)]) [2, 3] = some ([0xFFF, 0xF], zspcv 0) ∧
    runAfter (.dvu .al 2 (.reg 3)) (mach 0 [(2, 7)]) = some (.halted .arithmetic) := by
  decide

/-- V-DIV: truncation toward zero. -/
theorem test_dvs :
    after (.dvs .al 2 (.reg 3)) (mach 0 [(2, 0xFFF9), (3, 2)]) [2, 3] = some ([0xFFFD, 0xFFFF], zspcv 0b01100) ∧
    after (.dvs .al 2 (.reg 3)) (mach 0 [(2, 7), (3, 0xFFFE)]) [2, 3] = some ([0xFFFD, 1], zspcv 0b01100) ∧
    runAfter (.dvs .al 2 (.reg 3)) (mach 0 [(2, 0x8000), (3, 0xFFFF)]) = some (.halted .arithmetic) := by
  decide

/-- V-LOGIC: `CF` and `VF` stay. -/
theorem test_logic :
    after (.xor .al 2 (.reg 3)) (mach 0b00011 [(2, 0xF0F0), (3, 0x0FF0)]) [2] = some ([0xFF00], zspcv 0b01011) ∧
    after (.and .al 2 (.reg 3)) (mach 0 [(2, 0xF0F0), (3, 0x0FF0)]) [2] = some ([0xF0], zspcv 0) ∧
    after (.orr .al 2 (.reg 3)) (mach 0 [(2, 0x1234), (3, 0x1234)]) [2] = some ([0x1234], zspcv 0b00100) := by
  decide

/-- V-SHIFT: the count is not masked. -/
theorem test_shl :
    after (.shl .al 2 (.reg 3)) (mach 0b00011 [(2, 1), (3, 15)]) [2] = some ([0x8000], zspcv 0b01111) ∧
    after (.shl .al 2 (.reg 3)) (mach 0 [(2, 1), (3, 16)]) [2] = some ([0], zspcv 0b10000) := by
  decide

/-- V-SHIFT: `CF` at the counts 0, 1, 16 and 17. -/
theorem test_sru :
    after (.sru .al 2 (.reg 3)) (mach 0b00010 [(2, 0x8001)]) [2] = some ([0x8001], zspcv 0b01000) ∧
    after (.sru .al 2 (.reg 3)) (mach 0 [(2, 0x8001), (3, 1)]) [2] = some ([0x4000], zspcv 0b00110) ∧
    after (.sru .al 2 (.reg 3)) (mach 0 [(2, 0x8000), (3, 16)]) [2] = some ([0], zspcv 0b10010) ∧
    after (.sru .al 2 (.reg 3)) (mach 0 [(2, 0x8000), (3, 17)]) [2] = some ([0], zspcv 0b10000) := by
  decide

/-- V-SHIFT. -/
theorem test_srs :
    after (.srs .al 2 (.reg 3)) (mach 0 [(2, 0x8001), (3, 1)]) [2] = some ([0xC000], zspcv 0b01010) ∧
    after (.srs .al 2 (.reg 3)) (mach 0 [(2, 0x8000), (3, 100)]) [2] = some ([0xFFFF], zspcv 0b01010) ∧
    after (.srs .al 2 (.reg 3)) (mach 0 [(2, 0x7FFF), (3, 16)]) [2] = some ([0], zspcv 0b10000) := by
  decide

/-- V-MOV: `MOV ZERO, 0x8000`; `DR R5`. -/
theorem test_mov :
    after (.mov .al 0 (.imm 0x8000)) (mach 0 []) [0] = some ([0], zspcv 0b01100) ∧
    after (.mov .al 2 (.reg 3)) (prefixed false (some 5) (mach 0 [(3, 3)])) [5, 2] = some ([3, 0], zspcv 0) := by
  decide

/-- V-COND, fourth row. -/
theorem test_cmp :
    after (.cmp .al 2 (.reg 3)) (mach 0 [(2, 0x8000), (3, 1)]) [2] = some ([0x8000], zspcv 0b00111) ∧
    [Cond.gt, .le, .bg, .sm, .od].map (fun cc => condHolds cc (zspcv 0b00111)) = [true, false, false, true, true] := by
  decide

/-- V-MEM: `[0x2000] = 80 90`. -/
theorem test_ldw :
    after (.ldw .al 2 (.reg 3)) (mach 0 [(3, 0x2000)]) [2] = some ([0x9080], zspcv 0b01100) := by
  decide

theorem test_ldb :
    after (.ldb .al 2 (.imm 0x2000)) (mach 0 []) [2] = some ([0x80], zspcv 0b00100) := by
  decide

/-- V-MEM: a word across a page boundary. -/
theorem test_stw :
    memAfter (.stw .al 2 (.imm 0x1234)) (mach 0 [(2, 0x20FF)]) [0x20FE, 0x20FF, 0x2100, 0x2101] = some [0, 0x34, 0x12, 0] := by
  decide

theorem test_stb :
    memAfter (.stb .al 2 (.reg 7)) (mach 0 [(2, 0x2000), (7, 0x1250)]) [0x2000, 0x2001] = some [0x50, 0x90] := by
  decide

/-- V-CTRL (the state is that after the fetch). -/
theorem test_bra :
    after (.bra .al 3 (.imm 0x1010)) (mach 0 [(3, 1)]) [14, 15] = some ([0x1010, 1], zspcv 0) := by
  decide

theorem test_brr :
    after (.brr .ne 0xFFF9) (mach 0 [(14, 0x100D)]) [14] = some ([0x1006], zspcv 0) ∧
    after (.brr .ne 0xFFF9) (mach 0b10000 [(14, 0x100D)]) [14] = some ([0x100D], zspcv 0b10000) := by
  decide

/-- V-CTRL: `FCA RD, RA` reads its operands first. -/
theorem test_fca :
    after (.fca .al 13 (.reg 12)) (mach 0 [(12, 0x1234), (13, 3), (14, 0x1002)]) [14, 15, 12, 13] =
      some ([0x1234, 3, 0x1002, 0], zspcv 0) := by
  decide

theorem test_fcr :
    after (.fcr .al 0x0015) (mach 0 [(14, 0x100B)]) [14, 12, 13] = some ([0x1020, 0x100B, 0], zspcv 0) := by
  decide

/-- V-PORT: the byte 0x80; `VF` stays. -/
theorem test_rdb :
    after (.rdb .al 2 15) { mach 0b00011 [] with portAnswers := [⟨true, 0x80⟩] } [2] = some ([0x80], zspcv 0b00101) := by
  decide

theorem test_rdb_fails :
    (after (.rdb .al 2 0) { mach 0 [] with portAnswers := [⟨false, 0⟩] } []).map (fun p => p.2.cf) = some true := by
  decide

theorem test_wrb :
    after (.wrb .al 15 (.reg 3)) { mach 0b00010 [(3, 0xAB00)] with portAnswers := [⟨true, 0⟩] } [3] =
      some ([0xAB00], zspcv 0b10000) ∧
    after (.wrb .al 0 (.imm 0x41)) { mach 0 [] with portAnswers := [⟨false, 0⟩] } [] = some ([], zspcv 0b00010) := by
  decide

/-- The example of R192; a set that holds the pointer register itself. -/
theorem test_psh :
    memAfter (.psh .al 0x000C) (mach 0 [(11, 0x2100), (2, 0x1234), (3, 0xABCD)]) [0x20FC, 0x20FD, 0x20FE, 0x20FF] =
      some [0x34, 0x12, 0xCD, 0xAB] ∧
    memAfter (.psh .al 0x0804) (mach 0 [(11, 0x2100), (2, 0x1111)]) [0x20FC, 0x20FD, 0x20FE, 0x20FF] =
      some [0x11, 0x11, 0xFC, 0x20] := by
  decide

/-- V-STACK: `POP {ZERO, R2}` and a set that holds the pointer register itself. -/
theorem test_pop :
    after (.pop .al 0x0005) { mach 0 [(11, 0x2000)] with mem := (baseMem.write 0x2002 0x11).write 0x2003 0x22 } [11, 2] =
      some ([0x2004, 0x2211], zspcv 0) ∧
    after (.pop .al 0x0800) (mach 0 [(11, 0x2000)]) [11] = some ([0x9082], zspcv 0) := by
  decide

/-- V-INC: +1 over 0x7FFF, -1 under 0. -/
theorem test_inc :
    after (.inc .al 2 1) (mach 0 [(2, 0x7FFF)]) [2] = some ([0x8000], zspcv 0b01101) ∧
    after (.inc .al 2 (-1)) (mach 0 []) [2] = some ([0xFFFF], zspcv 0b01000) ∧
    after (.inc .al 2 (-1)) (mach 0 [(2, 1)]) [2] = some ([0], zspcv 0b10010) := by
  decide

theorem test_bpt_hlt_nop :
    runAfter (.bpt .al) (mach 0 []) = some .paused ∧ runAfter (.hlt .al) (mach 0 []) = some (.halted .instruction) ∧
    runAfter (.hlt .ne) (mach 0b10000 []) = some .running ∧ runAfter (.nop .al) (mach 0 []) = some .running := by
  decide

/-- V-PREFIX: two `TF` cancel, the last `DR` counts. -/
theorem test_prefixes :
    (nextState (exec .tf (prefixed true none (mach 0 [])))).map (fun t => t.decode.tf) = some false ∧
    (nextState (exec (.dr 5) (prefixed false (some 4) (mach 0 [])))).map (fun t => t.decode.rd) = some (some 5) ∧
    (nextState (exec .xc (mach 0 []))).map (fun t => (t.decode.xc, t.run)) = some (true, .running) := by
  decide

/-- V-ENC: a reserved opcode halts although its condition is false. -/
theorem test_reserved :
    runAfter (.reserved0E .eq) (mach 0 []) = some (.halted .decode) ∧
    runAfter (.reserved0F .al) (mach 0 []) = some (.halted .decode) ∧
    runAfter .reservedPrefixC5 (mach 0 []) = some (.halted .decode) := by
  decide

/-- One whole step: `E0 23` at 0x1000. -/
theorem test_step_add :
    (nextState (step (mach 0 [(2, 1), (3, 2)]))).map (fun t => (t.reg 2, t.pc, t.decode)) = some (3, 0x1002, DecodeState.empty) := by
  decide

/-- V-DPC: with `DPC = 1` the code bytes lie two apart. -/
theorem test_step_dpc :
    (nextState (step ((mach 0 [(15, 1)]).withFetchWord 32 0x12342FEC))).map (fun t => (t.reg 2, t.pc)) = some (0x1234, 0x1008) := by
  decide

/-- The worked example of R267: the entry of the handler for `F0 23` with `R3 = 0x3000`. -/
theorem test_step_page_fault :
    (nextState (step ((mach 0 [(3, 0x3000)]).withFetchWord 16 0x23F0))).map
      (fun t => ([2, 3, 4, 5, 6, 11, 12, 14].map t.reg, t.mmuEnabled, t.savedReg 3, t.savedReg 14)) =
      some ([0xFCC0, 0x3000, 0, 0xF000, 0x1002, 0xF000, 0xF0F0, 0x4000], false, 0x3000, 0x1000) := by
  decide

/-- The first step after reset runs the word placed for it (log 14). -/
theorem test_reset_fetch_word :
    (nextState (step (State.reset.withFetchWord 8 0xFE))).map (fun t => (t.run, t.pc)) = some (.halted .instruction, 0x1001) := by
  decide

/-- Without a program the first fetch after reset finds no page and no handler (R302, log 13). -/
theorem test_reset_without_program :
    (nextState (step State.reset)).map (fun t => t.run) = some (.halted .unmapped) := by
  decide

/-- Other parameters of R6 than the standard ones reach the machine: registers, MMU, memory, the answers of the ports. -/
theorem test_start_parameters :
    (State.start { Config.standard with resetRegs := Vector.ofFn (fun i => BitVec.ofNat 16 (i.val + 100)) }).reg 13 = 112 ∧
    (State.start { Config.standard with mmuAtStart := false }).translate 0x2200 .read = some 0x2200 ∧
    (State.start { Config.standard with initialMemory := [(0x2000, 7)] }).mem.read 0x2000 = 7 ∧
    (State.start { Config.standard with ports := [⟨true, 0x41⟩] }).portAnswers = [⟨true, 0x41⟩] ∧
    { Config.standard with haltCodes := some ⟨1, 2, 3, 4, 5⟩ }.haltCode .decode = some 4 := by
  decide

/-- The exception stack is the 0xA00 bytes below `EXC_STACK_TOP` (R5, R256): here 0xE600 to 0xEFFF. -/
theorem test_exc_stack : InExcStack Config.standard 0xEFFF ∧ InExcStack Config.standard 0xE600 :=
  ⟨⟨1, by decide⟩, ⟨0xA00, by decide⟩⟩

/-! ## Witnesses of the hypotheses of the statements -/

theorem witness_DecodeOfEncode :
    (Instr.add .al 15 (.reg 14)).wf = true ∧ (Instr.stb .ev 15 (.imm 0xFF)).wf = true ∧
    (Instr.inc .al 0 8).wf = true ∧ (Instr.inc .ng 15 (-8)).wf = true ∧ (Instr.dr 15).wf = true := by
  decide

theorem witness_EncodeOfDecode :
    Sys2Proof.decode .big false [0xE0, 0x2F, 0x12, 0x34, 0xFF] = .instr (.add .al 2 (.imm 0x1234)) ∧
    Sys2Proof.decode .little true [0xC0, 0x23] = .instr (.add .od 2 (.reg 3)) := by
  decide

theorem witness_DecoderTotal : 4 ≤ ([0xE0, 0x2F, 0x34, 0x12] : List Byte).length := by decide

/-- Both sides of each boundary: C1, C2, CF, D0 in prefix position; opcodes 0D, 0E, 0F, 10 elsewhere and after `XC`. -/
theorem witness_ReservedEncodings :
    word [0xC1] = .instr .tf ∧ word [0xC2] = .instr .reservedPrefixC2 ∧
    word [0xCF] = .instr .reservedPrefixCF ∧ word [0xD0] = .instr (.dr 0) ∧
    word [0xED, 0x23] = .instr (.cmp .al 2 (.reg 3)) ∧ word [0xEE] = .instr (.reserved0E .al) ∧
    word [0x0F] = .instr (.reserved0F .eq) ∧ word [0xF0, 0x23] = .instr (.ldw .al 2 (.reg 3)) ∧
    Sys2Proof.decode .little true [0xC2, 0x23] = .instr (.mlu .od 2 (.reg 3)) ∧
    Sys2Proof.decode .little true [0xCE] = .instr (.reserved0E .od) := by
  decide

/-- Three states over the test memory that meet the invariant: at an instruction boundary, with a load that faults placed at `PC`, and after a `TF`. -/
theorem mach_inv (s : State) (hs : s = mach 0 [(2, 5), (3, 0x3000)] ∨ s = (mach 0 [(2, 5), (3, 0x3000)]).withFetchWord 16 0x23F0 ∨
    s = prefixed true none (mach 0 [(2, 5), (3, 0x3000)])) : s.Inv := by
  rcases hs with rfl | rfl | rfl <;>
    exact ⟨by decide, by decide, by decide, by decide, by decide, by decide, by decide, fun _ h => (nomatch h), by decide⟩

/-- A conditional instruction without `TF`, and an unconditional one with it. -/
theorem witness_FlagsKept :
    (mach 0 [(2, 5), (3, 0x3000)]).Inv ∧
    (nextState (exec (.add .ne 2 (.reg 3)) (mach 0 [(2, 5), (3, 0x3000)]))).map State.active = some .normal ∧
    (prefixed true none (mach 0 [(2, 5), (3, 0x3000)])).Inv ∧
    (nextState (exec (.add .al 2 (.reg 3)) (prefixed true none (mach 0 [(2, 5), (3, 0x3000)])))).map State.active =
      some .normal :=
  ⟨mach_inv _ (.inl rfl), by decide, mach_inv _ (.inr (.inr rfl)), by decide⟩

theorem witness_FalseCondition :
    (Instr.stw .eq 2 (.reg 3)).cond? = some .eq ∧ (Instr.stw .eq 2 (.reg 3)).isReserved = false ∧
    condHolds .eq (mach 0 []).flags = false := by
  decide

/-! The statements whose only hypothesis is that the condition holds: an unconditional instruction, and (for `AddResult`) a conditional one. -/

theorem witness_AddResult : condHolds .al (mach 0 [(2, 0x7FFF), (3, 1)]).flags = true ∧ condHolds .be (mach 0b01001 [(2, 0x7FFF), (3, 1)]).flags = true := by decide

theorem witness_SubResult : condHolds .al (mach 0 [(2, 3), (3, 5)]).flags = true := by decide

theorem witness_CmpResult : condHolds .al (mach 0 [(2, 0x8000), (3, 1)]).flags = true := by decide

theorem witness_MluResult : condHolds .al (mach 0 [(2, 0xFFFF), (3, 0xFFFF)]).flags = true := by decide

theorem witness_MlsResult : condHolds .al (mach 0 [(2, 0x8000), (3, 0xFFFF)]).flags = true := by decide

theorem witness_BitwiseResults : condHolds .al (mach 0 [(2, 0xF0F0), (3, 0x0FF0)]).flags = true := by decide

theorem witness_ShlResult : condHolds .al (mach 0 [(2, 1), (3, 16)]).flags = true := by decide

theorem witness_SruResult : condHolds .al (mach 0 [(2, 0x8000), (3, 16)]).flags = true := by decide

theorem witness_SrsResult : condHolds .al (mach 0 [(2, 0x8000), (3, 17)]).flags = true := by decide

theorem witness_MovResult : condHolds .al (mach 0 [(3, 0x8000)]).flags = true := by decide

theorem witness_BraResult : condHolds .al (mach 0 [(3, 1)]).flags = true := by decide

theorem witness_BrrResult : condHolds .al (mach 0 [(14, 0xFFFD)]).flags = true := by decide

theorem witness_FcaResult : condHolds .al (mach 0 [(12, 0x1234), (13, 3)]).flags = true := by decide

theorem witness_FcrResult : condHolds .al (mach 0 [(14, 0x100B)]).flags = true := by decide

theorem witness_WrbResult : condHolds .al (mach 0 [(3, 0xAB00)]).flags = true := by decide

theorem witness_BptHltNopResults : condHolds .al (mach 0 []).flags = true := by decide

/-- A statement with a result is not about the empty choice of flags: each of the two cases of `FlagsAfter` arises. -/
theorem witness_FlagsAfter :
    ((Cond.al = .al) ↔ (mach 0 []).decode.tf = false) ∧ ¬ ((Cond.ne = .al) ↔ (mach 0 []).decode.tf = false) := by
  decide

theorem witness_IncResult :
    simm4Wf 8 = true ∧ simm4Wf 1 = true ∧ simm4Wf (-1) = true ∧ simm4Wf (-8) = true ∧
    condHolds .al (mach 0 [(2, 0x7FFF)]).flags = true := by
  decide

theorem witness_CompareThenCondition :
    condHolds .al (mach 0 [(2, 5)]).flags = true ∧ ((Cond.al = .al) ↔ (mach 0 [(2, 5)]).decode.tf = false) ∧
    condHolds .ne (mach 0 [(2, 5)]).flags = true ∧
    ((Cond.ne = .al) ↔ (prefixed true none (mach 0 [(2, 5)])).decode.tf = false) := by
  decide

theorem witness_DvuResult :
    condHolds .al (mach 0 [(2, 7), (3, 2)]).flags = true ∧ (mach 0 [(2, 7), (3, 2)]).vy (.reg 3) ≠ 0 := by
  decide

/-- Both roundings; -32768 by 1 does not halt. -/
theorem witness_DvsResult :
    condHolds .al (mach 0 [(2, 0x8000), (3, 1)]).flags = true ∧ (mach 0 [(2, 0x8000), (3, 1)]).vy (.reg 3) ≠ 0 ∧
    ¬ ((mach 0 [(2, 0x8000), (3, 1)]).reg 2 = 0x8000 ∧ (mach 0 [(2, 0x8000), (3, 1)]).vy (.reg 3) = 0xFFFF) ∧
    (mach 0 []).config.dvsRounding = .trunc ∧
    after (.dvs .al 2 (.imm 2))
      { mach 0 [(2, 0xFFF9)] with config := { Config.standard with dvsRounding := .floor } } [2, 3] =
      some ([0xFFFC, 1], zspcv 0b01000) := by
  decide

theorem witness_DivisionHalts :
    condHolds .al (mach 0 [(2, 0x8000)]).flags = true ∧ (mach 0 [(2, 0x8000)]).vy (.imm 0) = 0 ∧
    (mach 0 [(2, 0x8000)]).reg 2 = 0x8000 ∧ (mach 0 [(2, 0x8000)]).vy (.imm 0xFFFF) = 0xFFFF := by
  decide

/-- A word within a page and a word across two pages. -/
theorem witness_LdwResult :
    condHolds .al (mach 0 []).flags = true ∧
    (mach 0 []).loadBytes ((mach 0 []).vy (.imm 0x2000)) 2 = some [0x80, 0x90] ∧
    (mach 0 []).loadBytes ((mach 0 []).vy (.imm 0x20FF)) 2 = some [0, 0] := by
  decide

theorem witness_LdbResult :
    condHolds .al (mach 0 []).flags = true ∧ (mach 0 []).translate ((mach 0 []).vy (.imm 0x2001)) .read = some 0x2001 ∧
    (mach 0 []).accessible 0x2001 = true := by
  decide

theorem witness_StwResult :
    condHolds .al (mach 0 [(2, 0x20FF)]).flags = true ∧
    ((mach 0 [(2, 0x20FF)]).storeBytes ((mach 0 [(2, 0x20FF)]).reg 2) (wordBytes .little ((mach 0 []).vy (.imm 0x1234)))).map
      (fun u => [0x20FF, 0x2100].map u.mem.read) = some [0x34, 0x12] ∧
    (mach 0 [(2, 0x20FF)]).storeTargets 0x20FF (wordBytes .little 0x1234) = [0x20FF, 0x2100] := by
  decide

theorem witness_StbResult :
    condHolds .al (mach 0 [(2, 0x2000)]).flags = true ∧
    (mach 0 [(2, 0x2000)]).translate ((mach 0 [(2, 0x2000)]).reg 2) .write = some 0x2000 ∧
    (mach 0 [(2, 0x2000)]).accessible 0x2000 = true := by
  decide

/-- Mapped and unmapped with the MMU enabled, the MMU disabled, an allowed and a denied page. -/
theorem witness_TranslationRule :
    (mach 0 []).mmuEnabled = true ∧ (mach 0 []).translate 0x21FF .write = some 0x21FF ∧
    (mach 0 []).translate 0x2200 .write = none ∧
    { mach 0 [] with mmuEnabled := false }.translate 0x2200 .write = some 0x2200 ∧
    (mach 0 []).config.physCheck = .always ∧ (mach 0 []).accessible 0x2100 = true ∧
    (mach 0 []).accessible 0x5000 = false := by
  decide

theorem witness_RdbSuccess :
    condHolds .al { mach 0 [] with portAnswers := [⟨true, 0x41⟩] }.flags = true ∧
    ({ mach 0 [] with portAnswers := [⟨true, 0x41⟩] }.portAnswer 0 none).ok = true := by
  decide

theorem witness_RdbFailure :
    condHolds .al { mach 0 [] with portAnswers := [⟨false, 0⟩] }.flags = true ∧
    ({ mach 0 [] with portAnswers := [⟨false, 0⟩] }.portAnswer 0 none).ok = false := by
  decide

/-- A set that holds its pointer register, across two pages. -/
theorem witness_PshResult :
    condHolds .al (mach 0 [(11, 0x2101), (2, 0x1111)]).flags = true ∧
    (((mach 0 [(11, 0x2101), (2, 0x1111)]).setReg Reg.sp (0x2101 - BitVec.ofNat 16 (2 * popcnt 0x0804))).storeBytes 0x20FD
      (((mach 0 [(11, 0x2101), (2, 0x1111)]).setReg Reg.sp 0x20FD).regBytes (regList 0x0804))).map
      (fun u => [0x20FD, 0x20FE, 0x20FF, 0x2100].map u.mem.read) = some [0x11, 0x11, 0xFD, 0x20] := by
  decide

/-- A set that holds its pointer register, and the empty set. -/
theorem witness_PopResult :
    condHolds .al (mach 0 [(11, 0x2000)]).flags = true ∧
    (mach 0 [(11, 0x2000)]).loadBytes ((mach 0 [(11, 0x2000)]).reg Reg.sp) (2 * popcnt 0x0800) = some [0x80, 0x90] ∧
    (mach 0 [(11, 0x2000)]).loadBytes ((mach 0 [(11, 0x2000)]).reg Reg.sp) (2 * popcnt 0) = some [] := by
  decide

theorem witness_ReservedHalt :
    (Instr.reserved0E .eq).isReserved = true ∧ (Instr.reserved0F .al).isReserved = true ∧
    Instr.reservedPrefixC2.isReserved = true ∧ Instr.reservedPrefixCF.isReserved = true := by
  decide

/-- The first byte at 0x3000, and the second byte at 0x2200. -/
theorem witness_LoadFault :
    condHolds .al (mach 0 []).flags = true ∧
    (mach 0 []).translate 0x3000 .read = none ∧ (mach 0 []).handlerPage 0x3000 ≠ 0 ∧
    (mach 0 []).translate 0x21FF .read = some 0x21FF ∧ (mach 0 []).accessible 0x21FF = true ∧
    (mach 0 []).translate (0x21FF + 1) .read = none ∧ (mach 0 []).handlerPage (0x21FF + 1) ≠ 0 := by
  decide

theorem witness_StoreFault :
    condHolds .al (mach 0 [(2, 0x21FF)]).flags = true ∧
    (mach 0 [(2, 0x3000)]).translate ((mach 0 [(2, 0x3000)]).reg 2) .write = none ∧
    (mach 0 [(2, 0x3000)]).handlerPage ((mach 0 [(2, 0x3000)]).reg 2) ≠ 0 ∧
    (mach 0 [(2, 0x21FF)]).translate ((mach 0 [(2, 0x21FF)]).reg 2) .write = some 0x21FF ∧
    (mach 0 [(2, 0x21FF)]).accessible 0x21FF = true ∧
    ((mach 0 [(2, 0x21FF)]).rawWrite 0x21FF 0x34).translate (0x21FF + 1) .write = none ∧
    ((mach 0 [(2, 0x21FF)]).rawWrite 0x21FF 0x34).handlerPage (0x21FF + 1) ≠ 0 := by
  decide

/-- The first and the last byte of the two words of `PSH` and of `POP`, each at 0x2200. -/
theorem witness_StackFault :
    condHolds .al (mach 0 [(11, 0x2204)]).flags = true ∧ 3 < 2 * popcnt 0x000C ∧
    ((mach 0 [(11, 0x2200)]).translate 0x2200 .write = none ∧ (mach 0 [(11, 0x2200)]).handlerPage 0x2200 ≠ 0) ∧
    ((mach 0 [(11, 0x21FD), (2, 0x1122), (3, 0x3344)]).storeBytes 0x21FD
      (((mach 0 [(11, 0x21FD), (2, 0x1122), (3, 0x3344)]).regBytes (regList 0x000C)).take 3)).map
      (fun w => (w.translate (0x21FD + BitVec.ofNat 16 3) .write, w.handlerPage (0x21FD + BitVec.ofNat 16 3),
        [0x21FD, 0x21FE, 0x21FF].map w.mem.read)) = some (none, 0x40, [0x22, 0x11, 0x44]) ∧
    ((mach 0 [(11, 0x2200)]).translate 0x2200 .read = none ∧
      (mach 0 [(11, 0x2200)]).handlerPage ((mach 0 [(11, 0x2200)]).reg Reg.sp) ≠ 0) ∧
    (mach 0 [(11, 0x21FD)]).loadBytes 0x21FD 3 = some [0, 0, 0xE0] ∧
    ((mach 0 [(11, 0x21FD)]).setRegs (regList 0x000C) (bytesToWords .little [0, 0, 0xE0])).translate
      (0x21FD + BitVec.ofNat 16 3) .read = none ∧
    ((mach 0 [(11, 0x21FD)]).setRegs (regList 0x000C) (bytesToWords .little [0, 0, 0xE0])).handlerPage
      (0x21FD + BitVec.ofNat 16 3) ≠ 0 := by
  decide

/-- No byte fetched yet, or one, at an address from which a fetch starts. -/
theorem fetched_none (s : State) (hs : s = mach 0 [(14, 0x3000)] ∨ s = mach 0 [(14, 0x2300)] ∨ s = mach 0 [(14, 0x5000)]) :
    Fetched s s.beginInstr [] := by
  rcases hs with rfl | rfl | rfl <;> exact ⟨by decide, by decide, rfl, by decide⟩

/-- The first byte of an instruction in page 0x30, and its second byte at 0x2200. -/
theorem witness_FetchFault :
    (Fetched (mach 0 [(14, 0x3000)]) (mach 0 [(14, 0x3000)]).beginInstr [] ∧ word [] = .more ∧
      (mach 0 [(14, 0x3000)]).beginInstr.translate 0x3000 .execute = none ∧
      (mach 0 [(14, 0x3000)]).beginInstr.handlerPage 0x3000 ≠ 0) ∧
    Fetched (mach 0 [(14, 0x21FF)]) (mach 0 [(14, 0x21FF)]).beginInstr.advancePc [0xE0] ∧ word [0xE0] = .more ∧
    (mach 0 [(14, 0x21FF)]).beginInstr.advancePc.pc = 0x2200 ∧
    (mach 0 [(14, 0x21FF)]).beginInstr.advancePc.translate 0x2200 .execute = none ∧
    (mach 0 [(14, 0x21FF)]).beginInstr.advancePc.handlerPage 0x2200 ≠ 0 :=
  ⟨⟨fetched_none _ (.inl rfl), by decide, by decide, by decide⟩, ⟨by decide, by decide, rfl, by decide⟩,
    by decide, by decide, by decide, by decide⟩

/-- The machine over `mem` with `R2` at the last byte of the page before `va`, `R3` at `va`, and the pointer `sp`. -/
def atEdge (mem : Memory) (va sp : Word) : State :=
  { mach 0 [(2, va - 1), (3, va), (4, 0x1234), (11, sp)] with mem := mem }

/-- `LDB` and `STB` at 0x1100, and the second byte of `LDW`, `STW`, `PSH` and `POP`, in a page that has nothing; a code byte in such a page. -/
theorem witness_UnmappedHalt :
    DataAccess (.ldw .al 5 (.reg 2)) (atEdge baseMem 0x1100 0x10FF) (atEdge baseMem 0x1100 0x10FF) 0x1100 .read ∧
    DataAccess (.ldb .al 5 (.reg 3)) (atEdge baseMem 0x1100 0x10FF) (atEdge baseMem 0x1100 0x10FF) 0x1100 .read ∧
    DataAccess (.stw .al 2 (.reg 4)) (atEdge baseMem 0x1100 0x10FF)
      ((atEdge baseMem 0x1100 0x10FF).rawWrite 0x10FF 0x34) 0x1100 .write ∧
    DataAccess (.stb .al 3 (.reg 4)) (atEdge baseMem 0x1100 0x10FF) (atEdge baseMem 0x1100 0x10FF) 0x1100 .write ∧
    DataAccess (.psh .al 0x0010) (atEdge baseMem 0x1100 0x1101)
      ((atEdge baseMem 0x1100 0x10FF).rawWrite 0x10FF 0x34) 0x1100 .write ∧
    DataAccess (.pop .al 0x0010) (atEdge baseMem 0x1100 0x10FF)
      ((atEdge baseMem 0x1100 0x10FF).setRegs (regList 0x0010) (bytesToWords .little [0])) 0x1100 .read ∧
    condHolds .al (atEdge baseMem 0x1100 0x10FF).flags = true ∧
    (∀ w ∈ [atEdge baseMem 0x1100 0x10FF, (atEdge baseMem 0x1100 0x10FF).rawWrite 0x10FF 0x34,
        (atEdge baseMem 0x1100 0x10FF).setRegs (regList 0x0010) (bytesToWords .little [0])],
      w.translate 0x1100 .read = none ∧ w.translate 0x1100 .write = none ∧ w.handlerPage 0x1100 = 0) ∧
    Fetched (mach 0 [(14, 0x2300)]) (mach 0 [(14, 0x2300)]).beginInstr [] ∧ word [] = .more ∧
    (mach 0 [(14, 0x2300)]).beginInstr.translate 0x2300 .execute = none ∧
    (mach 0 [(14, 0x2300)]).beginInstr.handlerPage 0x2300 = 0 :=
  ⟨.ldw 1 [0] (by decide) (by decide), .ldb, .stw 1 (by decide) rfl, .stb, .psh 1 rfl (by decide) rfl,
    .pop 1 [0] (by decide) (by decide), by decide, by decide, fetched_none _ (.inr (.inl rfl)), by decide, by decide,
    by decide⟩

/-- `baseMem` with page 0x21 not allowed. -/
def deniedMem : Memory := baseMem.write 0x0121 0

/-- `LDB` and `STB` at 0x2100, and the second byte of `LDW`, `STW`, `PSH` and `POP`, in a page that is mapped but not allowed; a code byte in such a page. -/
theorem witness_DoubleFaultHalt :
    DataAccess (.ldw .al 5 (.reg 2)) (atEdge deniedMem 0x2100 0x20FF) (atEdge deniedMem 0x2100 0x20FF) 0x2100 .read ∧
    DataAccess (.ldb .al 5 (.reg 3)) (atEdge deniedMem 0x2100 0x20FF) (atEdge deniedMem 0x2100 0x20FF) 0x2100 .read ∧
    DataAccess (.stw .al 2 (.reg 4)) (atEdge deniedMem 0x2100 0x20FF)
      ((atEdge deniedMem 0x2100 0x20FF).rawWrite 0x20FF 0x34) 0x2100 .write ∧
    DataAccess (.stb .al 3 (.reg 4)) (atEdge deniedMem 0x2100 0x20FF) (atEdge deniedMem 0x2100 0x20FF) 0x2100 .write ∧
    DataAccess (.psh .al 0x0010) (atEdge deniedMem 0x2100 0x2101)
      ((atEdge deniedMem 0x2100 0x20FF).rawWrite 0x20FF 0x34) 0x2100 .write ∧
    DataAccess (.pop .al 0x0010) (atEdge deniedMem 0x2100 0x20FF)
      ((atEdge deniedMem 0x2100 0x20FF).setRegs (regList 0x0010) (bytesToWords .little [0])) 0x2100 .read ∧
    condHolds .al (atEdge deniedMem 0x2100 0x20FF).flags = true ∧
    (∀ w ∈ [atEdge deniedMem 0x2100 0x20FF, (atEdge deniedMem 0x2100 0x20FF).rawWrite 0x20FF 0x34,
        (atEdge deniedMem 0x2100 0x20FF).setRegs (regList 0x0010) (bytesToWords .little [0])],
      w.translate 0x2100 .read = some 0x2100 ∧ w.translate 0x2100 .write = some 0x2100 ∧ w.accessible 0x2100 = false) ∧
    Fetched (mach 0 [(14, 0x5000)]) (mach 0 [(14, 0x5000)]).beginInstr [] ∧ word [] = .more ∧
    (mach 0 [(14, 0x5000)]).beginInstr.translate 0x5000 .execute = some 0x5000 ∧
    (mach 0 [(14, 0x5000)]).beginInstr.accessible 0x5000 = false :=
  ⟨.ldw 1 [0] (by decide) (by decide), .ldb, .stw 1 (by decide) rfl, .stb, .psh 1 rfl (by decide) rfl,
    .pop 1 [0] (by decide) (by decide), by decide, by decide, fetched_none _ (.inr (.inr rfl)), by decide, by decide,
    by decide⟩

/-- An instruction at 0x1000, two bytes long, suspended in the middle of `work`. -/
def suspendedAt (work : Work) : Suspended where
  insnPc := 0x1000
  livePc := 0x1002
  va := 0x3000
  access := .read
  decode := { DecodeState.empty with insnPc := some 0x1000 }
  work := work

/-- The machine while the handler of that instruction runs, its `PC` and `R2` given; the saved `PC` is 0x1000 and every other saved register 0. -/
def inHandler (pc r2 : Word) (work : Work) : State :=
  { mach 0 [(14, 0x1002)] with
    active := .exception
    mmuEnabled := false
    mem := baseMem.write 0xF01D 0x10
    exception := { Context.clean with regs := ((Vector.replicate 16 0).set 14 pc).set 2 r2 }
    suspended := some (suspendedAt work) }

/-- The byte load of `LDB R2`. -/
def loadWork : Work := .data (.loadByte 0x3000) [.finishLoad 2 true] []

/-- The handler marks its instruction complete by `saved_regs[ZERO]`, or by a modified `saved_regs[PC]`. -/
theorem witness_ReturnCompleted :
    (AtReturn { inHandler 0xF0F0 0 loadWork with mem := baseMem.write 0xF000 1 } (suspendedAt loadWork) ∧
      ¬ NotCompleted { inHandler 0xF0F0 0 loadWork with mem := baseMem.write 0xF000 1 } (suspendedAt loadWork)) ∧
    AtReturn { inHandler 0xF0F0 0 loadWork with mem := baseMem.write 0xF01D 0x11 } (suspendedAt loadWork) ∧
    ¬ NotCompleted { inHandler 0xF0F0 0 loadWork with mem := baseMem.write 0xF01D 0x11 } (suspendedAt loadWork) :=
  ⟨⟨⟨rfl, rfl, by decide, rfl, rfl⟩, fun h => absurd h.1 (by decide)⟩, ⟨rfl, rfl, by decide, rfl, rfl⟩,
    fun h => absurd h.2 (by decide)⟩

/-- A return that has not marked its instruction complete, whatever the access. -/
theorem at_return (r2 : Word) (work : Work) :
    AtReturn (inHandler 0xF0F0 r2 work) (suspendedAt work) ∧ NotCompleted (inHandler 0xF0F0 r2 work) (suspendedAt work) :=
  ⟨⟨rfl, rfl, rfl, rfl, rfl⟩, (by decide : (inHandler 0xF0F0 0 loadWork).savedReg 0 = 0),
    (by decide : (inHandler 0xF0F0 0 loadWork).savedReg Reg.pc = 0x1000)⟩

/-- Every kind of work, answered by the accessible 0x2000 or by the inaccessible 0x5000; the second byte of `LDW` and `STW` at 0x2001, where it can be accessed, and at 0x2200, which has only a handler. -/
theorem witness_ReturnResumesAccess :
    (∀ work ∈ [loadWork, .data (.loadByte 0x3000) [.finishLoad 2 true] [0x12],
        .data (.loadByte 0x2000) [.loadByte (0x2000 + 1), .finishLoad 2 false] [],
        .data (.loadByte 0x21FF) [.loadByte (0x21FF + 1), .finishLoad 2 true] [],
        .data (.storeByte 0x3000 7) [] [], .data (.storeByte 0x2000 7) [.storeByte (0x2000 + 1) 8] [],
        .data (.storeByte 0x21FF 7) [.storeByte (0x21FF + 1) 8] [],
        .data (.storeLatch 0x3000) [.storeLatch (0x3000 + 1)] [7, 8]],
      (suspendedAt work).work = work ∧
      (AtReturn (inHandler 0xF0F0 0x2000 work) (suspendedAt work) ∧
        NotCompleted (inHandler 0xF0F0 0x2000 work) (suspendedAt work)) ∧
      ((inHandler 0xF0F0 0x2000 work).returnFromHandler (suspendedAt work)).accessible 0x2000 = true ∧
      (AtReturn (inHandler 0xF0F0 0x5000 work) (suspendedAt work) ∧
        NotCompleted (inHandler 0xF0F0 0x5000 work) (suspendedAt work)) ∧
      ((inHandler 0xF0F0 0x5000 work).returnFromHandler (suspendedAt work)).accessible 0x5000 = false) ∧
    ((inHandler 0xF0F0 0x2000 loadWork).returnFromHandler (suspendedAt loadWork)).loadBytes (0x2000 + 1) 1 = some [0x90] ∧
    (((inHandler 0xF0F0 0x2000 loadWork).returnFromHandler (suspendedAt loadWork)).rawWrite 0x2000 7).storeBytes
      (0x2000 + 1) [8] = some ((((inHandler 0xF0F0 0x2000 loadWork).returnFromHandler (suspendedAt loadWork)).rawWrite
        0x2000 7).rawWrite 0x2001 8) ∧
    (∀ x ∈ [(inHandler 0xF0F0 0x2000 loadWork).returnFromHandler (suspendedAt loadWork),
        ((inHandler 0xF0F0 0x2000 loadWork).returnFromHandler (suspendedAt loadWork)).rawWrite 0x2000 7],
      x.translate (0x21FF + 1) .read = none ∧ x.translate (0x21FF + 1) .write = none ∧ x.handlerPage (0x21FF + 1) ≠ 0) :=
  ⟨fun work _ => ⟨rfl, at_return _ _, (by decide : ((inHandler 0xF0F0 0x2000 loadWork).returnFromHandler
      (suspendedAt loadWork)).accessible 0x2000 = true), at_return _ _,
      (by decide : ((inHandler 0xF0F0 0x5000 loadWork).returnFromHandler (suspendedAt loadWork)).accessible 0x5000 = false)⟩,
    by decide, by decide, by decide⟩

/-- `PSH` or `POP` of `R2` and `R3` at the pointer `sp`; page 0x1F has only a handler. -/
def stackMach (sp : Word) : State :=
  { mach 0 [(2, 0x1122), (3, 0x3344), (11, sp)] with mem := baseMem.write 0xFC7F 0x40 }

/-- The machine after the instruction `i` at `stackMach sp`. -/
def stackAfter (i : Instr) (sp : Word) : State :=
  (nextState (exec i (stackMach sp))).getD (stackMach sp)

/-- The suspended instruction there. -/
def stackSuspended (i : Instr) (sp : Word) : Suspended :=
  (stackAfter i sp).suspended.getD (suspendedAt (.fetch []))

/-- Its handler about to return, with the physical address 0x2100. -/
def stackReturn (i : Instr) (sp : Word) : State :=
  ((stackAfter i sp).setReg Reg.pc 0xF0F0).setReg 2 0x2100

/-- The machine that the handler returns to. -/
def stackLeft (i : Instr) (sp : Word) : State :=
  (stackReturn i sp).returnFromHandler (stackSuspended i sp)

/-- What the two cases of `witness_ReturnResumesStack` have in common. -/
theorem stack_return (i : Instr) (sp : Word)
    (hi : (i, sp) ∈ [(Instr.psh .al 0x000C, (0x2003 : Word)), (.psh .al 0x000C, 0x2203), (.pop .al 0x000C, 0x1FFF),
      (.pop .al 0x000C, 0x21FF)]) :
    exec i (stackMach sp) = .next (stackAfter i sp) ∧ (stackAfter i sp).suspended = some (stackSuspended i sp) ∧
    AtReturn (stackReturn i sp) (stackSuspended i sp) ∧ NotCompleted (stackReturn i sp) (stackSuspended i sp) ∧
    (stackReturn i sp).config = (stackMach sp).config ∧
    (stackLeft i sp).accessible ((stackReturn i sp).reg 2) = true := by
  simp only [List.mem_cons, Prod.mk.injEq, List.not_mem_nil, or_false] at hi
  rcases hi with ⟨rfl, rfl⟩ | ⟨rfl, rfl⟩ | ⟨rfl, rfl⟩ | ⟨rfl, rfl⟩ <;>
    exact ⟨rfl, by decide, ⟨by decide, by decide, by decide, by decide, by decide⟩, ⟨by decide, by decide⟩, by decide,
      by decide⟩

/-- Each interrupted at its first byte, at 0x1FFF, with the later bytes in page 0x20; and at its second byte, at 0x2200, with the next byte at 0x2201 faulting again. -/
theorem witness_ReturnResumesStack :
    (((stackMach 0x2003).setReg Reg.sp (0x2003 - BitVec.ofNat 16 (2 * popcnt 0x000C))).regBytes (regList 0x000C) =
        [0x22, 0x11, 0x44, 0x33] ∧
      ((stackMach 0x1FFF).translate (0x1FFF + BitVec.ofNat 16 0) .write = none ∧
        (stackMach 0x1FFF).handlerPage (0x1FFF + BitVec.ofNat 16 0) ≠ 0) ∧
      (((stackLeft (.psh .al 0x000C) 0x2003).rawWrite 0x2100 0x22).storeBytes (0x1FFF + BitVec.ofNat 16 (0 + 1))
        ((([0x22, 0x11, 0x44, 0x33] : List Byte).drop (0 + 1)).take ((0 + 1) % 2) ++
          (stackLeft (.psh .al 0x000C) 0x2003).regBytes ((regList 0x000C).drop (0 / 2 + 1)))).map
        (fun y => [0x2000, 0x2001, 0x2002, 0x2100].map y.mem.read) = some [0x11, 0x44, 0x33, 0x22] ∧
      ((stackMach 0x21FF).storeBytes 0x21FF [0x22]).map (fun w => (w.translate (0x21FF + BitVec.ofNat 16 1) .write,
        w.handlerPage (0x21FF + BitVec.ofNat 16 1))) = some (none, 0x40) ∧
      ((stackLeft (.psh .al 0x000C) 0x2203).rawWrite 0x2100 0x11).translate (0x21FF + BitVec.ofNat 16 2) .write = none ∧
      ((stackLeft (.psh .al 0x000C) 0x2203).rawWrite 0x2100 0x11).handlerPage (0x21FF + BitVec.ofNat 16 2) ≠ 0) ∧
    (((stackMach 0x1FFF).translate (0x1FFF + BitVec.ofNat 16 0) .read = none ∧
        (stackMach 0x1FFF).handlerPage (0x1FFF + BitVec.ofNat 16 0) ≠ 0) ∧
      (stackLeft (.pop .al 0x000C) 0x1FFF).loadBytes (0x1FFF + BitVec.ofNat 16 (0 + 1)) (2 * popcnt 0x000C - (0 + 1)) =
        some [0x80, 0x90, 0] ∧
      (stackMach 0x21FF).loadBytes 0x21FF 1 = some [0xE0] ∧
      ((stackMach 0x21FF).setRegs (regList 0x000C) (bytesToWords .little [0xE0])).translate
        (0x21FF + BitVec.ofNat 16 1) .read = none ∧
      ((stackMach 0x21FF).setRegs (regList 0x000C) (bytesToWords .little [0xE0])).handlerPage
        (0x21FF + BitVec.ofNat 16 1) ≠ 0 ∧
      ((stackLeft (.pop .al 0x000C) 0x21FF).setRegs ((regList 0x000C).drop (1 / 2))
        (bytesToWords .little ([0xE0, 0] ++ []))).translate (0x21FF + BitVec.ofNat 16 2) .read = none ∧
      ((stackLeft (.pop .al 0x000C) 0x21FF).setRegs ((regList 0x000C).drop (1 / 2))
        (bytesToWords .little ([0xE0, 0] ++ []))).handlerPage (0x21FF + BitVec.ofNat 16 2) ≠ 0) := by
  decide

/-- A return with the physical address 0x4000 and a saved `DPC` of 0x2000. -/
def stridedReturn : State :=
  { inHandler 0xF0F0 0x4000 (.fetch [0xE0]) with mem := (baseMem.write 0xF01D 0x10).write 0xF01F 0x20 }

/-- `E0` has been fetched; the next code byte is answered by 0x2000, or by the inaccessible 0x5000. -/
theorem witness_ReturnResumesFetch :
    (∀ r2, AtReturn (inHandler 0xF0F0 r2 (.fetch [0xE0])) (suspendedAt (.fetch [0xE0])) ∧
      NotCompleted (inHandler 0xF0F0 r2 (.fetch [0xE0])) (suspendedAt (.fetch [0xE0]))) ∧
    ((inHandler 0xF0F0 0x2000 (.fetch [0xE0])).returnFromHandler (suspendedAt (.fetch [0xE0]))).accessible 0x2000 = true ∧
    ((inHandler 0xF0F0 0x5000 (.fetch [0xE0])).returnFromHandler (suspendedAt (.fetch [0xE0]))).accessible 0x5000 = false ∧
    word ([0xE0] ++ [(inHandler 0xF0F0 0x2000 (.fetch [0xE0])).rawRead 0x2000]) = .instr (.add .al 8 (.reg 0)) :=
  ⟨fun r2 => at_return r2 _, by decide, by decide, by decide⟩

/-- The case of `Obligations.ReturnResumesFetch` with further bytes: 0x4000 holds `FF`, and an immediate follows at 0x1003. -/
theorem witness_ReturnResumesFetch_more :
    ((inHandler 0xF0F0 0x4000 (.fetch [0xE0])).returnFromHandler (suspendedAt (.fetch [0xE0]))).accessible 0x4000 = true ∧
    [0xE0] ++ [(inHandler 0xF0F0 0x4000 (.fetch [0xE0])).rawRead 0x4000] = [0xE0, 0xFF] ∧
    ((inHandler 0xF0F0 0x4000 (.fetch [0xE0])).returnFromHandler (suspendedAt (.fetch [0xE0]))).advancePc.pc = 0x1003 ∧
    (((inHandler 0xF0F0 0x4000 (.fetch [0xE0])).returnFromHandler (suspendedAt (.fetch [0xE0]))).setReg Reg.pc
      0x1003).fetchBytes 2 = some ([0, 0], ((inHandler 0xF0F0 0x4000 (.fetch [0xE0])).returnFromHandler
        (suspendedAt (.fetch [0xE0]))).setReg Reg.pc 0x1005) ∧
    word [0xE0, 0xFF] = .more ∧ word [0xE0, 0xFF, 0] = .more ∧ word [0xE0, 0xFF, 0, 0] = .instr (.add .al 15 (.imm 0)) := by
  decide

/-- The last case of `Obligations.ReturnResumesFetch`: the immediate's first byte would be at 0x3003, which has only a handler. -/
theorem witness_ReturnResumesFetch_stop :
    AtReturn stridedReturn (suspendedAt (.fetch [0xE0])) ∧ NotCompleted stridedReturn (suspendedAt (.fetch [0xE0])) ∧
    (stridedReturn.returnFromHandler (suspendedAt (.fetch [0xE0]))).accessible 0x4000 = true ∧
    (stridedReturn.returnFromHandler (suspendedAt (.fetch [0xE0]))).advancePc.pc = 0x3003 ∧
    (stridedReturn.returnFromHandler (suspendedAt (.fetch [0xE0]))).advancePc.translate 0x3003 .execute = none ∧
    (stridedReturn.returnFromHandler (suspendedAt (.fetch [0xE0]))).advancePc.handlerPage 0x3003 ≠ 0 ∧
    word ([0xE0] ++ [stridedReturn.rawRead 0x4000]) = .more :=
  ⟨⟨by decide, by decide, by decide, by decide, by decide⟩, ⟨by decide, by decide⟩, by decide⟩

theorem witness_StepRunsInstruction :
    Fetched (mach 0 []) (mach 0 []).beginInstr.advancePc.advancePc [0xE0, 0x23] ∧
    word [0xE0, 0x23] = .instr (.add .al 2 (.reg 3)) :=
  ⟨⟨by decide, by decide, rfl, by decide⟩, by decide⟩

/-- With `DPC = 1`. -/
theorem witness_FetchStride :
    ((mach 0 [(15, 1)]).fetchBytes 2).map Prod.fst = some [0xE0, 0] := by
  decide

theorem witness_StoppedMachine :
    { mach 0 [] with run := .halted .decode }.run = .halted .decode ∧ { mach 0 [] with run := .paused }.run = .paused := by
  decide

theorem witness_RunningMachine : (mach 0 []).run = .running := by decide

theorem witness_StepKeepsInv :
    (mach 0 [(2, 5), (3, 0x3000)]).Inv ∧
    (nextState (step (mach 0 [(2, 5), (3, 0x3000)]))).map (fun t => t.reg 2) = some 0x3005 :=
  ⟨mach_inv _ (.inl rfl), by decide⟩

/-- A handler that runs `NOP` at 0x4000. -/
theorem witness_HandlerIsolated :
    (inHandler 0x4000 0 loadWork).active = .exception ∧ (inHandler 0x4000 0 loadWork).mmuEnabled = false ∧
    ¬ ((inHandler 0x4000 0 loadWork).pc = (inHandler 0x4000 0 loadWork).config.excReturnAddr ∧
      (inHandler 0x4000 0 loadWork).decode.insnPc = none) ∧
    (nextState (step (inHandler 0x4000 0 loadWork))).map State.pc = some 0x4001 := by
  decide

theorem in_handler_inv : (inHandler 0xF0F0 0x2000 loadWork).Inv :=
  ⟨by decide, by decide, by decide, by decide, by decide, by decide, by decide,
    fun u h => by cases (show some (suspendedAt loadWork) = some u from h); decide, by decide⟩

/-- The entry of a handler, and a return. -/
theorem witness_MmuSwitches :
    (((mach 0 [(2, 5), (3, 0x3000)]).withFetchWord 16 0x23F0).Inv ∧
      (nextState (step ((mach 0 [(2, 5), (3, 0x3000)]).withFetchWord 16 0x23F0))).map State.mmuEnabled = some false) ∧
    (inHandler 0xF0F0 0x2000 loadWork).Inv ∧
    (nextState (step (inHandler 0xF0F0 0x2000 loadWork))).map (fun t => (t.mmuEnabled, t.reg 2)) = some (true, 0x80) :=
  ⟨⟨mach_inv _ (.inr (.inl rfl)), by decide⟩, in_handler_inv, by decide⟩

/-- A load that reads its byte, and one that enters a handler. -/
theorem witness_MemoryKept :
    (Instr.ldb .al 2 (.reg 3)).stores = false ∧ (mach 0 [(2, 5), (3, 0x3000)]).Inv ∧
    (nextState (exec (.ldb .al 2 (.imm 0x2000)) (mach 0 [(2, 5), (3, 0x3000)]))).map State.active = some .normal ∧
    (nextState (exec (.ldb .al 2 (.reg 3)) (mach 0 [(2, 5), (3, 0x3000)]))).map State.active = some .exception :=
  ⟨by decide, mach_inv _ (.inl rfl), by decide, by decide⟩

end Sys2Proof.Tests
end

section
/-!
The conditions of R32, one rule per condition: what `condHolds` says of the flags, as a proposition about them. They are `@[simp]`, so that a proof about flags reads a condition through its row of the table and does not open `condHolds`.
-/
namespace Sys2Proof.Machine

section Conditions
variable (f : Flags)

/-! Conditions that read one flag, or none. -/

@[simp] theorem condHolds_eq_iff : condHolds .eq f = true ↔ f.zf = true := Iff.rfl

@[simp] theorem condHolds_ne_iff : condHolds .ne f = true ↔ f.zf = false := .of_eq (Bool.not_eq_true' f.zf)

@[simp] theorem condHolds_lt_iff : condHolds .lt f = true ↔ f.cf = false := .of_eq (Bool.not_eq_true' f.cf)

@[simp] theorem condHolds_ge_iff : condHolds .ge f = true ↔ f.cf = true := Iff.rfl

@[simp] theorem condHolds_al : condHolds .al f = true := rfl

@[simp] theorem condHolds_ng_iff : condHolds .ng f = true ↔ f.sf = true := Iff.rfl

@[simp] theorem condHolds_ps_iff : condHolds .ps f = true ↔ f.sf = false := .of_eq (Bool.not_eq_true' f.sf)

@[simp] theorem condHolds_od_iff : condHolds .od f = true ↔ f.pf = true := Iff.rfl

@[simp] theorem condHolds_ev_iff : condHolds .ev f = true ↔ f.pf = false := .of_eq (Bool.not_eq_true' f.pf)

/-! Unsigned comparisons: `CF` says that there was no borrow. -/

@[simp] theorem condHolds_gt_iff : condHolds .gt f = true ↔ f.cf = true ∧ f.zf = false := by
  simp [condHolds]

@[simp] theorem condHolds_le_iff : condHolds .le f = true ↔ f.cf = false ∨ f.zf = true := by
  simp [condHolds]

/-! Signed comparisons: `SF` and `VF` differ when the exact difference is negative. -/

@[simp] theorem condHolds_sm_iff : condHolds .sm f = true ↔ f.sf ≠ f.vf := bne_iff_ne

@[simp] theorem condHolds_be_iff : condHolds .be f = true ↔ f.sf = f.vf := beq_iff_eq

@[simp] theorem condHolds_bg_iff : condHolds .bg f = true ↔ f.zf = false ∧ f.sf = f.vf := by
  simp [condHolds]

@[simp] theorem condHolds_se_iff : condHolds .se f = true ↔ f.zf = true ∨ f.sf ≠ f.vf := by
  simp [condHolds]

end Conditions

/-- Settles O6: the rows of R32, each by the rule of its condition. -/
theorem conditionTable : Obligations.ConditionTable := fun f =>
  ⟨condHolds_eq_iff f, condHolds_ne_iff f, condHolds_gt_iff f, condHolds_le_iff f, condHolds_lt_iff f,
    condHolds_ge_iff f, condHolds_al f, condHolds_ng_iff f, condHolds_ps_iff f, condHolds_bg_iff f,
    condHolds_se_iff f, condHolds_sm_iff f, condHolds_be_iff f, condHolds_od_iff f, condHolds_ev_iff f⟩

end Sys2Proof.Machine
end

section
/-!
The instructions that write one register and the flags. First what the flag computations of R29 and R30 say as arithmetic: `parity`, the carries, the overflows. Then what `State.complete`, which all these instructions end with, guarantees. Each instruction's result is then its own operation put into these laws.
-/
namespace Sys2Proof.Machine

/-! ## The flags of a result -/

/-- Folding exclusive-or over the bits a predicate gives counts the places where it is true, modulo 2. -/
theorem foldl_xor_eq_odd_length_filter (f : Nat → Bool) (l : List Nat) (b : Bool) :
    l.foldl (fun p i => p ^^ f i) b = (b ^^ decide ((l.filter f).length % 2 = 1)) := by
  induction l generalizing b with
  | nil => simp
  | cons i l ih =>
    rw [List.foldl_cons, ih, Bool.xor_assoc]
    cases hi : f i
    · simp [hi]
    · have hflip : decide (((l.filter f).length + 1) % 2 = 1) = !decide ((l.filter f).length % 2 = 1) := by
        rw [← decide_not, decide_eq_decide]
        omega
      simp [hi, hflip]

/-- `PF` is set for an odd number of 1 bits (R29). -/
theorem parity_iff (r : Word) : parity r = true ↔ popcnt r % 2 = 1 := by
  simp [parity, popcnt, foldl_xor_eq_odd_length_filter]

/-- `SetZSP` sets the three flags that say a result (R10, R29). -/
theorem zspSay_setZsp (f : Flags) (r : Word) : ZspSay (f.setZsp r) r :=
  ⟨beq_iff_eq, by rw [← BitVec.msb_eq_getLsbD_last]; rfl, parity_iff r⟩

/-! ## Carry and overflow as arithmetic -/

theorem addCarry_iff (vx vy : Word) : addCarry vx vy = true ↔ 65536 ≤ vx.toNat + vy.toNat := by
  have hx := vx.isLt
  have hy := vy.isLt
  rw [addCarry, Nat.testBit_eq_decide_div_mod_eq, decide_eq_true_iff]
  omega

/-- Bit 16 of `vx + ~vy + 1` is set exactly when the subtraction needs no borrow (R30, R132). -/
theorem subCarry_iff (vx vy : Word) : subCarry vx vy = true ↔ vy.toNat ≤ vx.toNat := by
  have hx := vx.isLt
  have hy := vy.isLt
  rw [subCarry, Nat.testBit_eq_decide_div_mod_eq, decide_eq_true_iff, BitVec.toNat_not]
  omega

theorem addOverflow_eq_saddOverflow (vx vy : Word) : addOverflow vx vy = vx.saddOverflow vy := by
  rw [BitVec.saddOverflow_eq]
  rfl

theorem subOverflow_eq_ssubOverflow (vx vy : Word) : subOverflow vx vy = vx.ssubOverflow vy := by
  rw [BitVec.ssubOverflow_eq, subOverflow]
  cases vx.msb <;> simp

theorem addOverflow_iff (vx vy : Word) : addOverflow vx vy = true ↔ OutOfRange (vx.toInt + vy.toInt) := by
  rw [addOverflow_eq_saddOverflow, BitVec.saddOverflow, Bool.or_eq_true, decide_eq_true_iff, decide_eq_true_iff,
    OutOfRange]
  omega

theorem subOverflow_iff (vx vy : Word) : subOverflow vx vy = true ↔ OutOfRange (vx.toInt - vy.toInt) := by
  rw [subOverflow_eq_ssubOverflow, BitVec.ssubOverflow, Bool.or_eq_true, decide_eq_true_iff, decide_eq_true_iff,
    OutOfRange]
  omega

/-- The flags of an addition (R131). -/
theorem setAdd_says (f : Flags) (vx vy : Word) :
    ZspSay (f.setAdd vx vy) (vx + vy) ∧
      ((f.setAdd vx vy).cf = true ↔ 65536 ≤ vx.toNat + vy.toNat) ∧
      ((f.setAdd vx vy).vf = true ↔ OutOfRange (vx.toInt + vy.toInt)) :=
  ⟨zspSay_setZsp f _, addCarry_iff vx vy, addOverflow_iff vx vy⟩

/-- The flags of a subtraction (R132, R144). -/
theorem setSub_says (f : Flags) (vx vy : Word) :
    ZspSay (f.setSub vx vy) (vx - vy) ∧
      ((f.setSub vx vy).cf = true ↔ vy.toNat ≤ vx.toNat) ∧
      ((f.setSub vx vy).vf = true ↔ OutOfRange (vx.toInt - vy.toInt)) :=
  ⟨zspSay_setZsp f _, subCarry_iff vx vy, subOverflow_iff vx vy⟩

/-! ## Completion with one result -/

/-- Flags are written when exactly one of "unconditional" and "toggled by `TF`" holds (R31). -/
theorem State.writesFlags_iff (s : State) (cc : Cond) :
    s.writesFlags cc = true ↔ (cc = .al ↔ s.decode.tf = false) := by
  rw [State.writesFlags, Machine.writesFlags]
  cases s.decode.tf <;> simp

/-- Completing with one result changes no register but `rd`, and nothing else but flags. -/
theorem State.complete_frame (s : State) (cc : Cond) (rd : Reg) (r : Word) (f : Flags) :
    Frame s (s.complete cc rd r f) [rd] [] where
  regs q hq := by
    have hrd : q ≠ rd := fun e => hq (List.mem_singleton.mpr e)
    rw [State.complete_reg, if_neg hrd]
    split
    · next h0 => rw [h0, State.reg_zero]
    · rfl
  mem _ _ := by rw [State.complete_mem]
  idle := State.complete_idle ..
  active := State.complete_active ..
  mmuEnabled := State.complete_mmuEnabled ..
  run := State.complete_run ..
  suspended := State.complete_suspended ..
  config := State.complete_config ..
  decode := State.complete_decode_eq ..
  portAnswers := State.complete_portAnswers ..
  portLog := State.complete_portLog ..
  draws := State.complete_draws ..

/-- The destination holds the result, or 0 if it is `R0` (R21). -/
theorem State.complete_holds (s : State) (cc : Cond) (rd : Reg) (r : Word) (f : Flags) :
    Holds (s.complete cc rd r f) rd r := by
  rw [Holds, State.complete_reg, if_pos rfl]

/-- What `FlagsAfter` says of a state whose flags are `f` if the instruction writes flags, else those of before. -/
theorem flagsAfter_of_flags_eq {s t : State} {cc : Cond} {f : Flags} {P : Flags → Prop}
    (ht : t.flags = if s.writesFlags cc then f else s.flags) (hf : P f) : FlagsAfter s t cc P := by
  rw [FlagsAfter]
  split
  · next hw => rwa [ht, if_pos ((s.writesFlags_iff cc).mpr hw)]
  · next hw => rw [ht, if_neg (hw ∘ (s.writesFlags_iff cc).mp)]

/-- An instruction whose condition holds and which completes with the result `r` and the flags `f` does just that: its frame, its result, and any property of `f` for the flags it writes (R103, R130). -/
theorem exec_of_complete {i : Instr} {s : State} {cc : Cond} {rd : Reg} {r : Word} {f : Flags} {P : Flags → Prop}
    (hexec : exec i s = s.conditional cc (s.complete cc rd r f)) (hcond : condHolds cc s.flags = true) (hf : P f) :
    ∃ t, exec i s = .next t ∧ Frame s t [rd] [] ∧ Holds t rd r ∧ FlagsAfter s t cc P :=
  ⟨s.complete cc rd r f, hexec.trans (State.conditional_true hcond _), s.complete_frame cc rd r f,
    s.complete_holds cc rd r f, flagsAfter_of_flags_eq (s.complete_flags cc rd r f) hf⟩

/-- As `exec_of_complete`, for an instruction whose flags are `ZSP` alone: `CF` and `VF` stay. -/
theorem exec_of_complete_setZsp {i : Instr} {s : State} {cc : Cond} {rd : Reg} {r : Word} {Q : Word → Prop}
    (hexec : exec i s = s.conditional cc (s.complete cc rd r (s.flags.setZsp r)))
    (hcond : condHolds cc s.flags = true) (hr : Q r) :
    ∃ (t : State) (r : Word), exec i s = .next t ∧ Q r ∧ Frame s t [rd] [] ∧ Holds t rd r ∧
      FlagsAfter s t cc (fun f => ZspSay f r ∧ f.cf = s.flags.cf ∧ f.vf = s.flags.vf) := by
  obtain ⟨t, ht, hframe, hholds, hflags⟩ := exec_of_complete
    (P := fun f => ZspSay f r ∧ f.cf = s.flags.cf ∧ f.vf = s.flags.vf) hexec hcond ⟨zspSay_setZsp _ r, rfl, rfl⟩
  exact ⟨t, r, ht, hr, hframe, hholds, hflags⟩

/-! ## The results of the instructions -/

/-- Settles O9: `ADD` completes with the sum and the flags of the addition. -/
theorem addResult : Obligations.AddResult := fun _ rx vy s hcond =>
  exec_of_complete rfl hcond (setAdd_says s.flags (s.reg rx) (s.vy vy))

/-- Settles O10: `SUB` completes with the difference and the flags of the subtraction. -/
theorem subResult : Obligations.SubResult := fun _ rx vy s hcond =>
  exec_of_complete rfl hcond (setSub_says s.flags (s.reg rx) (s.vy vy))

/-- Settles O19: each of the three completes with its operation on the words, which acts on each bit alone, and `ZSP`. -/
theorem bitwiseResults : Obligations.BitwiseResults := fun _ _ _ _ hcond =>
  ⟨exec_of_complete_setZsp rfl hcond (fun _ => BitVec.getLsbD_xor),
    exec_of_complete_setZsp rfl hcond (fun _ => BitVec.getLsbD_and),
    exec_of_complete_setZsp rfl hcond (fun _ => BitVec.getLsbD_or)⟩

end Sys2Proof.Machine
end

section
/-!
The control transfer instructions (R170 to R174). Each of them is a sequence of register writes followed by the end of the instruction, so the frame is proved once, of any such sequence (`RegWrites`), and the instructions differ only in which registers they write and with what.
-/
namespace Sys2Proof.Machine

/-! ## Sequences of register writes -/

/-- From `s` to `t` registers of the running thread have been written, all of them among `written`, and nothing else has changed. -/
structure RegWrites (s t : State) (written : List Reg) : Prop where
  changes : Local s t
  mem : t.mem = s.mem
  flags : t.flags = s.flags
  regs : ∀ r : Reg, r ∉ written → t.reg r = s.reg r

theorem RegWrites.refl (s : State) : RegWrites s s [] :=
  ⟨Local.refl s, rfl, rfl, fun _ _ => rfl⟩

/-- A write to `R0` is ignored, so a register other than the written one is as before whichever it is (R21). -/
theorem State.reg_setReg_of_ne (s : State) {r q : Reg} (h : q ≠ r) (v : Word) : (s.setReg r v).reg q = s.reg q := by
  rw [State.reg_setReg, if_neg h]
  split
  · next h0 => rw [h0, State.reg_zero]
  · rfl

/-- Of two register writes the later one is seen where both are to the same register. -/
theorem State.reg_setReg_setReg (s : State) (a b q : Reg) (v w : Word) :
    ((s.setReg a v).setReg b w).reg q = if q = 0 then 0 else if q = b then w else if q = a then v else s.reg q := by
  rw [State.reg_setReg, State.reg_setReg]
  by_cases h0 : q = 0
  · rw [if_pos h0, if_pos h0]
  · simp only [if_neg h0]

/-- One more register write. -/
theorem RegWrites.setReg {s t : State} {written : List Reg} (h : RegWrites s t written) (r : Reg) (v : Word) :
    RegWrites s (t.setReg r v) (written ++ [r]) where
  changes := h.changes.trans (Local.setReg t r v)
  mem := (State.setReg_mem t r v).trans h.mem
  flags := (State.setReg_flags t r v).trans h.flags
  regs q hq := by
    obtain ⟨hold, hnew⟩ := not_or.mp (mt List.mem_append.mpr hq)
    rw [State.reg_setReg_of_ne t (hnew ∘ List.mem_singleton.mpr), h.regs q hold]

/-- Ending the instruction after register writes gives a frame in which just those registers may differ (R44). -/
theorem RegWrites.frame_finish {s t : State} {written : List Reg} (h : RegWrites s t written) :
    Frame s t.finish written [] where
  regs := h.regs
  mem a _ := congrArg (Memory.read · a) h.mem
  idle := h.changes.idle
  active := h.changes.active
  mmuEnabled := h.changes.mmuEnabled
  run := h.changes.run
  suspended := h.changes.suspended
  config := h.changes.config
  decode := State.finish_decode_eq t
  portAnswers := h.changes.portAnswers
  portLog := h.changes.portLog
  draws := h.changes.draws

/-- An instruction whose condition holds and which only writes registers answers a next state with the frame of those writes and the flags of before; `P` is whatever else is to be said of that state. -/
theorem exec_of_regWrites {i : Instr} {s t : State} {cc : Cond} {written : List Reg} {P : State → Prop}
    (hexec : exec i s = s.conditional cc t.finish) (hcond : condHolds cc s.flags = true)
    (hwrites : RegWrites s t written) (hP : P t.finish) :
    ∃ u, exec i s = .next u ∧ Frame s u written [] ∧ u.flags = s.flags ∧ P u :=
  ⟨t.finish, hexec.trans (State.conditional_true hcond _), hwrites.frame_finish, hwrites.flags, hP⟩

/-! ## The branch and the link -/

/-- The registers after a branch (R171). -/
@[simp] theorem State.branch_reg (s : State) (delta target : Word) (q : Reg) :
    (s.branch delta target).reg q =
      if q = 0 then 0 else if q = Reg.pc then target else if q = Reg.dpc then delta else s.reg q :=
  s.reg_setReg_setReg Reg.dpc Reg.pc q delta target

/-- The registers after the return address and `DPC` have been saved (R173, R174). -/
@[simp] theorem State.link_reg (s : State) (q : Reg) :
    s.link.reg q = if q = 0 then 0 else if q = Reg.ra then s.pc else if q = Reg.rd then s.dpc else s.reg q :=
  s.reg_setReg_setReg Reg.rd Reg.ra q s.dpc s.pc

theorem RegWrites.branch (s : State) (delta target : Word) :
    RegWrites s (s.branch delta target) [Reg.dpc, Reg.pc] :=
  ((RegWrites.refl s).setReg Reg.dpc delta).setReg Reg.pc target

theorem RegWrites.link (s : State) : RegWrites s s.link [Reg.rd, Reg.ra] :=
  ((RegWrites.refl s).setReg Reg.rd s.dpc).setReg Reg.ra s.pc

/-- `PC` after a relative branch from `base`: the sum modulo 2^16 (R172). -/
theorem State.pc_setReg_add (s : State) (base imm : Word) :
    (s.setReg Reg.pc (base + imm)).pc = BitVec.ofNat 16 (base.toNat + imm.toNat) := by
  rw [State.pc, State.reg_setReg, if_neg (by decide), if_pos rfl, BitVec.add_def]

/-! ## The results of the instructions -/

/-- Settles O29: `BRA` is the branch to the operands as they were before it. -/
theorem braResult : Obligations.BraResult := fun _ rx vy s hcond =>
  have hdpc : (s.branch (s.reg rx) (s.vy vy)).dpc = s.reg rx := by simp [State.dpc]
  have hpc : (s.branch (s.reg rx) (s.vy vy)).pc = s.vy vy := by simp [State.pc]
  exec_of_regWrites rfl hcond (RegWrites.branch s _ _) ⟨hdpc, hpc⟩

/-- Settles O30: `BRR` writes `PC` alone. -/
theorem brrResult : Obligations.BrrResult := fun _ imm s hcond =>
  exec_of_regWrites rfl hcond ((RegWrites.refl s).setReg Reg.pc _) (State.pc_setReg_add s s.pc imm)

/-- Settles O32: `FCR` links, then writes `PC`; the write of `PC` leaves the two link registers. -/
theorem fcrResult : Obligations.FcrResult := fun _ imm s hcond =>
  have hrd : (s.link.setReg Reg.pc (s.pc + imm)).reg Reg.rd = s.dpc := by
    simp [State.reg_setReg]
  have hra : (s.link.setReg Reg.pc (s.pc + imm)).reg Reg.ra = s.pc := by
    simp [State.reg_setReg]
  exec_of_regWrites rfl hcond ((RegWrites.link s).setReg Reg.pc _)
    ⟨hrd, hra, State.pc_setReg_add s.link s.pc imm⟩

end Sys2Proof.Machine
end

section
/-!
`INC` (R201): the addition of a small signed number. It completes as `ADD` does, so what is left to say is the word of the number: its signed reading is the number, and the carry out of the addition is a carry for a positive number and the absence of a borrow for a negative one.
-/
namespace Sys2Proof.Machine

theorem simm4Wf_iff {n : Int} : simm4Wf n = true ↔ -8 ≤ n ∧ n ≤ 8 ∧ n ≠ 0 := by
  simp [simm4Wf, and_assoc]

/-- The sum with the word of a number is the word of the sum with the number. -/
theorem add_simm4Word (vx : Word) (n : Int) : vx + simm4Word n = BitVec.ofInt 16 (vx.toInt + n) := by
  rw [simm4Word, BitVec.ofInt_add, BitVec.ofInt_toInt]

/-- A legal `SImm4` fits in a word: the word's signed reading is the number. -/
theorem toInt_simm4Word {n : Int} (h : simm4Wf n = true) : (simm4Word n).toInt = n := by
  obtain ⟨hlow, hhigh, -⟩ := simm4Wf_iff.mp h
  rw [simm4Word, BitVec.toInt_ofInt_eq_self (by decide) (by omega) (by omega)]

theorem toNat_simm4Word_of_pos {n : Int} (h : simm4Wf n = true) (hpos : 0 < n) :
    ((simm4Word n).toNat : Int) = n := by
  obtain ⟨-, hhigh, -⟩ := simm4Wf_iff.mp h
  rw [simm4Word, BitVec.toNat_ofInt]
  omega

/-- The word of a negative number is its two's complement. -/
theorem toNat_simm4Word_of_neg {n : Int} (h : simm4Wf n = true) (hneg : n < 0) :
    ((simm4Word n).toNat : Int) = n + 65536 := by
  obtain ⟨hlow, -, -⟩ := simm4Wf_iff.mp h
  rw [simm4Word, BitVec.toNat_ofInt]
  omega

/-- The carry out of the addition of an `SImm4`: for `-m` it says that `vx - m` needs no borrow (R201). -/
theorem addCarry_simm4Word_iff (vx : Word) {n : Int} (h : simm4Wf n = true) :
    addCarry vx (simm4Word n) = true ↔
      if 0 < n then 65536 ≤ (vx.toNat : Int) + n else -n ≤ (vx.toNat : Int) := by
  obtain ⟨-, -, hne⟩ := simm4Wf_iff.mp h
  rw [addCarry_iff]
  split
  · next hpos =>
    have hword := toNat_simm4Word_of_pos h hpos
    omega
  · next hnpos =>
    have hword := toNat_simm4Word_of_neg h (by omega)
    omega

/-- The flags of `INC` (R201). -/
theorem setAdd_simm4Word_says (f : Flags) (vx : Word) {n : Int} (h : simm4Wf n = true) :
    ZspSay (f.setAdd vx (simm4Word n)) (BitVec.ofInt 16 (vx.toInt + n)) ∧
      ((f.setAdd vx (simm4Word n)).cf = true ↔
        if 0 < n then 65536 ≤ (vx.toNat : Int) + n else -n ≤ (vx.toNat : Int)) ∧
      ((f.setAdd vx (simm4Word n)).vf = true ↔ OutOfRange (vx.toInt + n)) := by
  obtain ⟨hzsp, -, hvf⟩ := setAdd_says f vx (simm4Word n)
  rw [add_simm4Word] at hzsp
  rw [toInt_simm4Word h] at hvf
  exact ⟨hzsp, addCarry_simm4Word_iff vx h, hvf⟩

/-- The addition of an `SImm4` is how `INC` completes (R201). -/
theorem exec_inc (cc : Cond) (rx : Reg) (n : Int) (s : State) :
    exec (.inc cc rx n) s = s.conditional cc (s.complete cc (s.dest rx) (BitVec.ofInt 16 ((s.reg rx).toInt + n))
      (s.flags.setAdd (s.reg rx) (simm4Word n))) := by
  rw [← add_simm4Word]
  rfl

/-- Settles O11: `INC` completes with the sum and the flags of the addition of its number's word. -/
theorem incResult : Obligations.IncResult := fun cc rx simm s hwf hcond =>
  exec_of_complete (exec_inc cc rx simm s) hcond (setAdd_simm4Word_says s.flags (s.reg rx) hwf)

end Sys2Proof.Machine
end

section
/-!
The decoder and the encoder (R90 to R110). An opcode fixes the format of what follows it, so the table of opcodes is gone through once, as `Opcode`; round trip, totality and the reserved encodings are then one argument for each format.
-/
namespace Sys2Proof

/-! ## From the encoding to the instruction -/

/-- After the opcode byte of an instruction, with `XC` before it if its condition asks for that, the decoder reads by its opcode (R91, R93). -/
theorem decode_opByte (order : ByteOrder) (cc : Cond) (op : BitVec 5) (rest : List Byte) :
    decode order cc.extended (opByte cc op :: rest) = decodeOp order cc op rest := by
  simp only [decode, condField_opByte, condOfField_field, opField_opByte]

theorem decodeRv_of_reg {order : ByteOrder} {mk : Reg → Vy → Instr} {rp : Byte} (h : lowNybble rp ≠ Reg.dpc)
    (imm : List Byte) : decodeRv order mk (rp :: imm) = .instr (mk (highNybble rp) (.reg (lowNybble rp))) :=
  if_neg h

theorem decodeR8_of_reg {mk : BitVec 4 → V8 → Instr} {rp : Byte} (h : lowNybble rp ≠ Reg.dpc) (imm : List Byte) :
    decodeR8 mk (rp :: imm) = .instr (mk (highNybble rp) (.reg (lowNybble rp))) :=
  if_neg h

theorem decode_encodeRv {order : ByteOrder} {cc : Cond} {op : BitVec 5} {mk : Reg → Vy → Instr} {rx : Reg} {vy : Vy}
    (hop : ∀ bs, decodeOp order cc op bs = decodeRv order mk bs) (hwf : vy.wf = true) (rest : List Byte) :
    decode order cc.extended (encodeRv order cc op rx vy ++ rest) = .instr (mk rx vy) := by
  cases vy with
  | reg r =>
    have hr : lowNybble (rx ++ r) ≠ Reg.dpc := by rw [lowNybble_append]; exact bne_iff_ne.mp hwf
    rw [encodeRv, List.cons_append, decode_opByte, hop, List.cons_append, decodeRv_of_reg hr, highNybble_append,
      lowNybble_append]
  | imm v => simp [encodeRv, decode_opByte, hop, decodeRv]

theorem decode_encodeR8 {order : ByteOrder} {cc : Cond} {op : BitVec 5} {mk : BitVec 4 → V8 → Instr} {high : BitVec 4}
    {v8 : V8} (hop : ∀ bs, decodeOp order cc op bs = decodeR8 mk bs) (hwf : v8.wf = true) (rest : List Byte) :
    decode order cc.extended (encodeR8 cc op high v8 ++ rest) = .instr (mk high v8) := by
  cases v8 with
  | reg r =>
    have hr : lowNybble (high ++ r) ≠ Reg.dpc := by rw [lowNybble_append]; exact bne_iff_ne.mp hwf
    rw [encodeR8, List.cons_append, decode_opByte, hop, List.cons_append, decodeR8_of_reg hr, highNybble_append,
      lowNybble_append]
  | imm b => simp [encodeR8, decode_opByte, hop, decodeR8]

theorem decode_encodeRn {order : ByteOrder} {cc : Cond} {op : BitVec 5} {mk : Reg → BitVec 4 → Instr} (rx : Reg)
    (n : BitVec 4) (hop : ∀ bs, decodeOp order cc op bs = decodeRn mk bs) (rest : List Byte) :
    decode order cc.extended ([opByte cc op, rx ++ n] ++ rest) = .instr (mk rx n) := by
  simp [decode_opByte, hop, decodeRn]

theorem decode_encodeWord {order : ByteOrder} {cc : Cond} {op : BitVec 5} {mk : Word → Instr} (v : Word)
    (hop : ∀ bs, decodeOp order cc op bs = decodeWord order mk bs) (rest : List Byte) :
    decode order cc.extended (encodeWord order cc op v ++ rest) = .instr (mk v) := by
  simp [encodeWord, decode_opByte, hop, decodeWord]

/-- The byte of `DR` is read as `DR` (R213). -/
theorem decode_dr (order : ByteOrder) (rd : Reg) (rest : List Byte) :
    decode order false (((0xD : BitVec 4) ++ rd) :: rest) = .instr (.dr rd) := by
  have hcond : condOfField false (condField ((0xD : BitVec 4) ++ rd)) = none := by
    revert rd
    decide
  have hop : decodePrefix (opField ((0xD : BitVec 4) ++ rd)) = .dr rd := by
    revert rd
    decide
  simp only [decode, hcond, hop]

/-- `INC` as the decoder reads it from its two bytes (R98, R201). -/
theorem decode_inc (order : ByteOrder) (cc : Cond) (rx : Reg) {simm : Int} (h : simm4Wf simm = true) (rest : List Byte) :
    decode order cc.extended ([opByte cc 0x1C, rx ++ nybbleOfSimm4 simm] ++ rest) = .instr (.inc cc rx simm) := by
  rw [decode_encodeRn rx (nybbleOfSimm4 simm) (mk := fun rx n => .inc cc rx (simm4OfNybble n)) (fun _ => rfl) rest,
    simm4_nybble h]

/-- Settles O1: each constructor's encoding is of one of the formats, and the decoder reads that format back. -/
theorem decodeOfEncode : Obligations.DecodeOfEncode := by
  intro order i rest hwf
  cases i with
  | add | sub | mlu | mls | dvu | dvs | xor | and | orr | shl | sru | srs | mov | cmp | ldw | stw | ldb | bra | fca =>
    exact decode_encodeRv (fun _ => rfl) hwf rest
  | stb | wrb => exact decode_encodeR8 (fun _ => rfl) hwf rest
  | brr | fcr | psh | pop => exact decode_encodeWord _ (fun _ => rfl) rest
  | rdb cc rx port => exact decode_encodeRn rx port (fun _ => rfl) rest
  | inc cc rx simm => exact decode_inc order cc rx hwf rest
  | bpt cc | hlt cc | nop cc | reserved0E cc | reserved0F cc => exact decode_opByte order cc _ rest
  | dr rd => exact decode_dr order rd rest
  | xc | tf | reservedPrefixC2 | reservedPrefixC3 | reservedPrefixC4 | reservedPrefixC5 | reservedPrefixC6
  | reservedPrefixC7 | reservedPrefixC8 | reservedPrefixC9 | reservedPrefixCA | reservedPrefixCB | reservedPrefixCC
  | reservedPrefixCD | reservedPrefixCE | reservedPrefixCF => rfl

/-! ## The table of opcodes, by format -/

/-- The instruction `i` has the condition `cc` and the encoding `bytes`, is well-formed if `operandWf` holds, and is reserved exactly for the opcodes `0E` and `0F` (R106, R107). -/
structure HasOpcode (order : ByteOrder) (cc : Cond) (op : BitVec 5) (i : Instr) (bytes : List Byte)
    (operandWf : Bool) : Prop where
  encode : encode order i = bytes
  wf : i.wf = operandWf
  cond : i.cond? = some cc
  reserved : i.isReserved = decide (op = 0x0E ∨ op = 0x0F)

/-- The format of the bytes after the opcode byte, and the instructions they are read as (R101, R106, R107). -/
inductive Opcode (order : ByteOrder) (cc : Cond) (op : BitVec 5) : Prop where
  | rv (mk : Reg → Vy → Instr) (read : ∀ bs, decodeOp order cc op bs = decodeRv order mk bs)
    (is : ∀ rx vy, HasOpcode order cc op (mk rx vy) (encodeRv order cc op rx vy) vy.wf)
  | r8 (mk : BitVec 4 → V8 → Instr) (read : ∀ bs, decodeOp order cc op bs = decodeR8 mk bs)
    (is : ∀ high v8, HasOpcode order cc op (mk high v8) (encodeR8 cc op high v8) v8.wf)
  | rn (mk : Reg → BitVec 4 → Instr) (read : ∀ bs, decodeOp order cc op bs = decodeRn mk bs)
    (is : ∀ rx n, HasOpcode order cc op (mk rx n) [opByte cc op, rx ++ n] true)
  | word (mk : Word → Instr) (read : ∀ bs, decodeOp order cc op bs = decodeWord order mk bs)
    (is : ∀ v, HasOpcode order cc op (mk v) (encodeWord order cc op v) true)
  | bare (i : Instr) (read : ∀ bs, decodeOp order cc op bs = .instr i)
    (is : HasOpcode order cc op i [opByte cc op] true)

theorem hasOpcode_inc (order : ByteOrder) (cc : Cond) (rx : Reg) (n : BitVec 4) :
    HasOpcode order cc 0x1C (.inc cc rx (simm4OfNybble n)) [opByte cc 0x1C, rx ++ n] true where
  encode := by rw [Sys2Proof.encode, (nybble_simm4 n).1]
  wf := (nybble_simm4 n).2
  cond := rfl
  reserved := rfl

/-- Every opcode has one of the formats (R101, R106, R107). -/
theorem opcode_format (order : ByteOrder) (cc : Cond) (op : BitVec 5) : Opcode order cc op := by
  obtain ⟨n, hn⟩ := op
  match n, hn with
  | 0x00, _ => exact .rv (.add cc) (fun _ => rfl) (fun _ _ => ⟨rfl, rfl, rfl, rfl⟩)
  | 0x01, _ => exact .rv (.sub cc) (fun _ => rfl) (fun _ _ => ⟨rfl, rfl, rfl, rfl⟩)
  | 0x02, _ => exact .rv (.mlu cc) (fun _ => rfl) (fun _ _ => ⟨rfl, rfl, rfl, rfl⟩)
  | 0x03, _ => exact .rv (.mls cc) (fun _ => rfl) (fun _ _ => ⟨rfl, rfl, rfl, rfl⟩)
  | 0x04, _ => exact .rv (.dvu cc) (fun _ => rfl) (fun _ _ => ⟨rfl, rfl, rfl, rfl⟩)
  | 0x05, _ => exact .rv (.dvs cc) (fun _ => rfl) (fun _ _ => ⟨rfl, rfl, rfl, rfl⟩)
  | 0x06, _ => exact .rv (.xor cc) (fun _ => rfl) (fun _ _ => ⟨rfl, rfl, rfl, rfl⟩)
  | 0x07, _ => exact .rv (.and cc) (fun _ => rfl) (fun _ _ => ⟨rfl, rfl, rfl, rfl⟩)
  | 0x08, _ => exact .rv (.orr cc) (fun _ => rfl) (fun _ _ => ⟨rfl, rfl, rfl, rfl⟩)
  | 0x09, _ => exact .rv (.shl cc) (fun _ => rfl) (fun _ _ => ⟨rfl, rfl, rfl, rfl⟩)
  | 0x0A, _ => exact .rv (.sru cc) (fun _ => rfl) (fun _ _ => ⟨rfl, rfl, rfl, rfl⟩)
  | 0x0B, _ => exact .rv (.srs cc) (fun _ => rfl) (fun _ _ => ⟨rfl, rfl, rfl, rfl⟩)
  | 0x0C, _ => exact .rv (.mov cc) (fun _ => rfl) (fun _ _ => ⟨rfl, rfl, rfl, rfl⟩)
  | 0x0D, _ => exact .rv (.cmp cc) (fun _ => rfl) (fun _ _ => ⟨rfl, rfl, rfl, rfl⟩)
  | 0x0E, _ => exact .bare (.reserved0E cc) (fun _ => rfl) ⟨rfl, rfl, rfl, rfl⟩
  | 0x0F, _ => exact .bare (.reserved0F cc) (fun _ => rfl) ⟨rfl, rfl, rfl, rfl⟩
  | 0x10, _ => exact .rv (.ldw cc) (fun _ => rfl) (fun _ _ => ⟨rfl, rfl, rfl, rfl⟩)
  | 0x11, _ => exact .rv (.stw cc) (fun _ => rfl) (fun _ _ => ⟨rfl, rfl, rfl, rfl⟩)
  | 0x12, _ => exact .rv (.ldb cc) (fun _ => rfl) (fun _ _ => ⟨rfl, rfl, rfl, rfl⟩)
  | 0x13, _ => exact .r8 (.stb cc) (fun _ => rfl) (fun _ _ => ⟨rfl, rfl, rfl, rfl⟩)
  | 0x14, _ => exact .rv (.bra cc) (fun _ => rfl) (fun _ _ => ⟨rfl, rfl, rfl, rfl⟩)
  | 0x15, _ => exact .word (.brr cc) (fun _ => rfl) (fun _ => ⟨rfl, rfl, rfl, rfl⟩)
  | 0x16, _ => exact .rv (.fca cc) (fun _ => rfl) (fun _ _ => ⟨rfl, rfl, rfl, rfl⟩)
  | 0x17, _ => exact .word (.fcr cc) (fun _ => rfl) (fun _ => ⟨rfl, rfl, rfl, rfl⟩)
  | 0x18, _ => exact .rn (.rdb cc) (fun _ => rfl) (fun _ _ => ⟨rfl, rfl, rfl, rfl⟩)
  | 0x19, _ => exact .r8 (.wrb cc) (fun _ => rfl) (fun _ _ => ⟨rfl, rfl, rfl, rfl⟩)
  | 0x1A, _ => exact .word (.psh cc) (fun _ => rfl) (fun _ => ⟨rfl, rfl, rfl, rfl⟩)
  | 0x1B, _ => exact .word (.pop cc) (fun _ => rfl) (fun _ => ⟨rfl, rfl, rfl, rfl⟩)
  | 0x1C, _ => exact .rn _ (fun _ => rfl) (hasOpcode_inc order cc)
  | 0x1D, _ => exact .bare (.bpt cc) (fun _ => rfl) ⟨rfl, rfl, rfl, rfl⟩
  | 0x1E, _ => exact .bare (.hlt cc) (fun _ => rfl) ⟨rfl, rfl, rfl, rfl⟩
  | 0x1F, _ => exact .bare (.nop cc) (fun _ => rfl) ⟨rfl, rfl, rfl, rfl⟩
  | n + 32, hn => exact absurd hn (by omega)

/-! ## What a format reads -/

section
variable {order : ByteOrder} (cc : Cond) (op : BitVec 5) {rest : List Byte} {i : Instr}

theorem decodeRv_instr {mk : Reg → Vy → Instr} (h : decodeRv order mk rest = .instr i) :
    ∃ rx vy tail, i = mk rx vy ∧ vy.wf = true ∧ opByte cc op :: rest = encodeRv order cc op rx vy ++ tail := by
  match rest with
  | [] => cases h
  | rp :: imm =>
    by_cases hr : lowNybble rp = Reg.dpc
    · match imm with
      | [] | [_] => simp [decodeRv, hr] at h
      | b0 :: b1 :: tail =>
        rw [decodeRv, if_pos hr] at h
        injection h with h
        exact ⟨_, .imm _, tail, h.symm, rfl, by simp [encodeRv, ← hr]⟩
    · rw [decodeRv_of_reg hr] at h
      injection h with h
      exact ⟨_, .reg _, imm, h.symm, bne_iff_ne.mpr hr, by simp [encodeRv]⟩

theorem decodeR8_instr {mk : BitVec 4 → V8 → Instr} (h : decodeR8 mk rest = .instr i) :
    ∃ high v8 tail, i = mk high v8 ∧ v8.wf = true ∧ opByte cc op :: rest = encodeR8 cc op high v8 ++ tail := by
  match rest with
  | [] => cases h
  | rp :: imm =>
    by_cases hr : lowNybble rp = Reg.dpc
    · match imm with
      | [] => simp [decodeR8, hr] at h
      | b :: tail =>
        rw [decodeR8, if_pos hr] at h
        injection h with h
        exact ⟨_, .imm _, tail, h.symm, rfl, by simp [encodeR8, ← hr]⟩
    · rw [decodeR8_of_reg hr] at h
      injection h with h
      exact ⟨_, .reg _, imm, h.symm, bne_iff_ne.mpr hr, by simp [encodeR8]⟩

theorem decodeRn_instr {mk : Reg → BitVec 4 → Instr} (h : decodeRn mk rest = .instr i) :
    ∃ rx n tail, i = mk rx n ∧ opByte cc op :: rest = [opByte cc op, rx ++ n] ++ tail := by
  match rest with
  | [] => cases h
  | rp :: tail =>
    injection h with h
    exact ⟨_, _, tail, h.symm, by simp⟩

theorem decodeWord_instr {mk : Word → Instr} (h : decodeWord order mk rest = .instr i) :
    ∃ v tail, i = mk v ∧ opByte cc op :: rest = encodeWord order cc op v ++ tail := by
  match rest with
  | [] | [_] => cases h
  | b0 :: b1 :: tail =>
    injection h with h
    exact ⟨_, tail, h.symm, by simp [encodeWord]⟩

variable {cc op}

/-- An instruction read by an opcode is one of that opcode, its operands are well-formed, and what was read is its encoding (R101, R109). -/
theorem decodeOp_instr (h : decodeOp order cc op rest = .instr i) :
    ∃ bytes tail, HasOpcode order cc op i bytes true ∧ opByte cc op :: rest = bytes ++ tail := by
  cases opcode_format order cc op with
  | rv mk read is =>
    obtain ⟨rx, vy, tail, rfl, hwf, hb⟩ := decodeRv_instr cc op (read rest ▸ h)
    exact ⟨_, tail, hwf ▸ is rx vy, hb⟩
  | r8 mk read is =>
    obtain ⟨high, v8, tail, rfl, hwf, hb⟩ := decodeR8_instr cc op (read rest ▸ h)
    exact ⟨_, tail, hwf ▸ is high v8, hb⟩
  | rn mk read is =>
    obtain ⟨rx, n, tail, rfl, hb⟩ := decodeRn_instr cc op (read rest ▸ h)
    exact ⟨_, tail, is rx n, hb⟩
  | word mk read is =>
    obtain ⟨v, tail, rfl, hb⟩ := decodeWord_instr cc op (read rest ▸ h)
    exact ⟨_, tail, is v, hb⟩
  | bare j read is =>
    rw [read] at h
    injection h with h
    exact ⟨_, rest, h ▸ is, rfl⟩

/-- Three bytes after the opcode byte are always enough (R105). -/
theorem decodeOp_ne_more (h : 3 ≤ rest.length) : decodeOp order cc op rest ≠ .more := by
  cases opcode_format order cc op with
  | rv mk read is => exact read rest ▸ decodeRv_ne_more h
  | r8 mk read is => exact read rest ▸ decodeR8_ne_more (by omega)
  | rn mk read is => exact read rest ▸ decodeRn_ne_more (by omega)
  | word mk read is => exact read rest ▸ decodeWord_ne_more (by omega)
  | bare j read is => exact read rest ▸ Decoded.noConfusion

/-- For a reserved opcode no byte after it matters (R107). -/
theorem decodeOp_of_reserved (h : op = 0x0E ∨ op = 0x0F) :
    ∃ j, decodeOp order cc op rest = .instr j ∧ j.isReserved = true := by
  rcases h with rfl | rfl
  · exact ⟨.reserved0E cc, rfl, rfl⟩
  · exact ⟨.reserved0F cc, rfl, rfl⟩

end

/-! ## Prefix bytes -/

/-- A byte with the field 6 is the encoding of what it is read as (R92, R108). -/
theorem decodePrefix_encode (order : ByteOrder) (op : BitVec 5) :
    (decodePrefix op).wf = true ∧ (decodePrefix op).cond? = none ∧ encode order (decodePrefix op) = [(6 : BitVec 3) ++ op] := by
  revert op
  cases order <;> decide

theorem decodePrefix_isReserved (op : BitVec 5) :
    (decodePrefix op).isReserved = true ↔ 2 ≤ op.toNat ∧ op.toNat ≤ 15 := by
  revert op
  decide

/-! ## The statements -/

/-- Settles O2: the first byte is one of the prefixes or an opcode byte, and either way what is read is its own encoding. -/
theorem encodeOfDecode : Obligations.EncodeOfDecode := by
  intro order xc bs i h
  match bs with
  | [] => cases h
  | b :: rest =>
    rw [decode] at h
    cases hc : condOfField xc (condField b) with
    | none =>
      obtain ⟨rfl, hfield⟩ := condOfField_none.mp hc
      obtain ⟨hwf, hcond, henc⟩ := decodePrefix_encode order (opField b)
      rw [hc] at h
      injection h with h
      subst h
      refine ⟨hwf, by rw [Instr.extended, hcond], rest, ?_⟩
      rw [henc, ← hfield, condField_append_opField, List.singleton_append]
    | some cc =>
      obtain ⟨hfield, hext⟩ := condOfField_some hc
      rw [hc] at h
      obtain ⟨bytes, tail, hi, hb⟩ := decodeOp_instr h
      refine ⟨hi.wf, by rw [Instr.extended, hi.cond, ← hext], tail, ?_⟩
      rw [hi.encode, ← hb, opByte, hfield, condField_append_opField]

/-- Settles O3: the longest format takes three bytes after the opcode byte. -/
theorem decoderTotal : Obligations.DecoderTotal := by
  intro order xc bs hlen
  have hmore : decode order xc bs ≠ .more := by
    match bs with
    | [] => cases hlen
    | b :: rest =>
      rw [decode]
      cases condOfField xc (condField b) with
      | none => exact Decoded.noConfusion
      | some cc => exact decodeOp_ne_more (Nat.le_of_succ_le_succ hlen)
  cases h : decode order xc bs with
  | more => exact absurd h hmore
  | instr i => exact ⟨i, rfl⟩

/-- A byte as a number, from its two fields (R91). -/
theorem toNat_eq_fields (b : Byte) :
    (condField b).toNat = b.toNat / 32 ∧ (opField b).toNat = b.toNat % 32 := by
  have hb := b.isLt
  simp only [condField, opField, BitVec.extractLsb'_toNat, Nat.shiftRight_eq_div_pow]
  omega

/-- Settles O4: where prefixes can stand the fields of the byte decide, elsewhere its opcode alone. -/
theorem reservedEncodings : Obligations.ReservedEncodings := by
  intro order xc b rest
  obtain ⟨hcond, hop⟩ := toNat_eq_fields b
  rw [decode]
  cases hc : condOfField xc (condField b) with
  | none =>
    obtain ⟨rfl, hfield⟩ := condOfField_none.mp hc
    have h6 : b.toNat / 32 = 6 := by rw [← hcond, hfield]; rfl
    have hres : (∃ i, Decoded.instr (decodePrefix (opField b)) = .instr i ∧ i.isReserved = true) ↔
        (decodePrefix (opField b)).isReserved = true := by simp
    rw [hres, decodePrefix_isReserved, hop, if_pos ⟨rfl, h6⟩]
    omega
  | some cc =>
    have hnot : ¬ (xc = false ∧ b.toNat / 32 = 6) := by
      rintro ⟨hx, h6⟩
      have hnone := condOfField_none.mpr ⟨hx, BitVec.eq_of_toNat_eq (y := (6 : BitVec 3)) (hcond.trans h6)⟩
      rw [hnone] at hc
      cases hc
    have hnum : b.toNat % 32 = 0x0E ∨ b.toNat % 32 = 0x0F ↔ opField b = 0x0E ∨ opField b = 0x0F := by
      rw [← hop, ← BitVec.toNat_inj, ← BitVec.toNat_inj]
      rfl
    rw [if_neg hnot, hnum]
    constructor
    · rintro ⟨i, hi, hr⟩
      obtain ⟨bytes, tail, his, -⟩ := decodeOp_instr hi
      rw [his.reserved] at hr
      exact of_decide_eq_true hr
    · exact decodeOp_of_reserved

/-- Settles O5: each word is evaluated. -/
theorem sampleWords : Obligations.SampleWords := by
  unfold Obligations.SampleWords
  decide

end Sys2Proof
end

section
/-!
What every step keeps (R41, R43, R254, R258, R266). A step starts from the beginning of an instruction or from the return of a handler (`StepBase`) and ends in one of two ways (`Ends`): in its thread, or by entering a fault handler for an address without a translation. The invariant, the isolation of the faulting thread and the switches of the MMU are each read off these two.
-/
namespace Sys2Proof.Machine

/-! ## The two ends of a step -/

/-- From `b` the step comes to `r`: it ends in its thread, where only a machine with the MMU enabled can have halted for an unmapped page; or, after changes inside the thread, it enters a handler for an address without a translation (R250, R252, R263). -/
inductive Ends (b r : State) : Prop where
  | stays (thread : Stays b r) (decode : r.decode = DecodeState.empty ∨ r.decode.insnPc = b.decode.insnPc)
    (unmapped : r.run = .halted .unmapped → b.mmuEnabled = true ∨ b.run = .halted .unmapped)
  | faults (t : State) (page : Byte) (va : Word) (a : Access) (work : Work) (thread : Local b t)
    (untranslated : t.translate va a = none) (entry : r = t.enterHandler page va a work)

theorem Stays.refl (s : State) : Stays s s := (Local.refl s).stays

theorem Stays.halt (s : State) (reason : HaltReason) : Stays s (s.halt reason) :=
  ⟨rfl, rfl, rfl, rfl, rfl, id, rfl⟩

theorem Stays.beginInstr (s : State) : Stays s s.beginInstr :=
  ⟨rfl, rfl, rfl, rfl, rfl, id, rfl⟩

/-- A step that goes on with the decode state it has, inside the thread. -/
theorem Ends.of_local {b r : State} (h : Local b r) : Ends b r :=
  .stays h.stays (.inr (congrArg DecodeState.insnPc h.decode)) (fun hr => .inr (h.run ▸ hr))

/-- The end of an instruction ends a step (R44). -/
theorem Ends.finish (b : State) : Ends b b.finish :=
  .stays (Stays.finish b) (.inl rfl) .inr

/-- A trap ends a step by a halt, or by the entry of a handler when the address has no translation. -/
theorem Ends.of_takeTrap {b t : State} {trap : Trap} (h : Local b t) (ht : TrapOf t trap) (work : Work) :
    Ends b (t.takeTrap trap work) := by
  have hdec : b.decode.insnPc = t.decode.insnPc := (congrArg DecodeState.insnPc h.decode).symm
  have halts (reason : HaltReason) (hmmu : reason = .unmapped → t.mmuEnabled = true) : Ends b (t.halt reason) :=
    .stays (h.stays.trans (Stays.halt t reason)) (.inr hdec.symm)
      (fun hr => .inl (h.mmuEnabled ▸ hmmu (RunState.halted.inj hr)))
  rcases ht with rfl | ⟨va, a, rfl, hnone⟩
  · exact halts .doubleFault (fun e => nomatch e)
  · by_cases hp : t.handlerPage va = 0
    · rw [State.takeTrap, State.pageFault, if_pos hp]
      exact halts .unmapped (fun _ => (State.translate_none.mp hnone).1)
    · rw [State.takeTrap, State.pageFault, if_neg hp]
      exact .faults t _ va a work h hnone rfl

/-- An executed instruction ends a step. -/
theorem Executed.ends {b t r : State} (h : Local b t) (hx : Executed t r) : Ends b r := by
  rcases hx with ⟨hstays, hdec, hrun⟩ | ⟨u, trap, work, hl, rfl, ht⟩
  · refine .stays (h.stays.trans hstays) (h.decode ▸ hdec) (fun hr => .inr ?_)
    rw [hr, h.run] at hrun
    rcases hrun with h1 | h1 | h1 | h1 | h1
    · exact h1.symm
    all_goals cases h1
  · exact .of_takeTrap (h.trans hl) ht work

/-- Only a running machine takes a step, and the step leads from its base to one of the two ends. -/
theorem step_ends {s r : State} (h : step s = .next r) : s.run = .running ∧ ∃ b, StepBase s b ∧ Ends b r := by
  have hrun : s.run = .running := by
    cases hr : s.run with
    | running => rfl
    | paused => simp [step, hr] at h
    | halted reason => simp [step, hr] at h
  refine ⟨hrun, ?_⟩
  obtain ⟨r', hr', hcase⟩ := step_cases hrun
  obtain rfl : r' = r := by
    rw [hr'] at h
    injection h
  rcases hcase with ⟨u, hret, hu, rfl⟩ | ⟨b, t, hb, hl, hx | rfl⟩
  · exact ⟨_, .inr ⟨u, hret, hu, rfl⟩, .finish _⟩
  · exact ⟨b, hb, Executed.ends hl hx⟩
  · exact ⟨b, hb, .of_local hl⟩

theorem atHandlerReturn_iff (s : State) : s.atHandlerReturn = true ↔
    s.active = .exception ∧ s.pc = s.config.excReturnAddr ∧ s.decode.insnPc = none := by
  simp [State.atHandlerReturn, and_assoc]

/-! ## A running machine -/

theorem StepBase.config {s b : State} (h : StepBase s b) : b.config = s.config := by
  rcases h with rfl | ⟨u, -, -, rfl⟩
  · exact s.beginInstr_config
  · exact s.returnFromHandler_config u

theorem Ends.config {b r : State} (h : Ends b r) : r.config = b.config := by
  cases h with
  | stays thread decode unmapped => exact thread.config
  | faults t page va a work thread untranslated entry => rw [entry, State.enterHandler_config, thread.config]

/-- Settles O54: `step_cases` gives the next state, and neither its base nor its end touches the parameters. -/
theorem runningMachine : Obligations.RunningMachine := by
  intro s hrun
  obtain ⟨r, hr, -⟩ := step_cases hrun
  obtain ⟨-, b, hb, hends⟩ := step_ends hr
  exact ⟨r, hr, hends.config.trans hb.config⟩

/-! ## The invariant -/

/-- The suspended instruction, if there is one, belongs to the context that does not execute. -/
theorem State.Inv.active_of_suspended {s : State} (h : s.Inv) {u : Suspended} (hu : s.suspended = some u) :
    s.active = .exception := by
  cases ha : s.active with
  | exception => rfl
  | normal => rw [h.suspendedIff.mpr ha] at hu; cases hu

theorem State.Inv.active_of_mmu {s : State} (h : s.Inv) (hm : s.mmuEnabled = true) : s.active = .normal :=
  (h.mmu.mp hm).1

/-- In the handler's thread the idle context is that of the faulting thread, in the normal thread the exception context. -/
theorem Stays.normal_of_exception {s t : State} (h : Stays s t) (ha : s.active = .exception) : t.normal = s.normal := by
  have hidle := h.idle
  simpa only [State.idle, h.active, ha] using hidle

theorem Stays.exception_of_normal {s t : State} (h : Stays s t) (ha : s.active = .normal) :
    t.exception = s.exception := by
  have hidle := h.idle
  simpa only [State.idle, h.active, ha] using hidle

/-- Slot 0 of both register files stays: that of the running thread by `Stays.slotZero`, that of the other because it is idle. -/
theorem Stays.slotsZero {s t : State} (h : Stays s t) (hs : s.Inv) :
    t.normal.regs.get 0 = 0 ∧ t.exception.regs.get 0 = 0 := by
  have hslot := h.slotZero
  cases ha : s.active with
  | normal =>
    simp only [State.ctx, h.active, ha] at hslot
    exact ⟨hslot.trans hs.normalZero, (h.exception_of_normal ha) ▸ hs.exceptionZero⟩
  | exception =>
    simp only [State.ctx, h.active, ha] at hslot
    exact ⟨(h.normal_of_exception ha) ▸ hs.normalZero, hslot.trans hs.exceptionZero⟩

/-- A step that stays in its thread keeps the invariant, if it remembers prefixes only inside an instruction. -/
theorem Stays.inv {s t : State} (h : Stays s t) (hs : s.Inv) (hb : t.decode.insnPc = none → t.decode = DecodeState.empty) :
    t.Inv where
  mem := h.memWf hs.mem
  normalZero := (h.slotsZero hs).1
  exceptionZero := (h.slotsZero hs).2
  mmu := by rw [h.mmuEnabled, h.active, h.config]; exact hs.mmu
  handled ha := by rw [h.config]; exact hs.handled (h.active ▸ ha)
  suspendedIff := by rw [h.suspended, h.active]; exact hs.suspendedIff
  boundary := hb
  inFlight u hu := by
    rw [h.suspended] at hu
    rw [h.normal_of_exception (hs.active_of_suspended hu)]
    exact hs.inFlight u hu
  discarded ha := by
    rw [h.active] at ha
    exact (h.exception_of_normal ha).trans (hs.discarded ha)

/-- The entry of a handler keeps the invariant: it is entered from the normal thread, whose registers it leaves and saves (R254, R255, R256). -/
theorem State.enterHandler_inv {t : State} (h : t.Inv) (hm : t.mmuEnabled = true) (page : Byte) (va : Word) (a : Access)
    (work : Work) : (t.enterHandler page va a work).Inv where
  mem := by rw [State.enterHandler_mem_eq]; exact State.rawWriteWords_wf h.mem _ _
  normalZero := by rw [State.enterHandler_normal]; exact h.normalZero
  exceptionZero := rfl
  mmu := by simp
  handled _ := by rw [State.enterHandler_config]; exact (h.mmu.mp hm).2
  suspendedIff := by simp
  boundary _ := rfl
  inFlight u hu := by
    obtain rfl := Option.some.inj hu
    refine ⟨rfl, ?_⟩
    rw [State.enterHandler_normal, State.pc, State.reg, State.ctx, h.active_of_mmu hm]
  discarded ha := nomatch ha

theorem State.restoredRegs_slotZero (s : State) (u : Suspended) : (s.restoredRegs u).get 0 = 0 := by
  simp [State.restoredRegs, Vector.get_eq_getElem]

/-- The return of a handler keeps the invariant (R258). -/
theorem State.returnFromHandler_inv {s : State} {u : Suspended} (h : s.Inv) (ha : s.active = .exception)
    (hu : s.suspended = some u) : (s.returnFromHandler u).Inv where
  mem := by
    rw [State.returnFromHandler_mem]
    exact h.mem
  normalZero := s.restoredRegs_slotZero u
  exceptionZero := by
    rw [State.returnFromHandler]
    rfl
  mmu := by simp [h.handled ha]
  handled hx := by
    rw [State.returnFromHandler_active_eq] at hx
    cases hx
  suspendedIff := by simp
  boundary hb := by
    rw [State.returnFromHandler_decode_eq, (h.inFlight u hu).1] at hb
    cases hb
  inFlight v hv := by
    rw [State.returnFromHandler_suspended_eq] at hv
    cases hv
  discarded _ := by rw [State.returnFromHandler]

/-- The base of a step meets the invariant, and is inside an instruction. -/
theorem StepBase.inv {s b : State} (hs : s.Inv) (h : StepBase s b) : b.Inv ∧ b.decode.insnPc ≠ none := by
  rcases h with rfl | ⟨u, hret, hu, rfl⟩
  · exact ⟨(Stays.beginInstr s).inv hs (fun hb => nomatch hb), Option.some_ne_none _⟩
  · obtain ⟨ha, -, -⟩ := (atHandlerReturn_iff s).mp hret
    refine ⟨State.returnFromHandler_inv hs ha hu, ?_⟩
    rw [State.returnFromHandler_decode_eq, (hs.inFlight u hu).1]
    exact Option.some_ne_none _

/-- Settles O57: the base of a step meets the invariant, and both ends of a step keep it. -/
theorem stepKeepsInv : Obligations.StepKeepsInv := by
  intro s r hs hstep
  obtain ⟨-, b, hb, hends⟩ := step_ends hstep
  obtain ⟨hinv, hinside⟩ := hb.inv hs
  cases hends with
  | stays thread decode unmapped =>
    refine thread.inv hinv (fun hnone => ?_)
    rcases decode with hempty | hsame
    · exact hempty
    · exact absurd (hsame.symm.trans hnone) hinside
  | faults t page va a work thread untranslated entry =>
    have ht : t.Inv := thread.stays.inv hinv (fun hnone => absurd (thread.decode ▸ hnone) hinside)
    rw [entry]
    exact State.enterHandler_inv ht (State.translate_none.mp untranslated).1 page va a work

/-- Settles O56: the base case of the invariant. -/
theorem resetInv : Obligations.ResetInv where
  mem := State.reset_mem_wf
  normalZero := by decide
  exceptionZero := by decide
  mmu := by decide
  handled := by decide
  suspendedIff := by decide
  boundary _ := rfl
  inFlight _ h := nomatch h
  discarded _ := rfl

/-! ## The isolation of the faulting thread and the switches of the MMU -/

/-- Settles O58: a step that is not the return starts in the handler's thread, and with the MMU disabled no page fault ends it. -/
theorem handlerIsolated : Obligations.HandlerIsolated := by
  intro s r hactive hmmu hnot hstep
  obtain ⟨hrun, b, hb, hends⟩ := step_ends hstep
  obtain rfl : b = s.beginInstr := by
    rcases hb with hb | ⟨u, hret, -, -⟩
    · exact hb
    · exact absurd ((atHandlerReturn_iff s).mp hret).2 hnot
  cases hends with
  | stays thread decode unmapped =>
    refine ⟨thread.active.trans hactive, thread.mmuEnabled.trans hmmu, thread.normal_of_exception hactive,
      thread.suspended, fun hhalt => ?_⟩
    rcases unmapped hhalt with hm | hr
    · exact absurd (hmmu.symm.trans hm) Bool.false_ne_true
    · cases hrun.symm.trans hr
  | faults t page va a work thread untranslated entry =>
    have hm : s.mmuEnabled = true := thread.mmuEnabled ▸ (State.translate_none.mp untranslated).1
    exact absurd (hmmu.symm.trans hm) Bool.false_ne_true

/-- Settles O59: inside a thread the MMU stays as the base of the step has it, so a change is an entry from the normal thread or a return to it. -/
theorem mmuSwitches : Obligations.MmuSwitches := by
  intro s r hs hstep hne
  obtain ⟨-, b, hb, hends⟩ := step_ends hstep
  cases hends with
  | stays thread decode unmapped =>
    rcases hb with rfl | ⟨u, hret, -, rfl⟩
    · exact absurd thread.mmuEnabled hne
    · obtain ⟨ha, hpc, hboundary⟩ := (atHandlerReturn_iff s).mp hret
      exact .inr ⟨ha, hpc, hboundary, thread.active, thread.mmuEnabled, thread.suspended⟩
  | faults t page va a work thread untranslated entry =>
    subst entry
    have hm : s.mmuEnabled = true := by
      cases h : s.mmuEnabled with
      | true => rfl
      | false => exact absurd h.symm hne
    have hconfig : t.config = s.config := thread.config.trans hb.config
    refine .inl ⟨hs.active_of_mmu hm, rfl, rfl, ?_, _, rfl, State.enterHandler_reg .., State.enterHandler_reg ..,
      State.enterHandler_reg ..⟩
    rw [State.enterHandler_reg, ← hconfig]
    rfl

end Sys2Proof.Machine
end

section
/-!
What the execution of an instruction leaves alone (R31, R64, R103, R107, R108). Every instruction is of one of three kinds (`Kind`): one of the prefixes, a reserved encoding, or a condition test followed by an operation that keeps memory and flags unless the instruction is one that stores or writes flags. The table of instructions is gone through once, in `exec_kind`.
-/
namespace Sys2Proof.Machine

/-! ## The parts of a data phase that store, and that write flags -/

/-- The part writes a byte of memory. -/
def DataOp.stores : DataOp → Bool
  | .storeByte _ _ | .storeLatch _ => true
  | .loadByte _ | .latchReg _ | .setReg _ | .finishLoad _ _ | .addReg _ _ => false

/-- The part writes the flags. -/
def DataOp.writesFlags : DataOp → Bool
  | .finishLoad _ writeFlags => writeFlags
  | .loadByte _ | .storeByte _ _ | .latchReg _ | .storeLatch _ | .setReg _ | .addReg _ _ => false

section
variable {op : DataOp} {pa : Word} {latch latch' : List Byte} {s t : State}

/-- A part of the data phase that is performed is performed at some physical address. -/
theorem DataOp.performAt_of_perform (h : op.perform latch s = .ok (latch', t)) :
    ∃ pa, op.performAt pa latch s = .ok (latch', t) := by
  rw [DataOp.perform] at h
  split at h
  · exact ⟨0, h⟩
  · split at h
    · cases h
    · exact ⟨_, h⟩

/-- A read that succeeds changes nothing. -/
theorem DataOp.performAt_loadByte_ok {va : Word} (h : (DataOp.loadByte va).performAt pa latch s = .ok (latch', t)) :
    t = s := by
  cases ha : s.accessible pa with
  | false => rw [DataOp.performAt_denied (a := .read) rfl ha] at h; cases h
  | true =>
    rw [DataOp.performAt, State.readAt_ok ha] at h
    cases h
    rfl

/-- Only a store changes memory (R64). -/
theorem DataOp.perform_mem (hop : op.stores = false) (h : op.perform latch s = .ok (latch', t)) : t.mem = s.mem := by
  obtain ⟨pa, h⟩ := DataOp.performAt_of_perform h
  cases op with
  | storeByte | storeLatch => cases hop
  | loadByte va => rw [DataOp.performAt_loadByte_ok h]
  | latchReg | setReg | finishLoad | addReg => cases h; rfl

/-- A write that succeeds is the unchecked write of a byte. -/
theorem State.writeAt_map_ok {b : Byte} (h : (s.writeAt pa b).map (fun u => (latch, u)) = .ok (latch', t)) :
    t = s.rawWrite pa b := by
  cases ha : s.accessible pa with
  | false => rw [State.writeAt_denied ha] at h; cases h
  | true => rw [State.writeAt_ok ha] at h; cases h; rfl

/-- Only the end of a load that writes flags changes them. -/
theorem DataOp.perform_flags (hop : op.writesFlags = false) (h : op.perform latch s = .ok (latch', t)) :
    t.flags = s.flags := by
  obtain ⟨pa, h⟩ := DataOp.performAt_of_perform h
  cases op with
  | storeByte | storeLatch => rw [State.writeAt_map_ok h, State.rawWrite_flags]
  | loadByte va => rw [DataOp.performAt_loadByte_ok h]
  | latchReg => cases h; rfl
  | setReg | addReg => cases h; exact State.setReg_flags ..
  | finishLoad rd writeFlags =>
    cases h
    cases hop
    exact (State.setFlagsIf_flags ..).trans (State.setReg_flags ..)

end

/-- As `State.runData_cases`, for a part `f` of the state that each part of the data phase keeps. -/
theorem State.runData_cases_of_keeps {α : Type} (f : State → α) {ops : List DataOp}
    (hops : ∀ op ∈ ops, ∀ (latch latch' : List Byte) (s t : State), op.perform latch s = .ok (latch', t) → f t = f s)
    (latch : List Byte) (s : State) :
    ∃ t, Local s t ∧ f t = f s ∧ (State.runData ops latch s = t.finish ∨
      ∃ trap work, State.runData ops latch s = t.takeTrap trap work ∧ TrapOf t trap) := by
  induction ops generalizing latch s with
  | nil => exact ⟨s, Local.refl s, rfl, .inl rfl⟩
  | cons op rest ih =>
    rw [State.runData]
    cases h : op.perform latch s with
    | error trap => exact ⟨s, Local.refl s, rfl, .inr ⟨trap, .data op rest latch, rfl, DataOp.perform_error h⟩⟩
    | ok p =>
      obtain ⟨latch', s'⟩ := p
      obtain ⟨t, hl, hf, hc⟩ := ih (fun o ho => hops o (List.mem_cons_of_mem op ho)) latch' s'
      exact ⟨t, (DataOp.perform_local h).trans hl, hf.trans (hops op List.mem_cons_self latch latch' s s' h), hc⟩

/-! ## The kinds of instructions -/

/-- What an instruction `i` does at `s` once its condition holds, if it comes to `r`: memory stays, and so do the flags when it does not write them; or it runs a data phase after register writes, whose parts store only if `i` stores and write flags only if `i` does (R31, R64). -/
inductive Operation (i : Instr) (cc : Cond) (s : State) : State → Prop where
  | plain {r : State} (mem : r.mem = s.mem) (flags : s.writesFlags cc = false → r.flags = s.flags) : Operation i cc s r
  | data {t : State} {written : List Reg} (ops : List DataOp) (writes : RegWrites s t written)
    (stores : i.stores = false → ∀ op ∈ ops, op.stores = false)
    (flags : s.writesFlags cc = false → ∀ op ∈ ops, op.writesFlags = false) :
    Operation i cc s (State.runData ops [] t)

/-- The three kinds of instructions (R102, R103, R107, R108, R210). -/
inductive Kind (i : Instr) (s : State) : Prop where
  | operation (cc : Cond) (r : State) (cond : i.cond? = some cc) (assigned : i.isReserved = false)
    (exec : exec i s = s.conditional cc r) (effect : Operation i cc s r)
  | reserved (reserved : i.isReserved = true) (exec : exec i s = .next (s.halt .decode))
  | prefixByte (d : DecodeState) (cond : i.cond? = none) (assigned : i.isReserved = false)
    (exec : exec i s = .next { s with decode := d })

section
variable {i : Instr} {cc : Cond} {s : State}

theorem Operation.complete (t : State) (rd : Reg) (r : Word) (f : Flags) (hmem : t.mem = s.mem) (hflags : t.flags = s.flags)
    (hw : t.writesFlags cc = s.writesFlags cc) : Operation i cc s (t.complete cc rd r f) :=
  .plain hmem (fun h => by rw [State.complete_flags, hw, h, hflags]; rfl)

theorem Operation.completePair (rd : Reg) (r v : Word) (f : Flags) : Operation i cc s (s.completePair cc rd r v f) :=
  .plain rfl (fun h => by rw [State.completePair_flags, h]; rfl)

theorem Operation.completeFlags (t : State) (f : Flags) (hmem : t.mem = s.mem) (hflags : t.flags = s.flags)
    (hw : t.writesFlags cc = s.writesFlags cc) : Operation i cc s (t.completeFlags cc f) :=
  .plain hmem (fun h => by rw [State.completeFlags_flags, hw, h, hflags]; rfl)

theorem Operation.regWrites {t : State} {written : List Reg} (h : RegWrites s t written) : Operation i cc s t.finish :=
  .plain h.mem (fun _ => h.flags)

/-- A division that halts changes neither memory nor flags, one that completes is a pair of results. -/
theorem Kind.dvu (rx : Reg) (vy : Vy) : Kind (.dvu cc rx vy) s := by
  refine .operation cc _ rfl rfl rfl ?_
  split
  · exact .plain rfl (fun _ => rfl)
  · exact .completePair ..

theorem Kind.dvs (rx : Reg) (vy : Vy) : Kind (.dvs cc rx vy) s := by
  refine .operation cc _ rfl rfl rfl ?_
  split
  · exact .plain rfl (fun _ => rfl)
  split
  · exact .plain rfl (fun _ => rfl)
  · exact .completePair ..

/-- `PSH` writes no flags. -/
theorem pushOps_writesFlags (a : Word) (rs : List Reg) : ∀ op ∈ pushOps a rs, op.writesFlags = false := by
  induction rs generalizing a with
  | nil => exact fun _ h => nomatch h
  | cons r rs ih => simpa [pushOps, wordOps, DataOp.writesFlags] using ih (a + 2)

/-- `POP` stores nothing and writes no flags. -/
theorem popOps_keep (a : Word) (rs : List Reg) : ∀ op ∈ popOps a rs, op.stores = false ∧ op.writesFlags = false := by
  induction rs generalizing a with
  | nil => exact fun _ h => nomatch h
  | cons r rs ih => simpa [popOps, wordOps, DataOp.writesFlags, DataOp.stores] using ih (a + 2)

theorem pullOps_keep (a : Word) (rs : List Reg) (rd : Reg) (delta : Word) :
    ∀ op ∈ popOps a rs ++ [DataOp.addReg rd delta], op.stores = false ∧ op.writesFlags = false := by
  intro op hop
  rcases List.mem_append.mp hop with h | h
  · exact popOps_keep a rs op h
  · rw [List.mem_singleton.mp h]
    exact ⟨rfl, rfl⟩

end

theorem RegWrites.trans {s t u : State} {written more : List Reg} (h : RegWrites s t written) (k : RegWrites t u more) :
    RegWrites s u (written ++ more) where
  changes := h.changes.trans k.changes
  mem := k.mem.trans h.mem
  flags := k.flags.trans h.flags
  regs r hr := by
    obtain ⟨hw, hm⟩ := not_or.mp (mt List.mem_append.mpr hr)
    rw [k.regs r hm, h.regs r hw]

/-- Every instruction is of one of the three kinds. -/
theorem exec_kind (i : Instr) (s : State) : Kind i s := by
  cases i with
  | add cc | sub cc | xor cc | and cc | orr cc | shl cc | sru cc | srs cc | mov cc | inc cc =>
    exact .operation cc _ rfl rfl rfl (.complete s _ _ _ rfl rfl rfl)
  | mlu cc | mls cc => exact .operation cc _ rfl rfl rfl (.completePair ..)
  | dvu cc rx vy => exact .dvu rx vy
  | dvs cc rx vy => exact .dvs rx vy
  | cmp cc => exact .operation cc _ rfl rfl rfl (.completeFlags s _ rfl rfl rfl)
  | ldw cc rx vy =>
    exact .operation cc _ rfl rfl rfl (.data _ (.refl s) (by simp [wordOps, DataOp.stores])
      (by simp [wordOps, DataOp.writesFlags]))
  | ldb cc rx vy =>
    exact .operation cc _ rfl rfl rfl (.data _ (.refl s) (by simp [DataOp.stores]) (by simp [DataOp.writesFlags]))
  | stw cc rx vy => exact .operation cc _ rfl rfl rfl (.data _ (.refl s) (fun h => nomatch h) (by simp [DataOp.writesFlags]))
  | stb cc rx v8 => exact .operation cc _ rfl rfl rfl (.data _ (.refl s) (fun h => nomatch h) (by simp [DataOp.writesFlags]))
  | psh cc regs =>
    exact .operation cc _ rfl rfl rfl (.data _ ((RegWrites.refl s).setReg _ _) (fun h => nomatch h)
      (fun _ => pushOps_writesFlags _ _))
  | pop cc regs =>
    exact .operation cc _ rfl rfl rfl (.data _ (.refl s) (fun _ op h => (pullOps_keep _ _ _ _ op h).1)
      (fun _ op h => (pullOps_keep _ _ _ _ op h).2))
  | bra cc rx vy => exact .operation cc _ rfl rfl rfl (.regWrites (.branch s _ _))
  | brr cc imm => exact .operation cc _ rfl rfl rfl (.regWrites ((RegWrites.refl s).setReg _ _))
  | fca cc rx vy =>
    exact .operation cc _ rfl rfl rfl (.regWrites ((RegWrites.link s).trans (.branch s.link _ _)))
  | fcr cc imm => exact .operation cc _ rfl rfl rfl (.regWrites ((RegWrites.link s).setReg _ _))
  | rdb cc rx port => exact .operation cc _ rfl rfl rfl (.complete _ _ _ _ rfl rfl rfl)
  | wrb cc port v8 => exact .operation cc _ rfl rfl rfl (.completeFlags _ _ rfl rfl rfl)
  | bpt cc | hlt cc | nop cc => exact .operation cc _ rfl rfl rfl (.plain rfl (fun _ => rfl))
  | xc | tf | dr => exact .prefixByte _ rfl rfl rfl
  | reserved0E | reserved0F | reservedPrefixC2 | reservedPrefixC3 | reservedPrefixC4 | reservedPrefixC5
  | reservedPrefixC6 | reservedPrefixC7 | reservedPrefixC8 | reservedPrefixC9 | reservedPrefixCA | reservedPrefixCB
  | reservedPrefixCC | reservedPrefixCD | reservedPrefixCE | reservedPrefixCF => exact .reserved rfl rfl

/-! ## What the kinds give at once -/

/-- Settles O8: an instruction with a condition that is not reserved tests it first. -/
theorem falseCondition : Obligations.FalseCondition := by
  intro i cc s hcond hres hfalse
  cases exec_kind i s with
  | operation cc' r cond assigned exec effect =>
    obtain rfl := Option.some.inj (cond.symm.trans hcond)
    exact exec.trans (State.conditional_false hfalse r)
  | reserved reserved exec => cases reserved.symm.trans hres
  | prefixByte d cond assigned exec => cases cond.symm.trans hcond

/-- Settles O40: a reserved encoding is of the kind that halts. -/
theorem reservedHalt : Obligations.ReservedHalt := by
  intro i s hres
  cases exec_kind i s with
  | operation cc r cond assigned exec effect => cases assigned.symm.trans hres
  | reserved reserved exec => exact exec
  | prefixByte d cond assigned exec => cases assigned.symm.trans hres

/-- Settles O38: the operations of `BPT`, `HLT` and `NOP`. -/
theorem bptHltNopResults : Obligations.BptHltNopResults := fun _ _ hcond =>
  ⟨State.conditional_true hcond _, State.conditional_true hcond _, State.conditional_true hcond _⟩

/-- Settles O39: the meanings of the three prefixes. -/
theorem prefixResults : Obligations.PrefixResults := fun _ _ => ⟨rfl, rfl, rfl⟩

/-! ## Flags and memory -/

/-- With the MMU enabled in the normal thread alone, a trap that does not change the thread is a halt (R41, R252). -/
theorem TrapOf.halts {t : State} {trap : Trap} {work : Work} (ht : TrapOf t trap)
    (hmmu : t.mmuEnabled = true → t.active = .normal) (hsame : (t.takeTrap trap work).active = t.active) :
    ∃ reason, t.takeTrap trap work = t.halt reason := by
  rcases State.takeTrap_cases t trap work with hhalt | ⟨va, a, rfl, -, hentry⟩
  · exact hhalt
  · rcases ht with hd | ⟨va', a', he, hnone⟩
    · cases hd
    · cases he
      rw [hentry, State.enterHandler_active_eq, hmmu (State.translate_none.mp hnone).1] at hsame
      cases hsame

/-- A data phase whose parts keep `f`, from a state that meets the invariant up to register writes, keeps `f` if it stays in its thread. -/
theorem State.runData_keeps {α : Type} (f : State → α) (hfinish : ∀ u : State, f u.finish = f u)
    (hhalt : ∀ (u : State) (reason : HaltReason), f (u.halt reason) = f u) {s t : State} (hs : s.Inv) (hl : Local s t)
    {ops : List DataOp}
    (hops : ∀ op ∈ ops, ∀ (latch latch' : List Byte) (s t : State), op.perform latch s = .ok (latch', t) → f t = f s)
    (hsame : (State.runData ops [] t).active = s.active) : f (State.runData ops [] t) = f t := by
  obtain ⟨u, hu, hf, hend | ⟨trap, work, hend, ht⟩⟩ := State.runData_cases_of_keeps f hops [] t
  · rw [hend, hfinish, hf]
  · have hmmu : u.mmuEnabled = true → u.active = .normal := fun hm => by
      rw [hu.mmuEnabled, hl.mmuEnabled] at hm
      rw [hu.active, hl.active, hs.active_of_mmu hm]
    obtain ⟨reason, hr⟩ := ht.halts (work := work) hmmu (by rw [← hend, hsame, hu.active, hl.active])
    rw [hend, hr, hhalt, hf]

/-- Settles O7: the operation of an instruction that does not write flags keeps them, as long as it stays in its thread. -/
theorem flagsKept : Obligations.FlagsKept := by
  intro i cc s r hs hcond htf hexec hsame
  have hw : s.writesFlags cc = false := by
    rw [Bool.eq_false_iff, ne_eq, State.writesFlags_iff, htf]
    cases s.decode.tf <;> simp
  cases exec_kind i s with
  | operation cc' q cond assigned exec effect =>
    obtain rfl := Option.some.inj (cond.symm.trans hcond)
    rw [exec] at hexec
    cases hc : condHolds cc' s.flags with
    | false =>
      obtain rfl := Host.Outcome.next.inj ((State.conditional_false hc q).symm.trans hexec)
      rfl
    | true =>
      obtain rfl := Host.Outcome.next.inj ((State.conditional_true hc q).symm.trans hexec)
      cases effect with
      | plain mem flags => exact flags hw
      | data ops writes stores flags =>
        exact (State.runData_keeps State.flags (fun _ => rfl) (fun _ _ => rfl) hs writes.changes
          (fun op hop _ _ _ _ => DataOp.perform_flags (flags hw op hop)) hsame).trans writes.flags
  | reserved reserved exec => rw [Host.Outcome.next.inj (hexec.symm.trans exec), State.halt_flags]
  | prefixByte d cond assigned exec => cases cond.symm.trans hcond

/-- The entry of a handler leaves the bytes outside the saved registers area (R255). -/
theorem State.enterHandler_read (s : State) (page : Byte) (va : Word) (a : Access) (work : Work) {b : Nat}
    (hb : ¬ InSavedArea s.config b) : (s.enterHandler page va a work).mem.read b = s.mem.read b := by
  rw [State.enterHandler_mem_eq]
  refine State.rawWriteWords_read _ _ _ _ (fun k hk hbk => hb ⟨k, ?_, hbk⟩)
  simpa [State.savedWords] using hk

/-- A trap leaves the bytes outside the saved registers area. -/
theorem State.takeTrap_read (s : State) (trap : Trap) (work : Work) {b : Nat} (hb : ¬ InSavedArea s.config b) :
    (s.takeTrap trap work).mem.read b = s.mem.read b := by
  rcases State.takeTrap_cases s trap work with ⟨reason, hr⟩ | ⟨va, a, -, -, hr⟩
  · rw [hr, State.halt_mem]
  · rw [hr, State.enterHandler_read s _ _ _ _ hb]

/-- The operation of an instruction that does not store leaves memory, but for the saved registers area if it enters a handler. -/
theorem Operation.memoryKept {i : Instr} {cc : Cond} {s r : State} (h : Operation i cc s r) (hi : i.stores = false) :
    (∀ a, ¬ InSavedArea s.config a → r.mem.read a = s.mem.read a) ∧
      (s.Inv → r.active = s.active → ∀ a, r.mem.read a = s.mem.read a) := by
  cases h with
  | plain mem flags => exact ⟨fun a _ => by rw [mem], fun _ _ a => by rw [mem]⟩
  | @data t written ops writes stores flags =>
    have hops : ∀ op ∈ ops, ∀ (latch latch' : List Byte) (s t : State), op.perform latch s = .ok (latch', t) →
        t.mem = s.mem := fun op hop _ _ _ _ => DataOp.perform_mem (stores hi op hop)
    constructor
    · intro a ha
      obtain ⟨u, hu, hmem, hend | ⟨trap, work, hend, -⟩⟩ := State.runData_cases_of_keeps State.mem hops [] t
      · rw [hend, State.finish_mem, hmem, writes.mem]
      · have hconfig : u.config = s.config := hu.config.trans writes.changes.config
        rw [hend, State.takeTrap_read u trap work (hconfig ▸ ha), hmem, writes.mem]
    · intro hs hsame a
      rw [State.runData_keeps State.mem (fun _ => rfl) (fun _ _ => rfl) hs writes.changes hops hsame, writes.mem]

/-- Settles O60: an instruction that does not store is one of the prefixes, a reserved encoding, or an operation that keeps memory. -/
theorem memoryKept : Obligations.MemoryKept := by
  intro i s r hi hexec
  cases exec_kind i s with
  | operation cc q cond assigned exec effect =>
    rw [exec] at hexec
    cases hc : condHolds cc s.flags with
    | false =>
      obtain rfl := Host.Outcome.next.inj ((State.conditional_false hc q).symm.trans hexec)
      exact ⟨fun _ _ => rfl, fun _ _ _ => rfl⟩
    | true =>
      obtain rfl := Host.Outcome.next.inj ((State.conditional_true hc q).symm.trans hexec)
      exact effect.memoryKept hi
  | reserved reserved exec =>
    obtain rfl := Host.Outcome.next.inj (exec.symm.trans hexec)
    exact ⟨fun _ _ => rfl, fun _ _ _ => rfl⟩
  | prefixByte d cond assigned exec =>
    obtain rfl := Host.Outcome.next.inj (exec.symm.trans hexec)
    exact ⟨fun _ _ => rfl, fun _ _ _ => rfl⟩

end Sys2Proof.Machine
end

section
/-!
The arithmetic instructions that were left: the comparison, the two products, the two divisions, the shifts and the move (R133 to R136, R140 to R144). The laws of `State.completePair` and `State.completeFlags` stand first; each instruction then needs only what its operation is as arithmetic.
-/
namespace Sys2Proof.Machine

/-! ## Completion without a result and with two -/

/-- Completing with flags alone changes no register and no byte of memory. -/
theorem State.completeFlags_frame (s : State) (cc : Cond) (f : Flags) : Frame s (s.completeFlags cc f) [] [] where
  regs q _ := State.completeFlags_reg ..
  mem _ _ := by rw [State.completeFlags_mem]
  idle := State.completeFlags_idle ..
  active := State.completeFlags_active ..
  mmuEnabled := State.completeFlags_mmuEnabled ..
  run := State.completeFlags_run ..
  suspended := State.completeFlags_suspended ..
  config := State.completeFlags_config ..
  decode := State.completeFlags_decode_eq ..
  portAnswers := State.completeFlags_portAnswers ..
  portLog := State.completeFlags_portLog ..
  draws := State.completeFlags_draws ..

/-- Completing with a pair of results changes no register but the pair, and nothing else but flags. -/
theorem State.completePair_frame (s : State) (cc : Cond) (rd : Reg) (r v : Word) (f : Flags) :
    Frame s (s.completePair cc rd r v f) [rd, rd ^^^ 1] [] where
  regs q hq := by
    have hrd : q ≠ rd := fun e => hq (by simp [e])
    have hpair : q ≠ rd ^^^ 1 := fun e => hq (by simp [e])
    rw [State.completePair_reg, if_neg hpair, if_neg hrd]
    split
    · next h0 => rw [h0, State.reg_zero]
    · rfl
  mem _ _ := by rw [State.completePair_mem]
  idle := State.completePair_idle ..
  active := State.completePair_active ..
  mmuEnabled := State.completePair_mmuEnabled ..
  run := State.completePair_run ..
  suspended := State.completePair_suspended ..
  config := State.completePair_config ..
  decode := State.completePair_decode_eq ..
  portAnswers := State.completePair_portAnswers ..
  portLog := State.completePair_portLog ..
  draws := State.completePair_draws ..

/-- The two registers of a pair are different (R133). -/
theorem ne_xor_one (rd : Reg) : rd ≠ rd ^^^ 1 := by
  revert rd
  decide

/-- Each register of the pair holds its result, or 0 if it is `R0` (R21, R133). -/
theorem State.completePair_holds (s : State) (cc : Cond) (rd : Reg) (r v : Word) (f : Flags) :
    Holds (s.completePair cc rd r v f) rd r ∧ Holds (s.completePair cc rd r v f) (rd ^^^ 1) v := by
  rw [Holds, Holds, State.completePair_reg, State.completePair_reg, if_neg (ne_xor_one rd), if_pos rfl, if_pos rfl]
  exact ⟨rfl, rfl⟩

/-- As `exec_of_complete`, for an instruction with a pair of results and `ZSP` from the first (R133 to R136, D7). -/
theorem exec_of_completePair {i : Instr} {s : State} {cc : Cond} {rd : Reg} {r v : Word}
    (hexec : exec i s = s.conditional cc (s.completePair cc rd r v (s.flags.setZsp r)))
    (hcond : condHolds cc s.flags = true) :
    ∃ t, exec i s = .next t ∧ Frame s t [rd, rd ^^^ 1] [] ∧ Holds t rd r ∧ Holds t (rd ^^^ 1) v ∧
      FlagsAfter s t cc (fun f => ZspSay f r ∧ f.cf = s.flags.cf ∧ f.vf = s.flags.vf) :=
  ⟨_, hexec.trans (State.conditional_true hcond _), State.completePair_frame .., (State.completePair_holds ..).1,
    (State.completePair_holds ..).2, flagsAfter_of_flags_eq (State.completePair_flags ..) ⟨zspSay_setZsp _ r, rfl, rfl⟩⟩

/-! ## Comparison -/

/-- Settles O12: `CMP` completes with the flags of the subtraction alone. -/
theorem cmpResult : Obligations.CmpResult := fun _ rx vy s hcond =>
  ⟨_, State.conditional_true hcond _, State.completeFlags_frame ..,
    flagsAfter_of_flags_eq (State.completeFlags_flags ..) (setSub_says s.flags (s.reg rx) (s.vy vy))⟩

/-- The sign of the difference, corrected by the overflow, is the order of the signed operands. -/
theorem sub_msb_ne_overflow_iff (vx vy : Word) : (vx - vy).msb ≠ subOverflow vx vy ↔ vx.toInt < vy.toInt := by
  have hsub : (vx - vy).toInt = (vx.toInt - vy.toInt).bmod 65536 := BitVec.toInt_sub
  have hbmod := Int.bmod_def (vx.toInt - vy.toInt) 65536
  have hx := vx.toInt_lt
  have hx' := vx.le_toInt
  have hy := vy.toInt_lt
  have hy' := vy.le_toInt
  have hmsb : (vx - vy).msb = true ↔ (vx - vy).toInt < 0 := by rw [BitVec.msb_eq_toInt, decide_eq_true_iff]
  have hover := subOverflow_iff vx vy
  rw [OutOfRange] at hover
  rw [ne_eq, Bool.eq_iff_iff, hmsb, hover]
  omega

/-- What the flags of a subtraction say of the order of its operands (R32, R144). -/
theorem setSub_compares (f : Flags) (vx vy : Word) :
    ((f.setSub vx vy).zf = true ↔ vx = vy) ∧ ((f.setSub vx vy).cf = true ↔ vy.toNat ≤ vx.toNat) ∧
      ((f.setSub vx vy).sf ≠ (f.setSub vx vy).vf ↔ vx.toInt < vy.toInt) := by
  obtain ⟨⟨hzf, -, -⟩, hcf, -⟩ := setSub_says f vx vy
  exact ⟨hzf.trans sub_eq_zero, hcf, sub_msb_ne_overflow_iff vx vy⟩

/-- Settles O13: each condition reads its flags, which compare the operands. -/
theorem compareThenCondition : Obligations.CompareThenCondition := by
  intro cc rx vy s hcond hwrites
  refine ⟨_, State.conditional_true hcond _, ?_⟩
  rw [State.completeFlags_flags, if_pos ((s.writesFlags_iff cc).mpr hwrites)]
  obtain ⟨⟨-, hsf, hpf⟩, -, -⟩ := setSub_says s.flags (s.reg rx) (s.vy vy)
  obtain ⟨hzf, hcf, hsigned⟩ := setSub_compares s.flags (s.reg rx) (s.vy vy)
  generalize s.flags.setSub (s.reg rx) (s.vy vy) = f at *
  have hnat := BitVec.toNat_inj (x := s.reg rx) (y := s.vy vy)
  have hint := BitVec.toInt_inj (x := s.reg rx) (y := s.vy vy)
  have hzf' : f.zf = false ↔ s.reg rx ≠ s.vy vy := by rw [← Bool.not_eq_true, hzf]
  have hcf' : f.cf = false ↔ ¬ (s.vy vy).toNat ≤ (s.reg rx).toNat := by rw [← Bool.not_eq_true, hcf]
  have hsf' : f.sf = false ↔ (s.reg rx - s.vy vy).getLsbD 15 = false := by
    rw [← Bool.not_eq_true, hsf, Bool.not_eq_true]
  have hpf' : f.pf = false ↔ popcnt (s.reg rx - s.vy vy) % 2 = 0 := by
    rw [← Bool.not_eq_true, hpf]
    omega
  have hordered : f.sf = f.vf ↔ ¬ (s.reg rx).toInt < (s.vy vy).toInt := by rw [← hsigned, not_not]
  simp only [condHolds_eq_iff, condHolds_ne_iff, condHolds_gt_iff, condHolds_le_iff, condHolds_lt_iff, condHolds_ge_iff,
    condHolds_ng_iff, condHolds_ps_iff, condHolds_bg_iff, condHolds_se_iff, condHolds_sm_iff, condHolds_be_iff,
    condHolds_od_iff, condHolds_ev_iff, hzf, hcf, hsigned, hsf, hpf, hzf', hcf', hsf', hpf', hordered, true_and]
  refine ⟨?_, ?_, not_le, ?_, ?_, not_lt, trivial⟩
  · rw [ne_eq, ← hnat]
    omega
  · rw [← hnat]
    omega
  · rw [ne_eq, ← hint]
    omega
  · rw [← hint]
    omega

/-! ## Products -/

/-- The halves of a 32-bit number written as a natural number. -/
theorem ofNat_halves (n : Nat) :
    (BitVec.ofNat 32 n).extractLsb' 0 16 = BitVec.ofNat 16 n ∧
      (BitVec.ofNat 32 n).extractLsb' 16 16 = BitVec.ofNat 16 (n / 65536) := by
  constructor <;> apply BitVec.eq_of_toNat_eq <;>
    simp only [BitVec.extractLsb'_toNat, BitVec.toNat_ofNat, Nat.shiftRight_eq_div_pow] <;> omega

/-- The halves of a 32-bit number written as an integer; the high one is the floor of the quotient. -/
theorem ofInt_halves (n : Int) :
    (BitVec.ofInt 32 n).extractLsb' 0 16 = BitVec.ofInt 16 n ∧
      (BitVec.ofInt 32 n).extractLsb' 16 16 = BitVec.ofInt 16 (n / 65536) := by
  constructor <;> apply BitVec.eq_of_toNat_eq <;>
    simp only [BitVec.extractLsb'_toNat, BitVec.toNat_ofInt, Nat.shiftRight_eq_div_pow] <;> omega

/-- Settles O14: the halves of the unsigned product. -/
theorem mluResult : Obligations.MluResult := by
  intro cc rx vy s hcond
  obtain ⟨hlow, hhigh⟩ := ofNat_halves ((s.reg rx).toNat * (s.vy vy).toNat)
  rw [← hlow, ← hhigh]
  exact exec_of_completePair rfl hcond

/-- Settles O15: the halves of the signed product. -/
theorem mlsResult : Obligations.MlsResult := by
  intro cc rx vy s hcond
  obtain ⟨hlow, hhigh⟩ := ofInt_halves ((s.reg rx).toInt * (s.vy vy).toInt)
  rw [← hlow, ← hhigh]
  exact exec_of_completePair rfl hcond

/-! ## Divisions -/

/-- `DVU` by a nonzero divisor completes with the quotient and the remainder (R135). -/
theorem exec_dvu {s : State} {vy : Vy} (h : s.vy vy ≠ 0) (cc : Cond) (rx : Reg) :
    exec (.dvu cc rx vy) s =
      s.conditional cc (s.completeQuotient cc rx (s.reg rx / s.vy vy) (s.reg rx % s.vy vy)) := by
  show execDvu cc rx vy s = _
  rw [execDvu, if_neg h]

/-- `DVS` that does not halt completes with the quotient and the remainder of its rounding (R136, D9). -/
theorem exec_dvs {s : State} {rx : Reg} {vy : Vy} (h : s.vy vy ≠ 0) (h' : ¬ (s.reg rx = 0x8000 ∧ s.vy vy = 0xFFFF))
    (cc : Cond) :
    exec (.dvs cc rx vy) s = s.conditional cc (s.completeQuotient cc rx
      (BitVec.ofInt 16 (divSigned s.config.dvsRounding (s.reg rx) (s.vy vy)))
      (BitVec.ofInt 16 (remSigned s.config.dvsRounding (s.reg rx) (s.vy vy)))) := by
  show execDvs cc rx vy s = _
  rw [execDvs, if_neg h, if_neg h']

/-- Settles O16: the quotient and the remainder of the words are those of the numbers. -/
theorem dvuResult : Obligations.DvuResult := by
  intro cc rx vy s hcond hne
  have hq : BitVec.ofNat 16 ((s.reg rx).toNat / (s.vy vy).toNat) = s.reg rx / s.vy vy := by
    rw [← BitVec.toNat_udiv, BitVec.ofNat_toNat, BitVec.setWidth_eq]
  have hm : BitVec.ofNat 16 ((s.reg rx).toNat % (s.vy vy).toNat) = s.reg rx % s.vy vy := by
    rw [← BitVec.toNat_umod, BitVec.ofNat_toNat, BitVec.setWidth_eq]
  rw [hq, hm]
  exact exec_of_completePair (exec_dvu hne cc rx) hcond

/-- The remainder of a truncated division is smaller than the divisor and has the sign of the dividend. -/
theorem tmod_bounds {a b : Int} (hb : b ≠ 0) :
    (a.tmod b).natAbs < b.natAbs ∧ (a.tmod b = 0 ∨ (0 < a.tmod b ↔ 0 < a)) := by
  refine ⟨Int.natAbs_tmod a b ▸ Nat.mod_lt _ (Int.natAbs_pos.mpr hb), ?_⟩
  rcases Int.le_total 0 a with ha | ha
  · have h := Int.tmod_nonneg b ha
    have h0 : a = 0 → a.tmod b = 0 := fun e => by rw [e, Int.zero_tmod]
    omega
  · have h := Int.tmod_nonneg b (a := -a) (by omega)
    rw [Int.neg_tmod] at h
    omega

/-- The remainder of a floored division is smaller than the divisor and has its sign. -/
theorem fmod_bounds {a b : Int} (hb : b ≠ 0) :
    (a.fmod b).natAbs < b.natAbs ∧ (a.fmod b = 0 ∨ (0 < a.fmod b ↔ 0 < b)) := by
  rcases Int.lt_or_gt_of_ne hb with hneg | hpos
  · have h := Int.fmod_nonneg_of_pos (-a) (b := -b) (by omega)
    have h' := Int.fmod_lt_of_pos (-a) (b := -b) (by omega)
    rw [Int.neg_fmod_neg] at h h'
    omega
  · have h := Int.fmod_nonneg_of_pos a hpos
    have h' := Int.fmod_lt_of_pos a hpos
    omega

/-- The remainder that goes with the quotient of a rounding (R136, D9). -/
theorem remSigned_bounds (rounding : DvsRounding) {vx vy : Word} (h : vy ≠ 0) :
    (remSigned rounding vx vy).natAbs < vy.toInt.natAbs ∧
      (remSigned rounding vx vy = 0 ∨ (0 < remSigned rounding vx vy ↔ match rounding with
        | .trunc => 0 < vx.toInt
        | .floor => 0 < vy.toInt)) := by
  have hne : vy.toInt ≠ 0 := fun e => h (BitVec.toInt_inj.mp (e.trans BitVec.toInt_zero.symm))
  cases rounding with
  | trunc =>
    have hrem : remSigned .trunc vx vy = vx.toInt.tmod vy.toInt := by
      rw [Int.tmod_def, mul_comm]
      rfl
    exact hrem ▸ tmod_bounds hne
  | floor =>
    have hrem : remSigned .floor vx vy = vx.toInt.fmod vy.toInt := by
      rw [Int.fmod_def, mul_comm]
      rfl
    exact hrem ▸ fmod_bounds hne

/-- Settles O17: `remSigned` is by definition the rest of the dividend, and has the bounds of its rounding. -/
theorem dvsResult : Obligations.DvsResult := by
  intro cc rx vy s hcond hne hover
  obtain ⟨hsmall, hsign⟩ := remSigned_bounds s.config.dvsRounding (vx := s.reg rx) hne
  obtain ⟨t, ht, hframe, hq, hm, hflags⟩ := exec_of_completePair (exec_dvs hne hover cc) hcond
  exact ⟨t, _, _, ht, (add_sub_cancel _ _).symm, hsmall, hsign, hframe, hq, hm, hflags⟩

/-- Settles O18: the three divisions that halt. -/
theorem divisionHalts : Obligations.DivisionHalts := by
  intro cc rx vy s hcond
  refine ⟨fun h0 => ⟨?_, ?_⟩, fun hx hy => ?_⟩
  · show execDvu cc rx vy s = _
    rw [execDvu, if_pos h0, State.conditional_true hcond]
    rfl
  · show execDvs cc rx vy s = _
    rw [execDvs, if_pos h0, State.conditional_true hcond]
    rfl
  · have hne : s.vy vy ≠ 0 := by rw [hy]; decide
    show execDvs cc rx vy s = _
    rw [execDvs, if_neg hne, if_pos ⟨hx, hy⟩, State.conditional_true hcond]
    rfl

/-! ## Shifts and the move -/

theorem shiftLeft_eq_mul (vx : Word) (n : Nat) :
    vx <<< n = if n < 16 then BitVec.ofNat 16 (vx.toNat * 2 ^ n) else 0 := by
  split
  · apply BitVec.eq_of_toNat_eq
    rw [BitVec.toNat_shiftLeft, Nat.shiftLeft_eq, BitVec.toNat_ofNat]
  · exact BitVec.shiftLeft_eq_zero (by omega)

theorem ushiftRight_eq_div (vx : Word) (n : Nat) :
    vx >>> n = if n < 16 then BitVec.ofNat 16 (vx.toNat / 2 ^ n) else 0 := by
  split
  · rw [← Nat.shiftRight_eq_div_pow, ← BitVec.toNat_ushiftRight, BitVec.ofNat_toNat, BitVec.setWidth_eq]
  · exact BitVec.ushiftRight_eq_zero (by omega)

/-- A signed shift by more than the width is a shift by the width (R142, D10). -/
theorem sshiftRight_min (vx : Word) (n : Nat) : vx.sshiftRight n = vx.sshiftRight (min n 16) := by
  ext i hi
  have hge : ∀ m : Nat, 16 ≤ m → ¬ m + i < 16 := by omega
  by_cases hn : n ≤ 16
  · rw [min_eq_left hn]
  · rw [min_eq_right (by omega), BitVec.getElem_sshiftRight, BitVec.getElem_sshiftRight, dif_neg (hge n (by omega)),
      dif_neg (hge 16 (le_refl 16))]

theorem sshiftRight_eq_div (vx : Word) (n : Nat) :
    vx.sshiftRight n = BitVec.ofInt 16 (vx.toInt / 2 ^ min n 16) := by
  rw [sshiftRight_min, ← BitVec.ofInt_toInt (x := vx.sshiftRight (min n 16)), BitVec.toInt_sshiftRight,
    Int.shiftRight_eq_div_pow]
  rfl

/-- `CF` of `SRU` is a bit of the operand for a count of 1 to 16, and 0 otherwise (R141, D11). -/
theorem sruCarry_iff (vx : Word) (n : Nat) :
    sruCarry vx n = true ↔ 1 ≤ n ∧ n ≤ 16 ∧ vx.getLsbD (n - 1) = true := by
  have hbit : vx.getLsbD (n - 1) = true → n - 1 < 16 := BitVec.lt_of_getLsbD
  rw [sruCarry, Bool.and_eq_true, bne_iff_ne]
  constructor
  · rintro ⟨hn, h⟩
    exact ⟨by omega, by have := hbit h; omega, h⟩
  · rintro ⟨hn, -, h⟩
    exact ⟨by omega, h⟩

theorem srsCarry_iff (vx : Word) (n : Nat) :
    srsCarry vx n = true ↔ n ≠ 0 ∧ vx.getLsbD (min n 16 - 1) = true := by
  rw [srsCarry, Bool.and_eq_true, bne_iff_ne]

/-- As `exec_of_complete_setZsp`, for an instruction whose flags are `ZSP` and a carry: `VF` stays. -/
theorem exec_of_complete_setZspc {i : Instr} {s : State} {cc : Cond} {rd : Reg} {r : Word} {c : Bool} {Q : Word → Prop}
    {C : Prop} (hexec : exec i s = s.conditional cc (s.complete cc rd r (s.flags.setZspc r c)))
    (hcond : condHolds cc s.flags = true) (hr : Q r) (hc : c = true ↔ C) :
    ∃ (t : State) (r : Word), exec i s = .next t ∧ Q r ∧ Frame s t [rd] [] ∧ Holds t rd r ∧
      FlagsAfter s t cc (fun f => ZspSay f r ∧ (f.cf = true ↔ C) ∧ f.vf = s.flags.vf) := by
  obtain ⟨t, ht, hframe, hholds, hflags⟩ := exec_of_complete
    (P := fun f => ZspSay f r ∧ (f.cf = true ↔ C) ∧ f.vf = s.flags.vf) hexec hcond ⟨zspSay_setZsp s.flags r, hc, rfl⟩
  exact ⟨t, r, ht, hr, hframe, hholds, hflags⟩

/-- Settles O20: `SHL` completes with the product by the power of two. -/
theorem shlResult : Obligations.ShlResult := fun _ rx vy s hcond =>
  exec_of_complete_setZsp rfl hcond (shiftLeft_eq_mul (s.reg rx) (s.vy vy).toNat)

/-- Settles O21: `SRU` completes with the quotient by the power of two and the last bit shifted out. -/
theorem sruResult : Obligations.SruResult := fun _ rx vy s hcond =>
  exec_of_complete_setZspc rfl hcond (ushiftRight_eq_div (s.reg rx) (s.vy vy).toNat)
    (sruCarry_iff (s.reg rx) (s.vy vy).toNat)

/-- Settles O22: `SRS` completes with the floor of the signed quotient and the last bit shifted out. -/
theorem srsResult : Obligations.SrsResult := fun _ rx vy s hcond =>
  exec_of_complete_setZspc rfl hcond (sshiftRight_eq_div (s.reg rx) (s.vy vy).toNat)
    (srsCarry_iff (s.reg rx) (s.vy vy).toNat)

/-- Settles O23: `MOV` completes with its operand and `ZSP` of it. -/
theorem movResult : Obligations.MovResult := fun _ _ _ _ hcond =>
  exec_of_complete rfl hcond ⟨zspSay_setZsp _ _, rfl, rfl⟩

end Sys2Proof.Machine
end

section
/-!
The remaining instructions without a data phase (`FCA`, `RDB`, `WRB`: R173, R181, R182), the machine that is stopped and the machine at the start (R42, R47), and the rule of translation and accessibility (R55, R56, R58).
-/
namespace Sys2Proof.Machine

/-! ## `FCA` -/

/-- Settles O31: `FCA` links, then branches; the branch leaves the two link registers. -/
theorem fcaResult : Obligations.FcaResult := by
  intro cc rx vy s hcond
  refine exec_of_regWrites rfl hcond ((RegWrites.link s).trans (.branch s.link _ _)) ?_
  refine ⟨?_, ?_, ?_, ?_⟩
  · rw [State.finish_reg, State.branch_reg]
    simp
  · rw [State.finish_reg, State.branch_reg]
    simp
  · rw [State.dpc, State.finish_reg, State.branch_reg]
    simp
  · rw [State.pc, State.finish_reg, State.branch_reg]
    simp

/-! ## Ports -/

/-- An answered port access changes nothing that a frame speaks of but the ports, so a frame from the state after it is one from the state before (R180). -/
theorem CoreFrame.of_recordPort {s t : State} {written : List Reg} {stored : List Word} {e : PortEvent}
    (h : CoreFrame (s.recordPort e) t written stored) : CoreFrame s t written stored :=
  ⟨h.regs, h.mem, h.idle, h.active, h.mmuEnabled, h.run, h.suspended, h.config, h.decode⟩

theorem CoreFrame.of_countDraw {s t : State} {written : List Reg} {stored : List Word} {answer : PortAnswer}
    (h : CoreFrame (s.countDraw answer) t written stored) : CoreFrame s t written stored :=
  ⟨h.regs, h.mem, h.idle, h.active, h.mmuEnabled, h.run, h.suspended, h.config, h.decode⟩

theorem State.completeRead_frame (s : State) (cc : Cond) (rx : Reg) (port : PortNum) (answer : PortAnswer) :
    CoreFrame s (s.completeRead cc rx port answer) [s.dest rx] [] :=
  (State.complete_frame ..).toCoreFrame.of_countDraw.of_recordPort

theorem State.completeWrite_frame (s : State) (cc : Cond) (port : PortNum) (b : Byte) (answer : PortAnswer) :
    CoreFrame s (s.completeWrite cc port b answer) [] [] :=
  (State.completeFlags_frame ..).toCoreFrame.of_recordPort

theorem State.completeRead_flags (s : State) (cc : Cond) (rx : Reg) (port : PortNum) (answer : PortAnswer) :
    (s.completeRead cc rx port answer).flags = if s.writesFlags cc then s.readFlags answer else s.flags :=
  State.complete_flags ..

theorem State.completeWrite_flags (s : State) (cc : Cond) (port : PortNum) (b : Byte) (answer : PortAnswer) :
    (s.completeWrite cc port b answer).flags =
      if s.writesFlags cc then s.flags.setZspc (b.setWidth 16) (!answer.ok) else s.flags :=
  State.completeFlags_flags ..

/-- The flags of a port read that succeeds (R181). -/
theorem State.readFlags_of_ok (s : State) {answer : PortAnswer} (h : answer.ok = true) :
    s.readFlags answer = s.flags.setZspc (answer.byte.setWidth 16) false := by
  simp [State.readFlags, Flags.setZspc, Flags.setZsp, h]

/-- The word of a port read that succeeds (R181, D3). -/
theorem State.readWord_of_ok (s : State) {answer : PortAnswer} (h : answer.ok = true) :
    s.readWord answer = answer.byte.setWidth 16 :=
  if_pos h

/-- A port read counts a draw of free values only when it fails (log 7). -/
theorem State.completeRead_draws (s : State) (cc : Cond) (rx : Reg) (port : PortNum) (answer : PortAnswer) :
    (s.completeRead cc rx port answer).draws = if answer.ok then s.draws else s.draws + 1 :=
  rfl

/-- Settles O33: the word and the flags are those of the byte that was read. -/
theorem rdbSuccess : Obligations.RdbSuccess := by
  intro cc rx port s hcond hok
  refine ⟨_, State.conditional_true hcond _, s.completeRead_frame cc rx port _, ?_, ?_, rfl, rfl, ?_⟩
  · rw [← State.readWord_of_ok s hok]
    exact State.complete_holds ..
  · refine flagsAfter_of_flags_eq (s.completeRead_flags cc rx port _) ?_
    rw [State.readFlags_of_ok s hok]
    exact ⟨zspSay_setZsp s.flags _, rfl, rfl⟩
  · rw [State.completeRead_draws, if_pos hok]

/-- Settles O34: of the flags of a failed read only `CF` and `VF` are known. -/
theorem rdbFailure : Obligations.RdbFailure := by
  intro cc rx port s hcond hfail
  refine ⟨_, State.conditional_true hcond _, s.completeRead_frame cc rx port _, ?_, rfl, rfl, ?_⟩
  · exact flagsAfter_of_flags_eq (s.completeRead_flags cc rx port _) ⟨by rw [State.readFlags, hfail]; rfl, rfl⟩
  · rw [State.completeRead_draws, hfail]
    rfl

/-- Settles O35: the flags are those of the byte that was written, `CF` the failure. -/
theorem wrbResult : Obligations.WrbResult := fun cc port v8 s hcond =>
  ⟨_, State.conditional_true hcond _, s.completeWrite_frame cc port (s.v8 v8) _,
    flagsAfter_of_flags_eq (s.completeWrite_flags cc port (s.v8 v8) _)
      ⟨zspSay_setZsp s.flags _, .of_eq (Bool.not_eq_true' _), rfl⟩, rfl, rfl, rfl⟩

/-! ## Stopped machines and the start -/

/-- Settles O53: `step` looks at the run state first. -/
theorem stoppedMachine : Obligations.StoppedMachine := fun s =>
  ⟨fun reason h => by rw [step, h], fun h => by rw [step, h]⟩

theorem State.start_pc (config : Config) : (State.start config).pc = config.resetPc := by
  rw [State.pc, State.start_reg, dif_neg (by decide), if_pos rfl]

theorem State.start_dpc (config : Config) : (State.start config).dpc = 0 := by
  rw [State.dpc, State.start_reg, dif_neg (by decide), if_neg (by decide)]

/-- `RESET_REGS` lists `R1` to `R13` (R47, D21). -/
theorem State.start_resetRegs (config : Config) (i : Fin 13) :
    (State.start config).reg (BitVec.ofNat 4 (i.val + 1)) = config.resetRegs.get i := by
  have hi : (BitVec.ofNat 4 (i.val + 1)).toNat = i.val + 1 := by
    rw [BitVec.toNat_ofNat]
    exact Nat.mod_eq_of_lt (by omega)
  rw [State.start_reg, dif_pos (by omega)]
  congr 1
  exact Fin.ext (by simp only [hi]; rfl)

/-- Right after reset every register but `PC` is 0 (D21). -/
theorem State.reset_reg {r : Reg} (h : r ≠ Reg.pc) : State.reset.reg r = 0 := by
  rw [State.reset, State.start_reg]
  by_cases hr : 1 ≤ r.toNat ∧ r.toNat ≤ 13
  · rw [dif_pos hr]
    simp [Config.standard, Vector.get_eq_getElem]
  · rw [dif_neg hr, if_neg h]

/-- Settles O55: the start of execution, register by register. -/
theorem resetState : Obligations.ResetState :=
  ⟨fun config => ⟨State.start_dpc config, State.reg_zero _, State.start_pc config, State.start_resetRegs config, rfl, rfl,
    rfl, rfl, rfl, rfl, rfl, rfl⟩, fun _ => State.reset_reg, rfl, State.start_pc _⟩

/-! ## Translation -/

theorem toNat_pageOf (a : Word) : (pageOf a).toNat = a.toNat / 256 := by
  have ha := a.isLt
  simp only [pageOf, BitVec.extractLsb'_toNat, Nat.shiftRight_eq_div_pow]
  omega

theorem toNat_offset (a : Word) : (a.extractLsb' 0 8).toNat = a.toNat % 256 := by
  simp only [BitVec.extractLsb'_toNat, Nat.shiftRight_zero]

/-- The page table lies below the end of memory: the address of an entry's byte does not wrap (R53, R55). -/
theorem toNat_tteAddr_add (va : Word) (a : Access) :
    (tteAddr va + accessCode a).toNat = 0xFC00 + 4 * (va.toNat / 256) + (accessCode a).toNat := by
  have hpage : ((pageOf va).setWidth 16).toNat = va.toNat / 256 := by
    rw [BitVec.toNat_setWidth_of_le (by decide), toNat_pageOf]
  have hva := va.isLt
  have hcode : (accessCode a).toNat ≤ 2 := by cases a <;> decide
  have hbase : (0xFC00 : Word).toNat = 0xFC00 := rfl
  have hsize : (4 : Word).toNat = 4 := rfl
  rw [tteAddr, BitVec.toNat_add, BitVec.toNat_add, BitVec.toNat_mul, hpage, hbase, hsize]
  omega

/-- The page number byte of an address, as a byte of memory (R53, R55). -/
theorem State.pageNumber_eq (s : State) (va : Word) (a : Access) :
    s.pageNumber va a = s.mem.read (0xFC00 + 4 * (va.toNat / 256) + (accessCode a).toNat) := by
  rw [State.pageNumber, State.rawRead, toNat_tteAddr_add]

/-- With the MMU enabled an address that has a translation has its page from the table, and its offset (R55, R56). -/
theorem State.translate_some {s : State} {va pa : Word} {a : Access} (hm : s.mmuEnabled = true)
    (h : s.translate va a = some pa) :
    s.pageNumber va a ≠ 0 ∧ pageOf pa = s.pageNumber va a ∧ pa.extractLsb' 0 8 = va.extractLsb' 0 8 := by
  rw [State.translate, if_pos hm] at h
  split at h
  · cases h
  · next hne =>
    obtain rfl := Option.some.inj h
    exact ⟨hne, extractLsb'_append_high _ _, extractLsb'_append_low _ _⟩

/-- The allocation table byte of a page, as a byte of memory (R58). -/
theorem State.allocFlags_eq (s : State) (pa : Word) : s.allocFlags pa = s.mem.read (0x0100 + pa.toNat / 256) := by
  have hpage : ((pageOf pa).setWidth 16).toNat = pa.toNat / 256 := by
    rw [BitVec.toNat_setWidth_of_le (by decide), toNat_pageOf]
  have hpa := pa.isLt
  have haddr : (0x0100 + (pageOf pa).setWidth 16 : Word).toNat = 0x0100 + pa.toNat / 256 := by
    have hbase : (0x0100 : Word).toNat = 0x0100 := rfl
    rw [BitVec.toNat_add, hpage, hbase]
    omega
  rw [State.allocFlags, State.rawRead, haddr]

/-- Settles O28: the two tables as bytes of memory. -/
theorem translationRule : Obligations.TranslationRule := by
  refine ⟨fun s va a hm => ⟨?_, fun pa hpa => ?_⟩, fun s va a hm => State.translate_off hm va a, fun s pa halways => ?_⟩
  · rw [← State.pageNumber_eq, State.translate_none]
    exact and_iff_right hm
  · obtain ⟨hne, hpage, hoffset⟩ := State.translate_some hm hpa
    have hpos : (s.pageNumber va a).toNat ≠ 0 := fun e => hne (BitVec.eq_of_toNat_eq e)
    rw [← State.pageNumber_eq, ← toNat_pageOf, ← toNat_offset, ← toNat_offset, hpage, hoffset]
    exact ⟨rfl, rfl, hpos⟩
  · rw [State.accessible, State.physChecked, halways, State.allocFlags_eq]
    rfl

end Sys2Proof.Machine
end

section
/-!
The fetch of an instruction, the entry of a fault handler, and what stops an access (R62, R102, R250 to R256). The fetch is followed byte by byte once, in `fetchFrom_of_fetchBytes`; an access that cannot be made is described once, in `stopsAt_of_fault`.
-/
namespace Sys2Proof.Machine

/-! ## The state after a fetch -/

theorem State.setCtx_setCtx (s : State) (c d : Context) : (s.setCtx c).setCtx d = s.setCtx d := by
  rcases s with ⟨_, _, active, _, _, _, _, _, _, _, _, _⟩
  cases active <;> rfl

theorem State.setCtx_self (s : State) : s.setCtx s.ctx = s := by
  rcases s with ⟨_, _, active, _, _, _, _, _, _, _, _, _⟩
  cases active <;> rfl

theorem Context.setReg_setReg (c : Context) (r : Reg) (v w : Word) : (c.setReg r v).setReg r w = c.setReg r w := by
  by_cases hr : r = 0#4
  · simp [Context.setReg, hr]
  · simp [Context.setReg, hr]

theorem Context.setReg_reg (c : Context) (r : Reg) : c.setReg r (c.reg r) = c := by
  by_cases hr : r = 0#4
  · simp [Context.setReg, hr]
  · simp [Context.setReg, Context.reg, hr, Vector.get_eq_getElem]

/-- The later of two writes to one register counts. -/
theorem State.setReg_setReg (s : State) (r : Reg) (v w : Word) : (s.setReg r v).setReg r w = s.setReg r w := by
  rw [State.setReg, State.setReg, State.setCtx_ctx, State.setCtx_setCtx, Context.setReg_setReg]
  rfl

/-- Writing to a register what it holds changes nothing. -/
theorem State.setReg_reg (s : State) (r : Reg) : s.setReg r (s.reg r) = s := by
  rw [State.setReg, State.reg, Context.setReg_reg, State.setCtx_self]

theorem State.pc_setReg_pc (s : State) (v : Word) : (s.setReg Reg.pc v).pc = v := by
  rw [State.pc, State.reg_setReg, if_neg (by decide), if_pos rfl]

theorem State.dpc_setReg_pc (s : State) (v : Word) : (s.setReg Reg.pc v).dpc = s.dpc :=
  State.reg_setReg_of_ne s (by decide) v

/-- The address of code byte `k + 1` from the address of the byte after the first (R26, R27). -/
theorem stride_succ (pc dpc : Word) (k : Nat) :
    pc + BitVec.ofNat 16 (k + 1) * (1 + dpc) = pc + 1 + dpc + BitVec.ofNat 16 k * (1 + dpc) := by
  have hsucc : BitVec.ofNat 16 (k + 1) = BitVec.ofNat 16 k + 1 := BitVec.ofNat_add k 1
  rw [hsucc]
  ring

section
variable {s u : State} {n : Nat} {bs : List Byte}

/-- The first of the code bytes that can be fetched, and the others (R26, R62). -/
theorem State.fetchBytes_succ (h : s.fetchBytes (n + 1) = some (bs, u)) :
    ∃ pa rest, s.translate s.pc .execute = some pa ∧ s.accessible pa = true ∧ s.fetchByte = .ok (s.rawRead pa) ∧
      s.advancePc.fetchBytes n = some (rest, u) ∧ bs = s.rawRead pa :: rest := by
  rw [State.fetchBytes] at h
  rcases s.fetchByte_cases with ⟨pa, ht, ha, hb⟩ | ⟨-, hb⟩ | ⟨-, -, -, hb⟩
  · rw [hb] at h
    obtain ⟨⟨rest, u'⟩, hrest, he⟩ := Option.map_eq_some_iff.mp h
    cases he
    exact ⟨pa, rest, ht, ha, hb, hrest, rfl⟩
  all_goals rw [hb] at h; cases h

/-- A fetch moves `PC` and changes nothing else (R26, R62). -/
theorem State.fetchBytes_state (h : s.fetchBytes n = some (bs, u)) :
    u = s.setReg Reg.pc (s.pc + BitVec.ofNat 16 n * (1 + s.dpc)) := by
  induction n generalizing s bs with
  | zero =>
    cases h
    rw [BitVec.ofNat_eq_ofNat, BitVec.zero_mul, BitVec.add_zero]
    exact (State.setReg_reg _ Reg.pc).symm
  | succ n ih =>
    obtain ⟨pa, rest, -, -, -, hrest, -⟩ := State.fetchBytes_succ h
    rw [ih hrest, State.advancePc, State.pc_setReg_pc, State.dpc_setReg_pc, State.setReg_setReg, stride_succ]

theorem State.fetchBytes_length (h : s.fetchBytes n = some (bs, u)) : bs.length = n := by
  induction n generalizing s bs with
  | zero => cases h; rfl
  | succ n ih =>
    obtain ⟨pa, rest, -, -, -, hrest, rfl⟩ := State.fetchBytes_succ h
    rw [List.length_cons, ih hrest]

/-- Code byte `k` of a fetch is read at the translation of its own address (R27, R62). -/
theorem State.fetchBytes_get (h : s.fetchBytes n = some (bs, u)) {k : Nat} (hk : k < n) :
    ∃ pa, s.translate (s.pc + BitVec.ofNat 16 k * (1 + s.dpc)) .execute = some pa ∧
      s.accessible pa = true ∧ bs[k]? = some (s.rawRead pa) := by
  induction n generalizing s bs k with
  | zero => cases hk
  | succ n ih =>
    obtain ⟨pa, rest, ht, ha, -, hrest, rfl⟩ := State.fetchBytes_succ h
    cases k with
    | zero =>
      refine ⟨pa, ?_, ha, rfl⟩
      rwa [BitVec.ofNat_eq_ofNat, BitVec.zero_mul, BitVec.add_zero]
    | succ k =>
      obtain ⟨qa, hq⟩ := ih hrest (Nat.lt_of_succ_lt_succ hk)
      rw [State.advancePc, State.pc_setReg_pc, State.dpc_setReg_pc, ← stride_succ] at hq
      exact ⟨qa, hq⟩

end

/-- Settles O52: the length, the end and each byte of a fetch. -/
theorem fetchStride : Obligations.FetchStride := by
  intro s u n bs h
  refine ⟨State.fetchBytes_length h, ?_, fun k hk => State.fetchBytes_get h hk⟩
  rw [State.fetchBytes_state h, State.pc_setReg_pc]

/-! ## From the bytes of a fetch to the decoder -/

/-- Bytes that are not yet an instruction are fewer than four (R105). -/
theorem length_of_decode_more {order : ByteOrder} {xc : Bool} {bs : List Byte} (h : decode order xc bs = .more) :
    bs.length < maxUnitBytes := by
  by_contra hlen
  obtain ⟨i, hi⟩ := decoderTotal order xc bs (Nat.le_of_not_lt hlen)
  cases h.symm.trans hi

/-- Bytes of which every proper beginning is too few are at most four (R105). -/
theorem length_le_of_beginnings {order : ByteOrder} {xc : Bool} {bs more : List Byte}
    (hmore : ∀ m, m < more.length → decode order xc (bs ++ more.take m) = .more) : more.length ≤ maxUnitBytes := by
  cases hn : more.length with
  | zero => exact Nat.zero_le _
  | succ n =>
    have hshort := length_of_decode_more (hmore n (by omega))
    rw [List.length_append, List.length_take] at hshort
    omega

/-- The decode fetches on as long as the bytes are too few (R102): after the bytes `more` it has come to the state after their fetch. -/
theorem fetchFrom_of_fetchBytes {s u : State} {more : List Byte} (fuel : Nat) (got : List Byte)
    (h : s.fetchBytes more.length = some (more, u))
    (hmore : ∀ m, m < more.length → decode s.config.byteOrder s.decode.xc (got ++ more.take m) = .more) :
    State.fetchFrom (more.length + fuel) got s = State.fetchFrom fuel (got ++ more) u := by
  induction more generalizing s got with
  | nil =>
    cases h
    rw [List.append_nil, List.length_nil, Nat.zero_add]
  | cons b rest ih =>
    obtain ⟨pa, rest', -, -, hb, hrest, he⟩ := State.fetchBytes_succ h
    obtain ⟨rfl, rfl⟩ := List.cons.inj he
    have hfirst : decode s.config.byteOrder s.decode.xc got = .more := by
      have h0 := hmore 0 (Nat.succ_pos _)
      rwa [List.take_zero, List.append_nil] at h0
    have hfuel : (s.rawRead pa :: rest).length + fuel = (rest.length + fuel) + 1 := by
      rw [List.length_cons]
      omega
    rw [hfuel, State.fetchFrom, hfirst]
    simp only [hb]
    rw [ih (got ++ [s.rawRead pa]) hrest (fun m hm => ?_), List.append_assoc, List.singleton_append]
    have hnext := hmore (m + 1) (Nat.succ_lt_succ hm)
    rwa [List.take_succ_cons, ← List.singleton_append, ← List.append_assoc] at hnext

/-- When the bytes make up an instruction, it is to be run at the state after their fetch. -/
theorem fetchFrom_run {s : State} {got : List Byte} {i : Instr} (fuel : Nat)
    (h : decode s.config.byteOrder s.decode.xc got = .instr i) : State.fetchFrom fuel got s = .run i s := by
  cases fuel <;> rw [State.fetchFrom, h]

/-- When they do not, and the next byte cannot be fetched, the step ends there. -/
theorem fetchFrom_stopped {s : State} {got : List Byte} {trap : Trap} (fuel : Nat)
    (h : decode s.config.byteOrder s.decode.xc got = .more) (hb : s.fetchByte = .error trap) :
    State.fetchFrom (fuel + 1) got s = .done (s.takeTrap trap (.fetch got)) := by
  rw [State.fetchFrom, h]
  simp only [hb]

/-! ## What stops an access -/

/-- Register by register what a handler finds (R256, D19). -/
theorem State.enterHandler_savedReg (s : State) (page : Byte) (va : Word) (a : Access) (work : Work) (r : Reg) :
    (s.enterHandler page va a work).savedReg r = if r = Reg.pc then s.instrStart else s.reg r := by
  have haddr : 2 * r.setWidth 16 = BitVec.ofNat 16 (2 * r.toNat) := by
    apply BitVec.eq_of_toNat_eq
    have hr := r.isLt
    have h2 : (2 : Word).toNat = 2 := rfl
    rw [BitVec.toNat_mul, BitVec.toNat_setWidth, BitVec.toNat_ofNat, h2]
    omega
  have hlen : (s.savedWords s.instrStart).length = 16 := by simp [State.savedWords]
  have hpc : r.toNat = 14 ↔ r = Reg.pc := ⟨fun e => BitVec.eq_of_toNat_eq e, fun e => by rw [e]; rfl⟩
  have hword := State.rawWriteWords_readWord s s.config.excSavedRegs (s.savedWords s.instrStart) r.toNat
    (by rw [hlen]; exact r.isLt) (by rw [hlen]; decide)
  rw [State.savedReg, haddr, State.enterHandler_config]
  have hread : (s.enterHandler page va a work).rawReadWord (s.config.excSavedRegs + BitVec.ofNat 16 (2 * r.toNat)) =
      (s.rawWriteWords s.config.excSavedRegs (s.savedWords s.instrStart)).rawReadWord
        (s.config.excSavedRegs + BitVec.ofNat 16 (2 * r.toNat)) := by
    simp only [State.rawReadWord, State.rawRead, State.enterHandler_mem_eq, State.enterHandler_config,
      State.rawWriteWords_config, State.instrStart]
  rw [hread, hword]
  simp [State.savedWords, hpc]

/-- The entry of a handler is the one of R254 to R256. -/
theorem State.enterHandler_entered (s : State) (va : Word) (a : Access) (work : Work) :
    HandlerEntered s (s.enterHandler (s.handlerPage va) va a work) va a where
  active := rfl
  mmuEnabled := rfl
  run := State.enterHandler_run ..
  normal := State.enterHandler_normal ..
  decode := rfl
  tte := State.enterHandler_reg ..
  faultAddress := State.enterHandler_reg ..
  accessType := State.enterHandler_reg ..
  savedRegs := State.enterHandler_reg ..
  nextPc := State.enterHandler_reg ..
  stack := State.enterHandler_reg ..
  returnAddress := State.enterHandler_reg ..
  entryPoint := by
    have hpage : ∀ b : Byte, b ++ (0 : Byte) = b.setWidth 16 <<< 8 := by
      intro b
      apply BitVec.eq_of_toNat_eq
      have hb := b.isLt
      simp only [BitVec.toNat_append, BitVec.toNat_shiftLeft, BitVec.toNat_setWidth, Nat.shiftLeft_eq]
      simp only [BitVec.ofNat_eq_ofNat, BitVec.toNat_ofNat, Nat.zero_mod, Nat.or_zero]
      omega
    rw [State.pc, State.enterHandler_reg]
    exact hpage _
  rest r hr := by
    rw [State.enterHandler_reg]
    fin_cases hr <;> rfl
  flags := State.enterHandler_flags ..
  saved := State.enterHandler_savedReg s _ va a work
  mem b hb := State.enterHandler_read s _ va a work hb
  suspended := ⟨_, rfl, rfl, rfl, rfl, rfl⟩
  config := State.enterHandler_config ..
  portAnswers := State.enterHandler_portAnswers ..
  portLog := State.enterHandler_portLog ..
  draws := State.enterHandler_draws ..

/-- An access that faults when it has no translation and halts when it is denied stops as it should. -/
theorem stopsAt_of_fault {w : State} {va : Word} {a : Access} {o : Host.Outcome State Fault Refusal} (work : Work)
    (hfault : w.translate va a = none → o = .next (w.pageFault va a work))
    (hdenied : ∀ pa, w.translate va a = some pa → w.accessible pa = false → o = .next (w.halt .doubleFault)) :
    StopsAt w va a o where
  handler ht hp := ⟨_, (hfault ht).trans (by rw [State.pageFault, if_neg hp]), State.enterHandler_entered w va a work⟩
  unmapped ht hp := (hfault ht).trans (by rw [State.pageFault, if_pos hp]; rfl)
  denied := hdenied

/-- A data phase whose next part is an access stops there if the access cannot be made (R250, R252, R263). -/
theorem State.runData_stopsAt {op : DataOp} {va : Word} {a : Access} (hop : op.access? = some (va, a))
    (rest : List DataOp) (latch : List Byte) (w : State) :
    StopsAt w va a (.next (State.runData (op :: rest) latch w)) :=
  stopsAt_of_fault (.data op rest latch) (fun ht => congrArg _ (State.runData_fault hop ht))
    (fun _ ht ha => congrArg _ (State.runData_denied hop ht ha))

/-- A fetch whose next byte is needed stops there if the byte cannot be fetched (R62, R253). -/
theorem stopsAt_of_fetch {w : State} {got : List Byte} {o : Host.Outcome State Fault Refusal} (fuel : Nat)
    (hmore : decode w.config.byteOrder w.decode.xc got = .more)
    (ho : ∀ r, State.fetchFrom (fuel + 1) got w = .done r → o = .next r) : StopsAt w w.pc .execute o := by
  refine stopsAt_of_fault (.fetch got) (fun ht => ?_) (fun pa ht ha => ?_)
  · have hb : w.fetchByte = .error (.pageFault w.pc .execute) := by rw [State.fetchByte, ht]
    exact ho _ (fetchFrom_stopped fuel hmore hb)
  · have hb : w.fetchByte = .error .denied := by
      rw [State.fetchByte, ht]
      exact State.readAt_denied ha
    exact ho _ (fetchFrom_stopped fuel hmore hb)

/-! ## The step of an instruction -/

theorem step_of_run {s t : State} {i : Instr} (hrun : s.run = .running) (h : s.ready = .run i t) :
    step s = exec i t := by
  simp only [step, hrun, h]

theorem step_of_done {s t : State} (hrun : s.run = .running) (h : s.ready = .done t) : step s = .next t := by
  simp only [step, hrun, h]

theorem State.ready_of_not_return {s : State}
    (h : ¬ (s.active = .exception ∧ s.pc = s.config.excReturnAddr ∧ s.decode.insnPc = none)) :
    s.ready = State.fetchFrom maxUnitBytes [] s.beginInstr := by
  have hret : s.atHandlerReturn = false := Bool.eq_false_iff.mpr (h ∘ (atHandlerReturn_iff s).mp)
  simp only [State.ready, hret]

section
variable {s u : State} {got : List Byte}

/-- The state after the fetch of an instruction: `PC` has moved, and the address of the first byte is remembered (R26, R102). -/
theorem Fetched.state (h : Fetched s u got) :
    u = s.beginInstr.setReg Reg.pc (s.pc + BitVec.ofNat 16 got.length * (1 + s.dpc)) :=
  State.fetchBytes_state h.bytes

/-- The fetch remembers the address of the first byte of the instruction (R102, D31). -/
theorem Fetched.instrStart (h : Fetched s u got) : u.instrStart = s.instrStart := by
  rw [h.state]
  rfl

/-- What the decoder reads from is the byte order, and whether `XC` stands before the bytes, as in the state of before. -/
theorem Fetched.decode_eq (h : Fetched s u got) (bs : List Byte) :
    decode u.config.byteOrder u.decode.xc bs = decode s.config.byteOrder s.decode.xc bs := by
  rw [h.state]
  rfl

/-- The step fetches the bytes and goes on from there. -/
theorem Fetched.ready (h : Fetched s u got) {fuel : Nat} (hfuel : maxUnitBytes = got.length + fuel) :
    s.ready = State.fetchFrom fuel got u := by
  rw [State.ready_of_not_return h.notReturn, hfuel]
  exact fetchFrom_of_fetchBytes fuel [] h.bytes h.beginnings

/-- An instruction has at most four bytes, since all but the last of them are too few (R105). -/
theorem Fetched.length_le (h : Fetched s u got) : got.length ≤ maxUnitBytes :=
  length_le_of_beginnings (bs := []) h.beginnings

/-- A step whose next code byte cannot be fetched stops there (R253). -/
theorem Fetched.stopsAt (h : Fetched s u got) (hmore : decode s.config.byteOrder s.decode.xc got = .more) :
    StopsAt u u.pc .execute (step s) := by
  obtain ⟨fuel, hfuel⟩ := Nat.exists_eq_add_of_lt (length_of_decode_more hmore)
  refine stopsAt_of_fetch fuel ((h.decode_eq got).trans hmore) (fun r hr => ?_)
  exact step_of_done h.run ((h.ready hfuel).trans hr)

end

/-- Settles O51: the step fetches the bytes, decodes them and runs the instruction. -/
theorem stepRunsInstruction : Obligations.StepRunsInstruction := by
  intro s u got i h hi
  obtain ⟨fuel, hfuel⟩ := Nat.exists_eq_add_of_le h.length_le
  refine ⟨step_of_run h.run ((h.ready hfuel).trans (fetchFrom_run fuel ((h.decode_eq got).trans hi))), ?_⟩
  rw [h.state]
  rfl

/-- Settles O44: the next code byte stops the step by the entry of its handler. -/
theorem fetchFault : Obligations.FetchFault := fun _ _ _ h hmore ht hp =>
  ⟨h.instrStart, (h.stopsAt hmore).handler ht hp⟩

end Sys2Proof.Machine
end

section
/-!
Loads and stores that can be made (R161 to R164). A store changes bytes of memory alone (`Stored`), and its frame is proved once, of register writes followed by stores, which is also what `PSH` and a resumed store are; a load ends by completing with the word that was read.
-/
namespace Sys2Proof.Machine

/-! ## Stores -/

/-- From `s` to `t` bytes have been written, none of them outside the physical addresses `targets`, and nothing else has changed. -/
def Stored (s t : State) (targets : List Word) : Prop :=
  ∃ m : Memory, t = { s with mem := m } ∧ ∀ a : Nat, (∀ p ∈ targets, a ≠ p.toNat) → m.read a = s.mem.read a

theorem Stored.refl (s : State) : Stored s s [] := ⟨s.mem, rfl, fun _ _ => rfl⟩

theorem Stored.rawWrite (s : State) (pa : Word) (b : Byte) : Stored s (s.rawWrite pa b) [pa] := by
  refine ⟨_, rfl, fun a ha => ?_⟩
  rw [Memory.read_write, if_neg (ha pa List.mem_cons_self)]

theorem Stored.trans {s t u : State} {first second : List Word} (h : Stored s t first) (k : Stored t u second) :
    Stored s u (first ++ second) := by
  obtain ⟨m, rfl, hm⟩ := h
  obtain ⟨n, rfl, hn⟩ := k
  refine ⟨n, rfl, fun a ha => ?_⟩
  rw [hn a (fun p hp => ha p (List.mem_append_right first hp))]
  exact hm a (fun p hp => ha p (List.mem_append_left second hp))

theorem State.storeTargets_cons {s : State} {va pa : Word} (ht : s.translate va .write = some pa) (b : Byte)
    (bs : List Byte) : s.storeTargets va (b :: bs) = pa :: (s.rawWrite pa b).storeTargets (va + 1) bs := by
  simp only [State.storeTargets, ht]

/-- Bytes that can be stored are stored at their targets (R60, R61). -/
theorem State.storeBytes_stored {s u : State} {va : Word} {bs : List Byte} (h : s.storeBytes va bs = some u) :
    Stored s u (s.storeTargets va bs) := by
  induction bs generalizing s va with
  | nil => cases h; exact Stored.refl _
  | cons b bs ih =>
    obtain ⟨pa, ht, -, hrest⟩ := State.storeBytes_cons h
    rw [State.storeTargets_cons ht]
    exact (Stored.rawWrite s pa b).trans (ih hrest)

/-- Register writes and then stores leave everything but those registers and those bytes (R44). -/
theorem Stored.frame_finish {s t u : State} {written : List Reg} {targets : List Word} (hwrites : RegWrites s t written)
    (hstored : Stored t u targets) : Frame s u.finish written targets := by
  obtain ⟨m, rfl, hm⟩ := hstored
  have h := hwrites.frame_finish
  exact { h with mem := fun a ha => (hm a ha).trans (h.mem a (fun _ hp => nomatch hp)) }

theorem Stored.flags {s u : State} {targets : List Word} (h : Stored s u targets) : u.flags = s.flags := by
  obtain ⟨m, rfl, -⟩ := h
  rfl

theorem Stored.reg {s u : State} {targets : List Word} (h : Stored s u targets) (r : Reg) : u.reg r = s.reg r := by
  obtain ⟨m, rfl, -⟩ := h
  rfl

/-- The two stores of `STW` (R162). -/
theorem State.runData_stw {s u : State} {va : Word} {b0 b1 : Byte} (h : s.storeBytes va [b0, b1] = some u) :
    State.runData [.storeByte va b0, .storeByte (va + 1) b1] [] s = u.finish := by
  obtain ⟨pa, ht, ha, h⟩ := State.storeBytes_cons h
  obtain ⟨qa, ht', ha', h⟩ := State.storeBytes_cons h
  rw [State.runData_store ht ha, State.runData_store ht' ha', ← Option.some.inj h]
  rfl

/-- Settles O26: `STW` ends after its two stores. -/
theorem stwResult : Obligations.StwResult := by
  intro cc rx vy s u hcond hstore
  have hexec : exec (.stw cc rx vy) s = .next u.finish :=
    (State.conditional_true hcond _).trans (congrArg _ (State.runData_stw hstore))
  have hstored := State.storeBytes_stored hstore
  exact ⟨_, hexec, Stored.frame_finish (.refl s) hstored, fun _ => rfl, hstored.flags⟩

/-- Settles O27: `STB` ends after its store. -/
theorem stbResult : Obligations.StbResult := by
  intro cc rx v8 s pa hcond ht ha
  have hexec : exec (.stb cc rx v8) s = .next (s.rawWrite pa (s.v8 v8)).finish :=
    (State.conditional_true hcond _).trans (congrArg _ (State.runData_store ht ha))
  refine ⟨_, hexec, Stored.frame_finish (.refl s) (.rawWrite s pa _), ?_, rfl⟩
  exact (State.rawRead_rawWrite s pa pa _).trans (if_pos rfl)

/-! ## Loads -/

/-- The end of a load: the word to `rd`, and `ZSP` from it if the load writes flags (R161, R163). -/
def State.endLoad (s : State) (rd : Reg) (writeFlags : Bool) (r : Word) : State :=
  ((s.setReg rd r).setFlagsIf writeFlags (s.flags.setZsp r)).finish

theorem State.runData_finishLoad (s : State) (rd : Reg) (writeFlags : Bool) (latch : List Byte) :
    State.runData [.finishLoad rd writeFlags] latch s =
      s.endLoad rd writeFlags (latchValue s.config.byteOrder latch) :=
  rfl

/-- The two loads of `LDW` (R161). -/
theorem State.runData_ldw {s : State} {va : Word} {b0 b1 : Byte} (h : s.loadBytes va 2 = some [b0, b1])
    (rd : Reg) (writeFlags : Bool) :
    State.runData (wordOps .loadByte va ++ [.finishLoad rd writeFlags]) [] s =
      s.endLoad rd writeFlags (wordOfBytes s.config.byteOrder b0 b1) := by
  obtain ⟨pa, rest, ht, ha, h, he⟩ := State.loadBytes_succ h
  obtain ⟨rfl, rfl⟩ := List.cons.inj he
  obtain ⟨qa, rest, ht', ha', h, he⟩ := State.loadBytes_succ h
  obtain ⟨rfl, rfl⟩ := List.cons.inj he
  exact (State.runData_load ht ha).trans (State.runData_load ht' ha')

/-- Settles O24: `LDW` completes with the word of its two bytes. -/
theorem ldwResult : Obligations.LdwResult := by
  intro cc rx vy s b0 b1 hcond hload
  have hexec : exec (.ldw cc rx vy) s = s.conditional cc (s.complete cc (s.dest rx)
      (wordOfBytes s.config.byteOrder b0 b1) (s.flags.setZsp (wordOfBytes s.config.byteOrder b0 b1))) :=
    congrArg (s.conditional cc) (State.runData_ldw hload _ _)
  exact exec_of_complete hexec hcond ⟨zspSay_setZsp _ _, rfl, rfl⟩

/-- Settles O25: `LDB` completes with its byte, zero-extended. -/
theorem ldbResult : Obligations.LdbResult := by
  intro cc rx vy s pa hcond ht ha
  have hexec : exec (.ldb cc rx vy) s = s.conditional cc (s.complete cc (s.dest rx)
      ((s.rawRead pa).setWidth 16) (s.flags.setZsp ((s.rawRead pa).setWidth 16))) :=
    congrArg (s.conditional cc) (State.runData_load ht ha)
  exact exec_of_complete hexec hcond ⟨zspSay_setZsp _ _, rfl, rfl⟩

end Sys2Proof.Machine
end

section
/-!
The data phases of `PSH` and `POP` (R190 to R193), and with them every data access of every instruction. `Stores` and `Loads` say what a data phase does with the bytes from an address upward, wherever in a word it starts; a whole `PSH` or `POP` is one case of them, and so is one that a handler has interrupted in the middle of a word.
-/
namespace Sys2Proof.Machine

theorem add_ofNat_succ (va : Word) (j : Nat) : va + BitVec.ofNat 16 (j + 1) = va + 1 + BitVec.ofNat 16 j := by
  rw [Nat.add_comm j 1, BitVec.ofNat_add, ← BitVec.add_assoc]
  rfl

theorem add_ofNat_zero (va : Word) : va + BitVec.ofNat 16 0 = va := BitVec.add_zero va

theorem add_one_add_one (va : Word) : va + 1 + 1 = va + 2 := BitVec.add_assoc va 1 1

/-! ## Data phases that store -/

/-- The data phase `ops` with `latch` in transfer stores the bytes `bs` from `va` upward: if they can all be stored it comes to its end after them, and if the first `j` of them can, it comes to the store of the next. -/
structure Stores (ops : List DataOp) (latch : List Byte) (s : State) (va : Word) (bs : List Byte) : Prop where
  done : ∀ w, s.storeBytes va bs = some w → State.runData ops latch s = w.finish
  next : ∀ j w, j < bs.length → s.storeBytes va (bs.take j) = some w → ∃ op rest latch',
    op.access? = some (va + BitVec.ofNat 16 j, .write) ∧ State.runData ops latch s = State.runData (op :: rest) latch' w

theorem Stores.nil (s : State) (va : Word) : Stores [] [] s va [] where
  done w h := by
    cases h
    rfl
  next j w hj _ := nomatch hj

/-- The store of the first byte of the latch, and then the others (R192). -/
theorem Stores.storeLatch {rest : List DataOp} {b : Byte} {latch : List Byte} {s : State} {va : Word} {bs : List Byte}
    (h : ∀ pa, Stores rest latch (s.rawWrite pa b) (va + 1) bs) :
    Stores (.storeLatch va :: rest) (b :: latch) s va (b :: bs) where
  done w hw := by
    obtain ⟨pa, ht, ha, hrest⟩ := State.storeBytes_cons hw
    rw [State.runData_storeLatch ht ha, (h pa).done w hrest]
  next j w hj hw := by
    cases j with
    | zero =>
      cases hw
      exact ⟨_, rest, _, by rw [add_ofNat_zero]; rfl, rfl⟩
    | succ j =>
      obtain ⟨pa, ht, ha, hrest⟩ := State.storeBytes_cons hw
      rw [add_ofNat_succ, State.runData_storeLatch ht ha]
      exact (h pa).next j w (Nat.lt_of_succ_lt_succ hj) hrest

/-- The stores of `PSH` store the bytes of its registers (R192). -/
theorem Stores.pushOps (s : State) (a : Word) (rs : List Reg) : Stores (pushOps a rs) [] s a (s.regBytes rs) := by
  induction rs generalizing s a with
  | nil => exact .nil s a
  | cons r rs ih =>
    have hword : Stores (wordOps .storeLatch a ++ Machine.pushOps (a + 2) rs)
        (wordBytes s.config.byteOrder (s.reg r)) s a (s.regBytes (r :: rs)) :=
      .storeLatch (fun pa => .storeLatch (fun qa => add_one_add_one a ▸ ih _ (a + 2)))
    exact ⟨hword.done, hword.next⟩

/-! ## Data phases that load -/

/-- Reads are the same after a register write. -/
theorem State.setReg_loadBytes (s : State) (r : Reg) (v : Word) (va : Word) (n : Nat) :
    (s.setReg r v).loadBytes va n = s.loadBytes va n := by
  induction n generalizing va with
  | zero => rfl
  | succ n ih =>
    have ht : (s.setReg r v).translate va .read = s.translate va .read := rfl
    rw [State.loadBytes, State.loadBytes, ht, ih]
    rfl

/-- The data phase `ops` with `latch` in transfer loads `n` bytes from `va` upward and goes on with `tail`: if they can all be loaded it comes to `tail` at the state that `f` makes of them, and if the first `j` of them can, it comes to the load of the next at the state that `f` makes of those. -/
structure Loads (ops tail : List DataOp) (latch : List Byte) (s : State) (va : Word) (n : Nat)
    (f : List Byte → State) : Prop where
  done : ∀ bs, s.loadBytes va n = some bs → State.runData ops latch s = State.runData tail [] (f bs)
  next : ∀ j bs, j < n → s.loadBytes va j = some bs → ∃ rest latch',
    State.runData ops latch s = State.runData (.loadByte (va + BitVec.ofNat 16 j) :: rest) latch' (f bs)

/-- The load of a byte, and then the others (R60, R61). -/
theorem Loads.loadByte {rest tail : List DataOp} {latch : List Byte} {s : State} {va : Word} {n : Nat}
    {f : List Byte → State} (hf : f [] = s) (h : ∀ b, Loads rest tail (latch ++ [b]) s (va + 1) n (fun bs => f (b :: bs))) :
    Loads (.loadByte va :: rest) tail latch s va (n + 1) f where
  done bs hbs := by
    obtain ⟨pa, more, ht, ha, hmore, rfl⟩ := State.loadBytes_succ hbs
    rw [State.runData_load ht ha, (h _).done more hmore]
  next j bs hj hbs := by
    cases j with
    | zero =>
      cases hbs
      exact ⟨rest, latch, by rw [add_ofNat_zero, hf]⟩
    | succ j =>
      obtain ⟨pa, more, ht, ha, hmore, rfl⟩ := State.loadBytes_succ hbs
      rw [add_ofNat_succ, State.runData_load ht ha]
      exact (h _).next j more (Nat.lt_of_succ_lt_succ hj) hmore

/-- The write of a register between the loads (R193). -/
theorem Loads.setReg {rest tail : List DataOp} {latch : List Byte} {s : State} {va : Word} {n : Nat}
    {f : List Byte → State} {r : Reg}
    (h : Loads rest tail [] (s.setReg r (latchValue s.config.byteOrder latch)) va n f) :
    Loads (.setReg r :: rest) tail latch s va n f where
  done bs hbs := h.done bs (by rwa [State.setReg_loadBytes])
  next j bs hj hbs := h.next j bs hj (by rwa [State.setReg_loadBytes])

/-- The state of `POP` after the bytes `bs` of the words of `rs`: the registers whose words are complete are written (R193). -/
def State.popped (s : State) (rs : List Reg) (bs : List Byte) : State :=
  s.setRegs rs (bytesToWords s.config.byteOrder bs)

@[simp] theorem State.popped_nil (s : State) (rs : List Reg) : s.popped rs [] = s := by
  simp [State.popped, State.setRegs, bytesToWords]

@[simp] theorem State.popped_single (s : State) (rs : List Reg) (b : Byte) : s.popped rs [b] = s := by
  simp [State.popped, State.setRegs, bytesToWords]

section
variable {tail : List DataOp} {a : Word} {rs : List Reg} {r : Reg}

/-- `POP` goes on after both bytes of a word. -/
theorem Loads.popOps_two {s : State} (b0 b1 : Byte)
    (h : ∀ t : State, Loads (popOps (a + 2) rs ++ tail) tail [] t (a + 2) (2 * rs.length) (t.popped rs)) :
    Loads (.setReg r :: popOps (a + 2) rs ++ tail) tail [b0, b1] s (a + 2) (2 * rs.length)
      (fun bs => s.popped (r :: rs) (b0 :: b1 :: bs)) :=
  .setReg (h _)

/-- `POP` goes on after the first byte of a word. -/
theorem Loads.popOps_one {s : State} (b0 : Byte)
    (h : ∀ t : State, Loads (popOps (a + 2) rs ++ tail) tail [] t (a + 2) (2 * rs.length) (t.popped rs)) :
    Loads (.loadByte (a + 1) :: .setReg r :: popOps (a + 2) rs ++ tail) tail [b0] s (a + 1) (2 * rs.length + 1)
      (fun bs => s.popped (r :: rs) (b0 :: bs)) :=
  .loadByte (State.popped_single ..) (fun b1 => by
    rw [add_one_add_one]
    exact .popOps_two b0 b1 h)

end

/-- The loads of `POP` load its words into its registers (R193). -/
theorem Loads.popOps (s : State) (a : Word) (rs : List Reg) (tail : List DataOp) :
    Loads (popOps a rs ++ tail) tail [] s a (2 * rs.length) (s.popped rs) := by
  induction rs generalizing s a with
  | nil =>
    refine ⟨fun bs hbs => ?_, fun j bs hj _ => nomatch hj⟩
    cases hbs
    rw [State.popped_nil]
    rfl
  | cons r rs ih => exact .loadByte (State.popped_nil ..) (fun b0 => .popOps_one b0 (fun t => ih t (a + 2)))

/-! ## `PSH` and `POP` -/

theorem popcnt_eq_length (regs : Word) : popcnt regs = (regList regs).length := by
  rw [popcnt, regList, List.length_map]

theorem State.regBytes_length (s : State) (rs : List Reg) : (s.regBytes rs).length = 2 * rs.length := by
  induction rs with
  | nil => rfl
  | cons r rs ih =>
    rw [State.regBytes, List.flatMap_cons, List.length_append, ← State.regBytes, ih]
    simp only [wordBytes, List.length_cons, List.length_nil]
    omega

theorem RegWrites.mono {s t : State} {written more : List Reg} (h : RegWrites s t written) (hsub : written ⊆ more) :
    RegWrites s t more :=
  ⟨h.changes, h.mem, h.flags, fun r hr => h.regs r (fun hw => hr (hsub hw))⟩

/-- Popping writes no register outside the set. -/
theorem RegWrites.setRegs (s : State) (rs : List Reg) (ws : List Word) : RegWrites s (s.setRegs rs ws) rs := by
  induction rs generalizing s ws with
  | nil => exact .refl s
  | cons r rs ih =>
    cases ws with
    | nil => exact (RegWrites.refl s).mono (List.nil_subset _)
    | cons w ws => exact ((RegWrites.refl s).setReg r w).trans (ih (s.setReg r w) ws)

/-- The end of `POP`: the pointer, as it is after the loads, goes up (R193). -/
theorem State.runData_addReg (s : State) (r : Reg) (delta : Word) :
    State.runData [.addReg r delta] [] s = (s.setReg r (s.reg r + delta)).finish :=
  rfl

/-- What the pointer and the other registers hold when the pointer `rd` has gone up after the loads of `rs` (R193). -/
theorem pop_ends {s v : State} {rs : List Reg} (hv : RegWrites s v rs) (rd : Reg) (delta : Word) :
    Frame s (v.setReg rd (v.reg rd + delta)).finish (rd :: rs) [] ∧
      Holds (v.setReg rd (v.reg rd + delta)).finish rd (v.reg rd + delta) ∧
      (∀ r, r ≠ rd → (v.setReg rd (v.reg rd + delta)).finish.reg r = v.reg r) ∧
      (v.setReg rd (v.reg rd + delta)).finish.flags = s.flags := by
  refine ⟨((hv.setReg rd _).mono ?_).frame_finish, ?_, fun r hr => State.reg_setReg_of_ne v hr _, (hv.setReg rd _).flags⟩
  · intro r hr
    rcases List.mem_append.mp hr with h | h
    · exact List.mem_cons_of_mem rd h
    · exact List.mem_singleton.mp h ▸ List.mem_cons_self
  · rw [Holds, State.finish_reg, State.reg_setReg, if_pos rfl]

/-- Settles O36: the pointer moves, and then the bytes of the set are stored. -/
theorem pshResult : Obligations.PshResult := by
  intro cc regs s s1 u hcond hs1 hstore
  have hexec : exec (.psh cc regs) s = .next (State.runData (pushOps (s1.reg (s.dest Reg.sp)) (regList regs)) [] s1) := by
    rw [hs1]
    exact State.conditional_true hcond _
  have hwrites : RegWrites s s1 [s.dest Reg.sp] := hs1 ▸ (RegWrites.refl s).setReg _ _
  have hstored := State.storeBytes_stored hstore
  rw [(Stores.pushOps ..).done u hstore] at hexec
  refine ⟨_, hexec, hstored.frame_finish hwrites, ?_, fun _ => rfl, hstored.flags.trans hwrites.flags⟩
  rw [Holds, State.finish_reg, hstored.reg, hs1, State.reg_setReg, if_pos rfl]

/-- Settles O37: the words are loaded into the set, and then the pointer moves. -/
theorem popResult : Obligations.PopResult := by
  intro cc regs s v bs hcond hload hv
  have hexec : exec (.pop cc regs) s = .next (State.runData
      (popOps (s.reg (s.dest Reg.sp)) (regList regs) ++ [.addReg (s.dest Reg.sp) (setBytes regs)]) [] s) :=
    State.conditional_true hcond _
  rw [popcnt_eq_length] at hload
  rw [(Loads.popOps ..).done bs hload, State.runData_addReg] at hexec
  have hwrites : RegWrites s v (regList regs) := hv ▸ RegWrites.setRegs s _ _
  subst hv
  exact ⟨_, hexec, pop_ends hwrites _ _⟩

/-! ## Every data access -/

section
variable {cc : Cond} {s : State} (hcond : condHolds cc s.flags = true)
include hcond

/-- An instruction whose condition holds stops where its operation does (R103). -/
theorem stopsAt_of_operation {i : Instr} {r w : State} {va : Word} {a : Access}
    (hexec : exec i s = s.conditional cc r) (h : StopsAt w va a (.next r)) : StopsAt w va a (exec i s) := by
  rwa [hexec, State.conditional_true hcond]

theorem stopsAt_ldw (rx : Reg) (vy : Vy) : StopsAt s (s.vy vy) .read (exec (.ldw cc rx vy) s) :=
  stopsAt_of_operation hcond rfl (State.runData_stopsAt rfl _ _ s)

/-- `LDW` at its second byte: the first is in transfer (R61). -/
theorem stopsAt_ldw_second (rx : Reg) {vy : Vy} {pa : Word} (ht : s.translate (s.vy vy) .read = some pa)
    (ha : s.accessible pa = true) : StopsAt s (s.vy vy + 1) .read (exec (.ldw cc rx vy) s) :=
  stopsAt_of_operation hcond (congrArg (s.conditional cc) (State.runData_load ht ha)) (State.runData_stopsAt rfl _ _ s)

theorem stopsAt_ldb (rx : Reg) (vy : Vy) : StopsAt s (s.vy vy) .read (exec (.ldb cc rx vy) s) :=
  stopsAt_of_operation hcond rfl (State.runData_stopsAt rfl _ _ s)

theorem stopsAt_stw (rx : Reg) (vy : Vy) : StopsAt s (s.reg rx) .write (exec (.stw cc rx vy) s) :=
  stopsAt_of_operation hcond rfl (State.runData_stopsAt rfl _ _ s)

/-- `STW` at its second byte: the first is stored (R61, D25). -/
theorem stopsAt_stw_second {rx : Reg} (vy : Vy) {pa : Word} (ht : s.translate (s.reg rx) .write = some pa)
    (ha : s.accessible pa = true) :
    StopsAt (s.rawWrite pa (firstByte s.config.byteOrder (s.vy vy))) (s.reg rx + 1) .write (exec (.stw cc rx vy) s) :=
  stopsAt_of_operation hcond (congrArg (s.conditional cc) (State.runData_store ht ha)) (State.runData_stopsAt rfl _ _ _)

theorem stopsAt_stb (rx : Reg) (v8 : V8) : StopsAt s (s.reg rx) .write (exec (.stb cc rx v8) s) :=
  stopsAt_of_operation hcond rfl (State.runData_stopsAt rfl _ _ s)

/-- `PSH` at byte `k`: the pointer has moved and the bytes before are stored (R192, D12, D13). -/
theorem stopsAt_psh {regs : Word} {s1 w : State} {k : Nat}
    (hs1 : s1 = s.setReg (s.dest Reg.sp) (s.reg (s.dest Reg.sp) - BitVec.ofNat 16 (2 * popcnt regs)))
    (hk : k < 2 * popcnt regs)
    (hstore : s1.storeBytes (s1.reg (s.dest Reg.sp)) ((s1.regBytes (regList regs)).take k) = some w) :
    StopsAt w (s1.reg (s.dest Reg.sp) + BitVec.ofNat 16 k) .write (exec (.psh cc regs) s) := by
  rw [popcnt_eq_length, ← s1.regBytes_length] at hk
  obtain ⟨op, rest, latch, hop, hrun⟩ := (Stores.pushOps s1 _ _).next k w hk hstore
  refine stopsAt_of_operation hcond (r := State.runData (op :: rest) latch w) ?_ (State.runData_stopsAt hop rest latch w)
  rw [← hrun, hs1]
  rfl

/-- `POP` at byte `k`: the registers whose words are complete are written (R193, D12, D13). -/
theorem stopsAt_pop {regs : Word} {k : Nat} {bs : List Byte} (hk : k < 2 * popcnt regs)
    (hload : s.loadBytes (s.reg (s.dest Reg.sp)) k = some bs) :
    StopsAt (s.popped (regList regs) bs) (s.reg (s.dest Reg.sp) + BitVec.ofNat 16 k) .read (exec (.pop cc regs) s) := by
  rw [popcnt_eq_length] at hk
  obtain ⟨rest, latch, hrun⟩ := (Loads.popOps s _ _ [.addReg (s.dest Reg.sp) (setBytes regs)]).next k bs hk hload
  refine stopsAt_of_operation hcond (r := State.runData (.loadByte _ :: rest) latch _) ?_ (State.runData_stopsAt rfl rest latch _)
  rw [← hrun]
  rfl

end

/-- Whatever data access an instruction comes to stops it there if the access cannot be made (R250, R252, R263). -/
theorem DataAccess.stopsAt {i : Instr} {cc : Cond} {s w : State} {va : Word} {a : Access} (h : DataAccess i s w va a)
    (hi : i.cond? = some cc) (hcond : condHolds cc s.flags = true) : StopsAt w va a (exec i s) := by
  cases h with
  | ldw k bs hk hload =>
    obtain rfl := Option.some.inj hi
    match k, hk with
    | 0, _ =>
      rw [add_ofNat_zero]
      exact stopsAt_ldw hcond _ _
    | 1, _ =>
      obtain ⟨pa, -, ht, ha, -, -⟩ := State.loadBytes_succ hload
      exact stopsAt_ldw_second hcond _ ht ha
  | ldb =>
    obtain rfl := Option.some.inj hi
    exact stopsAt_ldb hcond _ _
  | stw k hk hstore =>
    obtain rfl := Option.some.inj hi
    match k, hk with
    | 0, _ =>
      cases hstore
      rw [add_ofNat_zero]
      exact stopsAt_stw hcond _ _
    | 1, _ =>
      obtain ⟨pa, ht, ha, hw⟩ := State.storeBytes_cons hstore
      obtain rfl := Option.some.inj hw
      exact stopsAt_stw_second hcond _ ht ha
  | stb =>
    obtain rfl := Option.some.inj hi
    exact stopsAt_stb hcond _ _
  | psh k hs1 hk hstore =>
    obtain rfl := Option.some.inj hi
    exact stopsAt_psh hcond hs1 hk hstore
  | pop k bs hk hload =>
    obtain rfl := Option.some.inj hi
    exact stopsAt_pop hcond hk hload

/-! ## Faults and halts of accesses -/

/-- Settles O41: the accesses of `LDW` and `LDB`. -/
theorem loadFault : Obligations.LoadFault := fun _ rx vy _ hcond =>
  ⟨fun ht hp => ⟨(stopsAt_ldw hcond rx vy).handler ht hp, (stopsAt_ldb hcond rx vy).handler ht hp⟩,
    fun _ ht ha ht' hp' => (stopsAt_ldw_second hcond rx ht ha).handler ht' hp'⟩

/-- Settles O42: the accesses of `STW` and `STB`. -/
theorem storeFault : Obligations.StoreFault := by
  intro cc rx vy v8 s hcond
  refine ⟨fun ht hp => ⟨(stopsAt_stw hcond rx vy).handler ht hp, (stopsAt_stb hcond rx v8).handler ht hp⟩, ?_⟩
  rintro pa s1 ht ha rfl ht' hp'
  exact (stopsAt_stw_second hcond vy ht ha).handler ht' hp'

/-- Settles O43: the accesses of `PSH` and `POP`. -/
theorem stackFault : Obligations.StackFault := by
  intro cc regs s k hcond hk
  constructor
  · intro s1 w hs1 hstore ht hp
    exact (stopsAt_psh hcond hs1 hk hstore).handler ht hp
  · rintro bs w hload rfl ht hp
    exact (stopsAt_pop hcond hk hload).handler ht hp

/-- Settles O45: every data access and every code byte stops by the halt of an unmapped page. -/
theorem unmappedHalt : Obligations.UnmappedHalt :=
  ⟨fun _ _ _ _ _ _ hi hcond h ht hp => (h.stopsAt hi hcond).unmapped ht hp,
    fun _ _ _ h hmore ht hp => (h.stopsAt hmore).unmapped ht hp⟩

/-- Settles O46: every data access and every code byte stops by the halt of an inaccessible page. -/
theorem doubleFaultHalt : Obligations.DoubleFaultHalt :=
  ⟨fun _ _ _ _ _ _ _ hi hcond h ht ha => (h.stopsAt hi hcond).denied _ ht ha,
    fun _ _ _ _ h hmore ht ha => (h.stopsAt hmore).denied _ ht ha⟩

end Sys2Proof.Machine
end

section
/-!
The return of a fault handler (R257 to R261). The returning step either abandons the instruction or makes the access that faulted at the physical address the handler returned and goes on; for `PSH` and `POP`, `pushRest` and `popRest` are what goes on after any byte of their words.
-/
namespace Sys2Proof.Machine

/-! ## The returning step -/

/-- `PC` after the return: the saved one if the handler modified it, else the live one (R258, D20). -/
theorem State.returnFromHandler_pc (s : State) (u : Suspended) :
    (s.returnFromHandler u).pc = if s.savedReg Reg.pc = u.insnPc then u.livePc else s.savedReg Reg.pc := by
  rw [State.pc, State.returnFromHandler_reg, if_neg (by decide), if_pos rfl]

/-- From the handler's state `s` to the state it returns to (R258). -/
theorem State.returnFromHandler_left (s : State) (u : Suspended) : HandlerLeft s (s.returnFromHandler u) u :=
  have hregs : ∀ r : Reg, r ≠ 0 → r ≠ Reg.pc → (s.returnFromHandler u).reg r = s.savedReg r := fun r h0 hpc => by
    rw [State.returnFromHandler_reg, if_neg h0, if_neg hpc]
  ⟨State.returnFromHandler_active_eq s u, State.returnFromHandler_mmuEnabled_eq s u,
    State.returnFromHandler_suspended_eq s u, State.reg_zero _, hregs, State.returnFromHandler_pc s u,
    State.returnFromHandler_flags s u, State.returnFromHandler_run s u, State.returnFromHandler_mem s u,
    State.returnFromHandler_config s u, State.returnFromHandler_portAnswers s u, State.returnFromHandler_portLog s u,
    State.returnFromHandler_draws s u⟩

/-- Abandoning the instruction after the return forgets its prefixes and changes nothing else (R44, R260). -/
theorem HandlerLeft.finish {s t : State} {u : Suspended} (h : HandlerLeft s t u) : HandlerLeft s t.finish u :=
  ⟨h.active, h.mmuEnabled, h.suspended, h.zero, h.regs, h.pc, h.flags, h.run, h.mem, h.config, h.portAnswers, h.portLog,
    h.draws⟩

theorem handlerCompleted_iff (s : State) (u : Suspended) : s.handlerCompleted u = true ↔ ¬ NotCompleted s u := by
  rw [State.handlerCompleted, NotCompleted, Bool.or_eq_true, bne_iff_ne, bne_iff_ne, not_and_or]

section
variable {s : State} {u : Suspended}

theorem AtReturn.ready (h : AtReturn s u) : s.ready = s.endHandler u := by
  have hret : s.atHandlerReturn = true := (atHandlerReturn_iff s).mpr ⟨h.active, h.pc, h.boundary⟩
  simp only [State.ready, hret, h.suspended]

/-- The address that the handler returned is `R2` of its thread (R258). -/
theorem AtReturn.exception_reg (h : AtReturn s u) (r : Reg) : s.exception.reg r = s.reg r := by
  rw [State.reg, State.ctx, h.active]

/-- The returning step of an interrupted data phase goes on with the access (R259, R261). -/
theorem AtReturn.step_data (h : AtReturn s u) (hnot : NotCompleted s u) {op : DataOp} {rest : List DataOp}
    {latch : List Byte} (hwork : u.work = .data op rest latch) :
    step s = .next ((s.returnFromHandler u).continueData (s.reg 2) op rest latch) := by
  have hc : s.handlerCompleted u = false := Bool.eq_false_iff.mpr (fun e => (handlerCompleted_iff s u).mp e hnot)
  refine step_of_done h.run (h.ready.trans ?_)
  simp only [State.endHandler, hc, hwork, h.exception_reg, Bool.false_eq_true, if_false]

/-- The returning step of an interrupted fetch goes on with the fetch (R253, R259). -/
theorem AtReturn.ready_fetch (h : AtReturn s u) (hnot : NotCompleted s u) {got : List Byte}
    (hwork : u.work = .fetch got) : s.ready = (s.returnFromHandler u).continueFetch (s.reg 2) got := by
  have hc : s.handlerCompleted u = false := Bool.eq_false_iff.mpr (fun e => (handlerCompleted_iff s u).mp e hnot)
  rw [h.ready]
  simp only [State.endHandler, hc, hwork, h.exception_reg, Bool.false_eq_true, if_false]

end

/-- Settles O47: a handler that has marked the instruction complete abandons it. -/
theorem returnCompleted : Obligations.ReturnCompleted := by
  intro s u h hdone
  have hc : s.handlerCompleted u = true := (handlerCompleted_iff s u).mpr hdone
  refine ⟨_, step_of_done h.run (h.ready.trans ?_), (s.returnFromHandler_left u).finish, rfl⟩
  rw [State.endHandler, if_pos hc]

/-! ## The access that faulted -/

section
variable {s : State} {pa : Word} {rest : List DataOp} {latch : List Byte}

theorem State.continueData_load (ha : s.accessible pa = true) (va : Word) :
    s.continueData pa (.loadByte va) rest latch = State.runData rest (latch ++ [s.rawRead pa]) s := by
  simp [State.continueData, DataOp.performAt, State.readAt_ok ha, Except.map]

theorem State.continueData_store (ha : s.accessible pa = true) (va : Word) (b : Byte) :
    s.continueData pa (.storeByte va b) rest latch = State.runData rest latch (s.rawWrite pa b) := by
  simp [State.continueData, DataOp.performAt, State.writeAt_ok ha, Except.map]

theorem State.continueData_storeLatch (ha : s.accessible pa = true) (va : Word) (b : Byte) :
    s.continueData pa (.storeLatch va) rest (b :: latch) = State.runData rest latch (s.rawWrite pa b) := by
  simp [State.continueData, DataOp.performAt, State.writeAt_ok ha, Except.map]

theorem State.continueData_denied (ha : s.accessible pa = false) {op : DataOp} {va : Word} {a : Access}
    (hop : op.access? = some (va, a)) : s.continueData pa op rest latch = s.halt .doubleFault := by
  simp [State.continueData, DataOp.performAt_denied hop ha, State.takeTrap]

end

/-! ## The end of a resumed load -/

theorem State.endLoad_frame (v : State) (rd : Reg) (writeFlags : Bool) (r : Word) :
    Frame v (v.endLoad rd writeFlags r) [rd] [] where
  regs q hq := by
    rw [State.endLoad, State.finish_reg, State.setFlagsIf_reg, State.reg_setReg_of_ne v (hq ∘ List.mem_singleton.mpr)]
  mem _ _ := rfl
  idle := by rw [State.endLoad, State.finish_idle, State.setFlagsIf_idle, State.setReg_idle]
  active := rfl
  mmuEnabled := rfl
  run := rfl
  suspended := rfl
  config := rfl
  decode := rfl
  portAnswers := rfl
  portLog := rfl
  draws := rfl

theorem State.endLoad_holds (v : State) (rd : Reg) (writeFlags : Bool) (r : Word) :
    Holds (v.endLoad rd writeFlags r) rd r := by
  rw [Holds, State.endLoad, State.finish_reg, State.setFlagsIf_reg, State.reg_setReg, if_pos rfl]

theorem State.endLoad_flags (v : State) (rd : Reg) (writeFlags : Bool) (r : Word) :
    (v.endLoad rd writeFlags r).flags = if writeFlags then v.flags.setZsp r else v.flags := by
  rw [State.endLoad, State.finish_flags, State.setFlagsIf_flags, State.setReg_flags]

/-- A resumed load ends with its word, and with `ZSP` over the flags of the normal thread (R161, R163, R258). -/
theorem loadEnds_endLoad {s v : State} (hflags : v.flags = s.normal.flags) (rd : Reg) (writeFlags : Bool) (r : Word) :
    LoadEnds s v (.next (v.endLoad rd writeFlags r)) rd writeFlags r := by
  refine ⟨_, rfl, v.endLoad_frame rd writeFlags r, v.endLoad_holds rd writeFlags r, ?_⟩
  rw [State.endLoad_flags, hflags]
  cases writeFlags with
  | false => exact rfl
  | true => exact ⟨zspSay_setZsp _ r, rfl, rfl⟩

/-! ## Loads and stores that are resumed -/

section
variable {s v : State} {u : Suspended} (h : AtReturn s u) (hnot : NotCompleted s u) (hv : v = s.returnFromHandler u)
  (hacc : v.accessible (s.reg 2) = true)

theorem flags_of_return (hv : v = s.returnFromHandler u) : v.flags = s.normal.flags := by
  rw [hv, State.returnFromHandler_flags]

theorem rawRead_of_return (hv : v = s.returnFromHandler u) (pa : Word) : v.rawRead pa = s.rawRead pa := by
  rw [hv, State.rawRead, State.returnFromHandler_mem, State.rawRead]

theorem config_of_return (hv : v = s.returnFromHandler u) : v.config = s.config := by
  rw [hv, State.returnFromHandler_config]

include h hnot hv hacc

theorem AtReturn.step_load {va : Word} {rest : List DataOp} {latch : List Byte}
    (hwork : u.work = .data (.loadByte va) rest latch) :
    step s = .next (State.runData rest (latch ++ [s.rawRead (s.reg 2)]) v) := by
  rw [h.step_data hnot hwork, ← hv, State.continueData_load hacc, rawRead_of_return hv]

theorem AtReturn.step_store {va : Word} {b : Byte} {rest : List DataOp} {latch : List Byte}
    (hwork : u.work = .data (.storeByte va b) rest latch) :
    step s = .next (State.runData rest latch (v.rawWrite (s.reg 2) b)) := by
  rw [h.step_data hnot hwork, ← hv, State.continueData_store hacc]

theorem AtReturn.step_storeLatch {va : Word} {b : Byte} {rest : List DataOp} {latch : List Byte}
    (hwork : u.work = .data (.storeLatch va) rest (b :: latch)) :
    step s = .next (State.runData rest latch (v.rawWrite (s.reg 2) b)) := by
  rw [h.step_data hnot hwork, ← hv, State.continueData_storeLatch hacc]

/-- A load whose last byte faulted ends with the word of the latch (R161, R163). -/
theorem AtReturn.load_ends {va : Word} {rd : Reg} {writeFlags : Bool} {latch : List Byte}
    (hwork : u.work = .data (.loadByte va) [.finishLoad rd writeFlags] latch) :
    LoadEnds s v (step s) rd writeFlags (latchValue s.config.byteOrder (latch ++ [s.rawRead (s.reg 2)])) := by
  rw [h.step_load hnot hv hacc hwork, State.runData_finishLoad, config_of_return hv]
  exact loadEnds_endLoad (flags_of_return hv) rd writeFlags _

/-- `LDW` whose first byte faulted loads its second byte as any load does (R61, R259). -/
theorem AtReturn.load_first {va : Word} {rd : Reg} {writeFlags : Bool}
    (hwork : u.work = .data (.loadByte va) [.loadByte (va + 1), .finishLoad rd writeFlags] []) :
    (∀ b1, v.loadBytes (va + 1) 1 = some [b1] →
      LoadEnds s v (step s) rd writeFlags (wordOfBytes s.config.byteOrder (s.rawRead (s.reg 2)) b1)) ∧
      StopsAt v (va + 1) .read (step s) := by
  rw [h.step_load hnot hv hacc hwork]
  refine ⟨fun b1 hload => ?_, State.runData_stopsAt rfl _ _ _⟩
  obtain ⟨pa, rest, ht, ha, -, he⟩ := State.loadBytes_succ hload
  obtain ⟨rfl, -⟩ := List.cons.inj he
  rw [State.runData_load ht ha, State.runData_finishLoad, config_of_return hv]
  exact loadEnds_endLoad (flags_of_return hv) rd writeFlags _

/-- A store whose last byte faulted ends after that byte (R162, R164). -/
theorem AtReturn.store_ends {va : Word} {b : Byte} (hwork : u.work = .data (.storeByte va b) [] []) :
    ∃ t, step s = .next t ∧ Frame v t [] [s.reg 2] ∧ t.rawRead (s.reg 2) = b ∧ t.flags = s.normal.flags :=
  ⟨_, h.step_store hnot hv hacc hwork, Stored.frame_finish (.refl v) (.rawWrite v _ b),
    (State.rawRead_rawWrite v _ _ b).trans (if_pos rfl), (State.rawWrite_flags v (s.reg 2) b).trans (flags_of_return hv)⟩

/-- `STW` whose first byte faulted stores its second byte as any store does (R61, R259). -/
theorem AtReturn.store_first {va : Word} {b b1 : Byte}
    (hwork : u.work = .data (.storeByte va b) [.storeByte (va + 1) b1] []) {x : State}
    (hx : x = v.rawWrite (s.reg 2) b) :
    (∀ y, x.storeBytes (va + 1) [b1] = some y →
      ∃ t, step s = .next t ∧ Frame v t [] (s.reg 2 :: x.storeTargets (va + 1) [b1]) ∧
        (∀ a, t.mem.read a = y.mem.read a) ∧ t.flags = s.normal.flags) ∧
      StopsAt x (va + 1) .write (step s) := by
  have hstored : Stored v x [s.reg 2] := hx ▸ .rawWrite _ _ b
  rw [h.step_store hnot hv hacc hwork, ← hx]
  refine ⟨fun y hstore => ?_, State.runData_stopsAt rfl _ _ _⟩
  have hy := hstored.trans (State.storeBytes_stored hstore)
  obtain ⟨pa, ht, ha, hrest⟩ := State.storeBytes_cons hstore
  obtain rfl := Option.some.inj hrest
  exact ⟨_, congrArg _ (State.runData_store ht ha), Stored.frame_finish (.refl v) hy, fun _ => rfl,
    hy.flags.trans (flags_of_return hv)⟩

end

/-- Settles O48: the resumed access, and the rest of the data phase of each load and store. -/
theorem returnResumesAccess : Obligations.ReturnResumesAccess := by
  intro s v u h hnot hv
  refine ⟨hv ▸ s.returnFromHandler_left u, fun op rest latch va a hwork hop hdenied => ?_, fun hacc => ?_⟩
  · rw [h.step_data hnot hwork, ← hv, State.continueData_denied hdenied hop]
    rfl
  · exact ⟨fun _ _ _ => h.step_load hnot hv hacc, fun _ _ _ _ => h.step_store hnot hv hacc,
      fun _ _ _ _ => h.step_storeLatch hnot hv hacc, fun _ _ _ => h.load_ends hnot hv hacc,
      fun _ _ _ _ => h.load_ends hnot hv hacc, fun _ _ _ => h.load_first hnot hv hacc,
      fun _ _ => h.store_ends hnot hv hacc, fun _ _ _ _ hwork hx => h.store_first hnot hv hacc hwork hx⟩

/-! ## The rest of a fetch -/

section
variable {s v : State} {u : Suspended} {got : List Byte} (h : AtReturn s u) (hnot : NotCompleted s u)
  (hv : v = s.returnFromHandler u) (hwork : u.work = .fetch got)

/-- The decoder goes on with the prefixes of the suspended instruction (R44, R253). -/
theorem decode_of_return (hv : v = s.returnFromHandler u) (bs : List Byte) :
    decode v.config.byteOrder v.decode.xc bs = decode s.config.byteOrder u.decode.xc bs := by
  rw [hv, State.returnFromHandler_config, State.returnFromHandler_decode_eq]

include h hnot hv hwork

/-- The returned address of a code byte is checked (R58, R259). -/
theorem AtReturn.fetch_denied (hdenied : v.accessible (s.reg 2) = false) :
    step s = .next { v with run := .halted .doubleFault } := by
  refine step_of_done h.run ((h.ready_fetch hnot hwork).trans ?_)
  rw [← hv, State.continueFetch, State.readAt_denied hdenied]
  rfl

/-- The code byte at the returned address, and then further ones as usual (R253, R259). -/
theorem AtReturn.fetch_goes_on (hacc : v.accessible (s.reg 2) = true) {more : List Byte} {x : State}
    (hfetch : v.advancePc.fetchBytes more.length = some (more, x))
    (hmore : ∀ m, m < more.length →
      decode s.config.byteOrder u.decode.xc (got ++ [s.rawRead (s.reg 2)] ++ more.take m) = .more)
    {fuel : Nat} (hfuel : maxUnitBytes = more.length + fuel) :
    s.ready = State.fetchFrom fuel (got ++ [s.rawRead (s.reg 2)] ++ more) x := by
  rw [h.ready_fetch hnot hwork, ← hv, State.continueFetch, State.readAt_ok hacc, hfuel, ← rawRead_of_return hv]
  refine fetchFrom_of_fetchBytes fuel _ hfetch (fun m hm => ?_)
  rw [rawRead_of_return hv]
  exact (decode_of_return hv _).trans (hmore m hm)

end

/-- Settles O50: the returning step goes on with the fetch, which runs the instruction or is stopped. -/
theorem returnResumesFetch : Obligations.ReturnResumesFetch := by
  intro s v u got h hnot hv hwork
  refine ⟨hv ▸ s.returnFromHandler_left u, h.fetch_denied hnot hv hwork, ?_⟩
  rintro bs more x hacc rfl hfetch hmore
  have hdecode (cs : List Byte) : decode x.config.byteOrder x.decode.xc cs = decode s.config.byteOrder u.decode.xc cs := by
    rw [State.fetchBytes_state hfetch]
    exact decode_of_return hv cs
  refine ⟨fun i hi => ?_, fun hend => ?_⟩
  · obtain ⟨fuel, hfuel⟩ := Nat.exists_eq_add_of_le (length_le_of_beginnings hmore)
    refine step_of_run h.run ((h.fetch_goes_on hnot hv hwork hacc hfetch hmore hfuel).trans ?_)
    exact fetchFrom_run fuel ((hdecode _).trans hi)
  · have hlen : more.length < maxUnitBytes := by
      have hshort := length_of_decode_more hend
      rw [List.length_append] at hshort
      omega
    obtain ⟨fuel, hfuel⟩ := Nat.exists_eq_add_of_lt hlen
    refine stopsAt_of_fetch fuel ((hdecode _).trans hend) (fun r hr => ?_)
    exact step_of_done h.run ((h.fetch_goes_on hnot hv hwork hacc hfetch hmore hfuel).trans hr)

end Sys2Proof.Machine
end

section
/-!
`PSH` and `POP` that are interrupted at a byte of their words and resumed (R192, R193, R259, R261). `pushRest` and `popRest` are the parts of the data phase after the access to byte `k`; the interrupting fault suspends exactly these, and resumed they are again data phases that store and load.
-/
namespace Sys2Proof.Machine

/-! ## `PSH` after byte `k` -/

/-- The parts of the data phase of `PSH` after the store of byte `k`. -/
def pushRest (a : Word) (rs : List Reg) (k : Nat) : List DataOp :=
  match rs, k with
  | [], _ => []
  | _ :: rest, 0 => .storeLatch (a + 1) :: pushOps (a + 2) rest
  | _ :: rest, 1 => pushOps (a + 2) rest
  | _ :: rest, k + 2 => pushRest (a + 2) rest k

/-- The address of byte `k + 2` from the address of the next word. -/
theorem add_ofNat_add_two (a : Word) (k : Nat) : a + BitVec.ofNat 16 (k + 2) = a + 2 + BitVec.ofNat 16 k := by
  rw [add_ofNat_succ, add_ofNat_succ, add_one_add_one]

theorem add_ofNat_add (a : Word) (k j : Nat) :
    a + BitVec.ofNat 16 k + BitVec.ofNat 16 j = a + BitVec.ofNat 16 (k + j) := by
  rw [BitVec.ofNat_add, BitVec.add_assoc]

/-- `PSH` comes to the store of byte `k` with the rest of its word in transfer (R192, log 12). -/
theorem State.runData_pushOps {s w : State} {a : Word} {rs : List Reg} {k : Nat} (hk : k < 2 * rs.length)
    (h : s.storeBytes a ((s.regBytes rs).take k) = some w) :
    State.runData (pushOps a rs) [] s = State.runData (.storeLatch (a + BitVec.ofNat 16 k) :: pushRest a rs k)
      (((s.regBytes rs).drop k).take (2 - k % 2)) w := by
  induction rs generalizing s a k with
  | nil => cases hk
  | cons r rs ih =>
    match k with
    | 0 =>
      cases h
      rw [add_ofNat_zero]
      rfl
    | 1 =>
      obtain ⟨pa, ht, ha, hw⟩ := State.storeBytes_cons h
      cases hw
      exact State.runData_storeLatch ht ha
    | k + 2 =>
      obtain ⟨pa, ht, ha, h⟩ := State.storeBytes_cons h
      obtain ⟨qa, ht', ha', h⟩ := State.storeBytes_cons h
      rw [add_one_add_one] at h
      have hword : State.runData (pushOps a (r :: rs)) [] s = State.runData (pushOps (a + 2) rs) []
          ((s.rawWrite pa (firstByte s.config.byteOrder (s.reg r))).rawWrite qa
            (secondByte s.config.byteOrder (s.reg r))) :=
        (State.runData_storeLatch ht ha).trans (State.runData_storeLatch ht' ha')
      have hlen : k < 2 * rs.length := by
        rw [List.length_cons] at hk
        omega
      rw [hword, ih hlen h, add_ofNat_add_two, Nat.add_mod_right]
      rfl

/-- What is left of a `PSH` after byte `k` stores the captured rest of that word, and then the words of the later registers as they are when it goes on (R192, D13). -/
theorem Stores.pushRest (s x : State) (a : Word) {rs : List Reg} {k : Nat} (hk : k < 2 * rs.length) :
    Stores (pushRest a rs k) (((s.regBytes rs).drop (k + 1)).take ((k + 1) % 2)) x (a + BitVec.ofNat 16 (k + 1))
      (((s.regBytes rs).drop (k + 1)).take ((k + 1) % 2) ++ x.regBytes (rs.drop (k / 2 + 1))) := by
  induction rs generalizing a k with
  | nil => cases hk
  | cons r rs ih =>
    match k with
    | 0 => exact .storeLatch (fun pa => add_one_add_one a ▸ .pushOps _ (a + 2) rs)
    | 1 => exact .pushOps x (a + 2) rs
    | k + 2 =>
      have hlen : k < 2 * rs.length := by
        rw [List.length_cons] at hk
        omega
      have hmod : (k + 2 + 1) % 2 = (k + 1) % 2 := by omega
      have hdiv : (k + 2) / 2 + 1 = k / 2 + 1 + 1 := by omega
      have haddr : a + BitVec.ofNat 16 (k + 2 + 1) = a + 2 + BitVec.ofNat 16 (k + 1) := add_ofNat_add_two a (k + 1)
      rw [hmod, hdiv, haddr]
      exact ih (a + 2) hlen

/-! ## `POP` after byte `k` -/

/-- The parts of the data phase of `POP` after the load of byte `k`, but for the pointer. -/
def popRest (a : Word) (rs : List Reg) (k : Nat) : List DataOp :=
  match rs, k with
  | [], _ => []
  | r :: rest, 0 => .loadByte (a + 1) :: .setReg r :: popOps (a + 2) rest
  | r :: rest, 1 => .setReg r :: popOps (a + 2) rest
  | _ :: rest, k + 2 => popRest (a + 2) rest k

theorem State.loadBytes_length {s : State} {va : Word} {n : Nat} {bs : List Byte} (h : s.loadBytes va n = some bs) :
    bs.length = n := by
  induction n generalizing va bs with
  | zero => cases h; rfl
  | succ n ih =>
    obtain ⟨pa, rest, -, -, hrest, rfl⟩ := State.loadBytes_succ h
    rw [List.length_cons, ih hrest]

/-- `POP` comes to the load of byte `k` with the registers whose words are complete written, and the bytes of the word it is in in transfer (R193). -/
theorem State.runData_popOps {s : State} {a : Word} {rs : List Reg} {k : Nat} {bs : List Byte} (tail : List DataOp)
    (hk : k < 2 * rs.length) (h : s.loadBytes a k = some bs) :
    State.runData (popOps a rs ++ tail) [] s = State.runData
      (.loadByte (a + BitVec.ofNat 16 k) :: (popRest a rs k ++ tail)) (bs.drop (2 * (k / 2))) (s.popped rs bs) := by
  induction rs generalizing s a k bs with
  | nil => cases hk
  | cons r rs ih =>
    match k with
    | 0 =>
      cases h
      rw [add_ofNat_zero, State.popped_nil]
      rfl
    | 1 =>
      obtain ⟨pa, rest, ht, ha, hrest, rfl⟩ := State.loadBytes_succ h
      cases hrest
      rw [State.popped_single]
      exact State.runData_load ht ha
    | k + 2 =>
      obtain ⟨pa, rest, ht, ha, hrest, rfl⟩ := State.loadBytes_succ h
      obtain ⟨qa, more, ht', ha', hmore, rfl⟩ := State.loadBytes_succ hrest
      rw [add_one_add_one,
        ← State.setReg_loadBytes s r (wordOfBytes s.config.byteOrder (s.rawRead pa) (s.rawRead qa))] at hmore
      have hword : State.runData (popOps a (r :: rs) ++ tail) [] s = State.runData (popOps (a + 2) rs ++ tail) []
          (s.setReg r (wordOfBytes s.config.byteOrder (s.rawRead pa) (s.rawRead qa))) :=
        (State.runData_load ht ha).trans (State.runData_load ht' ha')
      have hlen : k < 2 * rs.length := by
        rw [List.length_cons] at hk
        omega
      have hdrop : 2 * ((k + 2) / 2) = 2 * (k / 2) + 2 := by omega
      rw [hword, ih hlen hmore, add_ofNat_add_two, hdrop]
      rfl

/-- What is left of a `POP` after byte `k` loads the later bytes into the registers from that of the word it is in on (R193). -/
theorem Loads.popRest (v : State) (a : Word) {rs : List Reg} (tail : List DataOp) {k : Nat} {held : List Byte}
    (hk : k < 2 * rs.length) (hheld : held.length = k % 2 + 1) :
    Loads (popRest a rs k ++ tail) tail held v (a + BitVec.ofNat 16 (k + 1)) (2 * rs.length - (k + 1))
      (fun more => v.popped (rs.drop (k / 2)) (held ++ more)) := by
  induction rs generalizing a k with
  | nil => cases hk
  | cons r rs ih =>
    match k with
    | 0 =>
      obtain ⟨b0, rfl⟩ := List.length_eq_one_iff.mp hheld
      exact .popOps_one b0 (fun t => .popOps t (a + 2) rs tail)
    | 1 =>
      obtain ⟨b0, b1, rfl⟩ := List.length_eq_two.mp hheld
      exact .popOps_two b0 b1 (fun t => .popOps t (a + 2) rs tail)
    | k + 2 =>
      rw [List.length_cons] at hk
      have hcount : 2 * (r :: rs).length - (k + 2 + 1) = 2 * rs.length - (k + 1) := by
        rw [List.length_cons]
        omega
      have hdiv : (k + 2) / 2 = k / 2 + 1 := by omega
      have haddr : a + BitVec.ofNat 16 (k + 2 + 1) = a + 2 + BitVec.ofNat 16 (k + 1) := add_ofNat_add_two a (k + 1)
      rw [hcount, hdiv, haddr]
      exact ih (a + 2) (by omega) (by rw [hheld, Nat.add_mod_right])

/-! ## The suspended work -/

/-- A data phase whose next access faults is suspended with that access and what is left of it (R43, R252). -/
theorem work_of_fault {i : Instr} {s w t : State} {u : Suspended} {op : DataOp} {rest : List DataOp} {latch : List Byte}
    {va : Word} {a : Access} (hexec : exec i s = .next (State.runData (op :: rest) latch w))
    (hop : op.access? = some (va, a)) (ht : w.translate va a = none) (hp : w.handlerPage va ≠ 0)
    (hnext : exec i s = .next t) (hu : t.suspended = some u) : u.work = .data op rest latch := by
  obtain rfl := Host.Outcome.next.inj (hnext.symm.trans hexec)
  rw [State.runData_fault hop ht, State.pageFault, if_neg hp, State.enterHandler_suspended_eq] at hu
  rw [← Option.some.inj hu]

section
variable {cc : Cond} {regs : Word} {s w t : State} {u : Suspended} {k : Nat} (hcond : condHolds cc s.flags = true)
include hcond

/-- A `PSH` that faults at byte `k` is suspended with that byte and the captured rest of its word in transfer. -/
theorem work_of_psh {s1 : State} {base : Word} {all : List Byte} {b : Byte}
    (hs1 : s1 = s.setReg (s.dest Reg.sp) (s.reg (s.dest Reg.sp) - BitVec.ofNat 16 (2 * popcnt regs)))
    (hbase : base = s1.reg (s.dest Reg.sp)) (hall : all = s1.regBytes (regList regs)) (hb : all[k]? = some b)
    (hstore : s1.storeBytes base (all.take k) = some w) (ht : w.translate (base + BitVec.ofNat 16 k) .write = none)
    (hp : w.handlerPage (base + BitVec.ofNat 16 k) ≠ 0) (hnext : exec (.psh cc regs) s = .next t)
    (hu : t.suspended = some u) :
    k < 2 * (regList regs).length ∧ u.work = .data (.storeLatch (base + BitVec.ofNat 16 k))
      (pushRest base (regList regs) k) (b :: (all.drop (k + 1)).take ((k + 1) % 2)) := by
  obtain ⟨hlt, hget⟩ := List.getElem?_eq_some_iff.mp hb
  have hk : k < 2 * (regList regs).length := by
    rw [← s1.regBytes_length, ← hall]
    exact hlt
  have hlatch : (all.drop k).take (2 - k % 2) = b :: (all.drop (k + 1)).take ((k + 1) % 2) := by
    have hcount : 2 - k % 2 = (k + 1) % 2 + 1 := by omega
    rw [hcount, List.drop_eq_getElem_cons hlt, List.take_succ_cons, hget]
  refine ⟨hk, work_of_fault ?_ rfl ht hp hnext hu⟩
  have hexec : exec (.psh cc regs) s = .next (State.runData (pushOps base (regList regs)) [] s1) := by
    rw [hbase, hs1]
    exact State.conditional_true hcond _
  rw [hexec, ← hlatch, hall, State.runData_pushOps hk (hall ▸ hstore)]

/-- A `POP` that faults at byte `k` is suspended with the bytes of the word it is in in transfer. -/
theorem work_of_pop {base : Word} {bs : List Byte} (hk : k < 2 * popcnt regs) (hbase : base = s.reg (s.dest Reg.sp))
    (hload : s.loadBytes base k = some bs) (hw : w = s.setRegs (regList regs) (bytesToWords s.config.byteOrder bs))
    (ht : w.translate (base + BitVec.ofNat 16 k) .read = none) (hp : w.handlerPage (base + BitVec.ofNat 16 k) ≠ 0)
    (hnext : exec (.pop cc regs) s = .next t) (hu : t.suspended = some u) :
    u.work = .data (.loadByte (base + BitVec.ofNat 16 k))
      (popRest base (regList regs) k ++ [DataOp.addReg (s.dest Reg.sp) (setBytes regs)]) (bs.drop (2 * (k / 2))) := by
  refine work_of_fault ?_ rfl ht hp hnext hu
  have hexec : exec (.pop cc regs) s = .next (State.runData
      (popOps base (regList regs) ++ [.addReg (s.dest Reg.sp) (setBytes regs)]) [] s) := by
    rw [hbase]
    exact State.conditional_true hcond _
  rw [popcnt_eq_length] at hk
  rw [hexec, State.runData_popOps _ hk hload, hw]
  rfl

end

/-! ## The resumed instructions -/

/-- A data phase that stores, resumed after a store at `pa`: it ends with the frame of all its stores, or is stopped at a later byte (R259, R261). -/
theorem Stores.resumed {ops : List DataOp} {latch : List Byte} {v x : State} {va pa : Word} {later : List Byte}
    {o : Host.Outcome State Fault Refusal} (h : Stores ops latch x va later) (hx : Stored v x [pa])
    (ho : o = .next (State.runData ops latch x)) :
    (∀ y, x.storeBytes va later = some y →
      ∃ q, o = .next q ∧ Frame v q [] (pa :: x.storeTargets va later) ∧ (∀ a, q.mem.read a = y.mem.read a) ∧
        q.flags = v.flags) ∧
    ∀ (j : Nat) (y : State), j < later.length → x.storeBytes va (later.take j) = some y →
      StopsAt y (va + BitVec.ofNat 16 j) .write o := by
  constructor
  · intro y hy
    have hstored := hx.trans (State.storeBytes_stored hy)
    exact ⟨_, ho.trans (congrArg _ (h.done y hy)), Stored.frame_finish (.refl v) hstored, fun _ => rfl, hstored.flags⟩
  · intro j y hj hy
    obtain ⟨op, rest, latch', hop, hrun⟩ := h.next j y hj hy
    rw [ho, hrun]
    exact State.runData_stopsAt hop rest latch' y

/-- Settles O49: the suspended work is what is left after byte `k`, and the returning step runs it. -/
theorem returnResumesStack : Obligations.ReturnResumesStack := by
  constructor
  · intro cc regs s s1 w t h v x u k base all later b hcond hs1 hbase hall hb hstore ht hp hnext hu hret hnot _ hv hacc hx
      hlater
    obtain ⟨hk, hwork⟩ := work_of_psh hcond hs1 hbase hall hb hstore ht hp hnext hu
    have hstep := hret.step_storeLatch hnot hv hacc hwork
    have hstores : Stores (pushRest base (regList regs) k) ((all.drop (k + 1)).take ((k + 1) % 2)) x
        (base + BitVec.ofNat 16 (k + 1)) later := by
      rw [hlater, hx, hall]
      exact .pushRest s1 _ base hk
    have hstored : Stored v x [h.reg 2] := hx ▸ .rawWrite v (h.reg 2) b
    obtain ⟨hdone, hnext⟩ := hstores.resumed hstored (hx ▸ hstep)
    refine ⟨fun y hy => ?_, fun j y hj hy => add_ofNat_add base (k + 1) j ▸ hnext j y hj hy⟩
    rw [← flags_of_return hv]
    exact hdone y hy
  · intro cc regs s w t h v u k base bs held rs hcond hk hbase hload hw ht hp hnext hu hret hnot hconfig hv hacc hheld hrs
    have hwork := work_of_pop hcond hk hbase hload hw ht hp hnext hu
    have hstep := hret.step_load hnot hv hacc hwork
    rw [← hheld] at hstep
    have hlen : held.length = k % 2 + 1 := by
      rw [hheld, List.length_append, List.length_drop, State.loadBytes_length hload, List.length_singleton]
      omega
    rw [popcnt_eq_length] at hk
    have hloads := Loads.popRest v base [.addReg (s.dest Reg.sp) (setBytes regs)] hk hlen
    have hpopped (more : List Byte) :
        v.popped ((regList regs).drop (k / 2)) (held ++ more) = v.setRegs rs (bytesToWords s.config.byteOrder (held ++ more)) := by
      rw [State.popped, config_of_return hv, hconfig, hrs]
    simp only [hpopped] at hloads
    refine ⟨fun more y hmore hy => ?_, fun j more y hj hmore hy => ?_⟩
    · rw [popcnt_eq_length] at hmore
      rw [hstep, hloads.done more hmore, ← hy, ← flags_of_return hv, State.runData_addReg]
      exact ⟨_, rfl, pop_ends (hy ▸ RegWrites.setRegs v rs _) _ _⟩
    · rw [popcnt_eq_length] at hj
      obtain ⟨rest, latch', hrun⟩ := hloads.next j more (by omega) hmore
      rw [hstep, hrun, ← hy, add_ofNat_add]
      exact State.runData_stopsAt rfl rest latch' y

end Sys2Proof.Machine
end
